-- ==== Sys2Proof/Word.lean ====
section
/-! DEFINITION. The two word sizes of the block: a byte of the scanline buffer, the row buffer and the output
stream, and a 32-bit host register, command word or uop word (R120, R32 to R35). -/

namespace Sys2Proof

/-- An 8-bit sample or stream byte. -/
abbrev Byte := BitVec 8

/-- A 32-bit host register value, command word or uop word (R120). -/
abbrev Word := BitVec 32

end Sys2Proof
end

