-- ==== Sys2Proof/Syntax.lean ====
section
/-! DEFINITION. The instructions: the five host commands (R126) and the 27 unit operations (R127), one constructor per
row of spec/opcode_table.json, with the operand fields of R121 to R124. -/

namespace Sys2Proof

/-- A component (R47): field `C` of R122, whose value 3 is reserved and has no name here. -/
inductive Comp where
  | y | cb | cr
  deriving DecidableEq, Repr

/-- A Huffman table class: field `K` of R122. -/
inductive HuffClass where
  | dc | ac
  deriving DecidableEq, Repr

/-- A quantization or Huffman table id: field `T` of R122. -/
inductive TableId where
  | luma | chroma
  deriving DecidableEq, Repr

/-- One constructor per row of the opcode table. `r` is a row or block-row index, `x` a block or MCU column (R122, R125). -/
inductive Instr where
  -- host commands, format H (R121, R126)
  | nop
  | init
  | feed
  | finish
  | deinit
  -- unit operations (R127)
  | convRgbY (r : BitVec 4)
  | convRgbYcc (r : BitVec 4)
  | convGrayY (r : BitVec 4)
  | convGrayYcc (r : BitVec 4)
  | padRight (r : BitVec 4)
  | padBottom (r : BitVec 4)
  | loadFull (c : Comp) (r : BitVec 4) (x : BitVec 16)
  | loadH2v1 (c : Comp) (x : BitVec 16)
  | loadH2v2 (c : Comp) (x : BitVec 16)
  | fdct
  | quantZz (t : TableId)
  | encDc (c : Comp) (t : TableId)
  | encAc (t : TableId)
  /-- format U2 (R123): append the low `l` bits of `v` -/
  | putBits (l : BitVec 5) (v : BitVec 16)
  | padFinal
  | flush
  /-- format U3 (R124) -/
  | outByte (b : Byte)
  | buildQt (t : TableId)
  | buildHt (k : HuffClass) (t : TableId)
  | emitSoi
  | emitApp0
  | emitDqt (t : TableId)
  | emitSof0
  | emitDht (k : HuffClass) (t : TableId)
  | emitSos
  | emitEoi
  | processMcuRow
  deriving DecidableEq, Repr

/-- Why a word is no instruction (R128, R129). -/
inductive DecodeError where
  /-- an opcode outside 0x00..0x04 and 0x80..0x9A (R127, R128, R129) -/
  | reservedOpcode
  /-- a field the instruction does not use is not 0 (R121, R122, R129) -/
  | nonZeroUnusedField
  /-- `C = 3` (R122, R129) -/
  | reservedComponent
  /-- `L > 16` (R123, R129) -/
  | reservedLength
  deriving DecidableEq, Repr

end Sys2Proof
end

