-- ==== Sys2Proof/WellFormed.lean ====
section
/-! DEFINITION. Well-formed instructions: those whose fields hold no reserved value. Component, class and table id are
typed by name, so of R129's reserved values (C = 3, L > 16, a non-zero unused field) only the length of PUT_BITS can be
ill-formed in a term. -/

namespace Sys2Proof

/-- No field holds a reserved value (R123, R129). -/
def Instr.wellFormed : Instr → Bool
  | .nop => true
  | .init => true
  | .feed => true
  | .finish => true
  | .deinit => true
  | .convRgbY _ => true
  | .convRgbYcc _ => true
  | .convGrayY _ => true
  | .convGrayYcc _ => true
  | .padRight _ => true
  | .padBottom _ => true
  | .loadFull _ _ _ => true
  | .loadH2v1 _ _ => true
  | .loadH2v2 _ _ => true
  | .fdct => true
  | .quantZz _ => true
  | .encDc _ _ => true
  | .encAc _ => true
  | .putBits l _ => l.toNat ≤ 16
  | .padFinal => true
  | .flush => true
  | .outByte _ => true
  | .buildQt _ => true
  | .buildHt _ _ => true
  | .emitSoi => true
  | .emitApp0 => true
  | .emitDqt _ => true
  | .emitSof0 => true
  | .emitDht _ _ => true
  | .emitSos => true
  | .emitEoi => true
  | .processMcuRow => true

/-- The host commands of R126: the only instructions a CMD write accepts. -/
def Instr.isHostCommand : Instr → Bool
  | .nop => true
  | .init => true
  | .feed => true
  | .finish => true
  | .deinit => true
  | .convRgbY _ => false
  | .convRgbYcc _ => false
  | .convGrayY _ => false
  | .convGrayYcc _ => false
  | .padRight _ => false
  | .padBottom _ => false
  | .loadFull _ _ _ => false
  | .loadH2v1 _ _ => false
  | .loadH2v2 _ _ => false
  | .fdct => false
  | .quantZz _ => false
  | .encDc _ _ => false
  | .encAc _ => false
  | .putBits _ _ => false
  | .padFinal => false
  | .flush => false
  | .outByte _ => false
  | .buildQt _ => false
  | .buildHt _ _ => false
  | .emitSoi => false
  | .emitApp0 => false
  | .emitDqt _ => false
  | .emitSof0 => false
  | .emitDht _ _ => false
  | .emitSos => false
  | .emitEoi => false
  | .processMcuRow => false

end Sys2Proof
end

