-- ==== Sys2Proof/Decode.lean ====
section
/-! DEFINITION. Decoding a 32-bit word to an instruction, total and rejecting by name, from the formats of R120 to R124
and the opcodes of R126 and R127; and the encoder written from the same formats. Every word is 32 bits, there is one
length and no byte order to apply: a command word is the value of one 32-bit register write. -/

namespace Sys2Proof

/-- The fields of a word: all formats share `OP` = bits [31:24] (R120). -/
structure WordFields where
  op : BitVec 8
  c : BitVec 2
  k : BitVec 1
  t : BitVec 1
  r : BitVec 4
  x : BitVec 16
  deriving DecidableEq, Repr

namespace Decode

/-- Format U1 read as fields (R122). -/
def fields (w : Word) : WordFields where
  op := w.extractLsb' 24 8
  c := w.extractLsb' 22 2
  k := w.extractLsb' 21 1
  t := w.extractLsb' 20 1
  r := w.extractLsb' 16 4
  x := w.extractLsb' 0 16

/-- The component a value of `C` names; 3 is reserved (R122). -/
def comp? (c : BitVec 2) : Option Comp :=
  match c.toNat with
  | 0 => some .y
  | 1 => some .cb
  | 2 => some .cr
  | _ => none

def huffClass (k : BitVec 1) : HuffClass := if k = 0#1 then .dc else .ac

def tableId (t : BitVec 1) : TableId := if t = 0#1 then .luma else .chroma

/-- `i` where the fields an instruction does not use are 0 (R121, R122, R129). -/
def whenZero (unusedAreZero : Bool) (i : Instr) : Except DecodeError Instr :=
  if unusedAreZero then .ok i else .error .nonZeroUnusedField

/-- An instruction with a component operand, once the unused fields are 0; `C = 3` is reserved (R122, R129). -/
def withComp (unusedAreZero : Bool) (c : BitVec 2) (i : Comp → Instr) : Except DecodeError Instr :=
  match comp? c with
  | none => .error .reservedComponent
  | some c => whenZero unusedAreZero (i c)

/-- Format H, and format U1 with no field used: bits [23:0] are 0 (R121, R122). -/
def bare (w : Word) (i : Instr) : Except DecodeError Instr :=
  whenZero (w.extractLsb' 0 24 = 0#24) i

/-- U1 with only `R` used. -/
def rowOnly (f : WordFields) (i : BitVec 4 → Instr) : Except DecodeError Instr :=
  whenZero (f.c = 0#2 && f.k = 0#1 && f.t = 0#1 && f.x = 0#16) (i f.r)

/-- U1 with only `T` used. -/
def tableOnly (f : WordFields) (i : TableId → Instr) : Except DecodeError Instr :=
  whenZero (f.c = 0#2 && f.k = 0#1 && f.r = 0#4 && f.x = 0#16) (i (tableId f.t))

/-- U1 with only `K` and `T` used. -/
def classTable (f : WordFields) (i : HuffClass → TableId → Instr) : Except DecodeError Instr :=
  whenZero (f.c = 0#2 && f.r = 0#4 && f.x = 0#16) (i (huffClass f.k) (tableId f.t))

/-- Format U2 (R123): bits [23:21] are 0, `L` = [20:16] with 17..31 reserved, `V` = [15:0]. -/
def bitAppend (w : Word) : Except DecodeError Instr :=
  let l := w.extractLsb' 16 5
  if 16 < l.toNat then .error .reservedLength
  else whenZero (w.extractLsb' 21 3 = 0#3) (.putBits l (w.extractLsb' 0 16))

/-- Format U3 (R124): bits [23:8] are 0, `B` = [7:0]. -/
def byteAppend (w : Word) : Except DecodeError Instr :=
  whenZero (w.extractLsb' 8 16 = 0#16) (.outByte (w.extractLsb' 0 8))

end Decode

open Decode in
/-- The instruction a 32-bit word encodes (R120 to R127), or why it encodes none (R128, R129). -/
def decode (w : Word) : Except DecodeError Instr :=
  let f := fields w
  match f.op.toNat with
  | 0x00 => bare w .nop
  | 0x01 => bare w .init
  | 0x02 => bare w .feed
  | 0x03 => bare w .finish
  | 0x04 => bare w .deinit
  | 0x80 => rowOnly f .convRgbY
  | 0x81 => rowOnly f .convRgbYcc
  | 0x82 => rowOnly f .convGrayY
  | 0x83 => rowOnly f .convGrayYcc
  | 0x84 => rowOnly f .padRight
  | 0x85 => rowOnly f .padBottom
  | 0x86 => withComp (f.k = 0#1 && f.t = 0#1) f.c (.loadFull · f.r f.x)
  | 0x87 => withComp (f.k = 0#1 && f.t = 0#1 && f.r = 0#4) f.c (.loadH2v1 · f.x)
  | 0x88 => withComp (f.k = 0#1 && f.t = 0#1 && f.r = 0#4) f.c (.loadH2v2 · f.x)
  | 0x89 => bare w .fdct
  | 0x8A => tableOnly f .quantZz
  | 0x8B => withComp (f.k = 0#1 && f.r = 0#4 && f.x = 0#16) f.c (.encDc · (tableId f.t))
  | 0x8C => tableOnly f .encAc
  | 0x8D => bitAppend w
  | 0x8E => bare w .padFinal
  | 0x8F => bare w .flush
  | 0x90 => byteAppend w
  | 0x91 => tableOnly f .buildQt
  | 0x92 => classTable f .buildHt
  | 0x93 => bare w .emitSoi
  | 0x94 => bare w .emitApp0
  | 0x95 => tableOnly f .emitDqt
  | 0x96 => bare w .emitSof0
  | 0x97 => classTable f .emitDht
  | 0x98 => bare w .emitSos
  | 0x99 => bare w .emitEoi
  | 0x9A => bare w .processMcuRow
  | _ => .error .reservedOpcode

/-- The host command a word written to CMD issues: one of the five words of R126; any other word, a uop word included,
is an illegal command (R128, R129). -/
def commandOf (w : Word) : Option Instr :=
  match decode w with
  | .ok i => if i.isHostCommand then some i else none
  | .error _ => none

/-- The instruction the decoder reads from an instruction whose bits are `w`, bit 0 the least significant (R9, R120). -/
def decodeTableWord (nbits w : Nat) : Option Instr :=
  match decode (BitVec.ofNat 32 (w % 2 ^ nbits)) with
  | .ok i => some i
  | .error _ => none

namespace Encode

def comp : Comp → BitVec 2
  | .y => 0#2
  | .cb => 1#2
  | .cr => 2#2

def huffClass : HuffClass → BitVec 1
  | .dc => 0#1
  | .ac => 1#1

def tableId : TableId → BitVec 1
  | .luma => 0#1
  | .chroma => 1#1

/-- Format U1 (R122): `OP`, `C`, `K`, `T`, `R`, `X` from bit 31 down. -/
def u1 (op : BitVec 8) (c : BitVec 2) (k t : BitVec 1) (r : BitVec 4) (x : BitVec 16) : Word :=
  op ++ c ++ k ++ t ++ r ++ x

/-- Format H, and U1 with no field used. -/
def bare (op : BitVec 8) : Word := op ++ 0#24

/-- Format U2 (R123). -/
def u2 (l : BitVec 5) (v : BitVec 16) : Word := 0x8D#8 ++ 0#3 ++ l ++ v

/-- Format U3 (R124). -/
def u3 (b : BitVec 8) : Word := 0x90#8 ++ 0#16 ++ b

end Encode

open Encode in
/-- The word of an instruction, from the formats of R121 to R124 and the opcodes of R126 and R127. -/
def encode : Instr → Word
  | .nop => bare 0x00#8
  | .init => bare 0x01#8
  | .feed => bare 0x02#8
  | .finish => bare 0x03#8
  | .deinit => bare 0x04#8
  | .convRgbY r => u1 0x80#8 0 0 0 r 0
  | .convRgbYcc r => u1 0x81#8 0 0 0 r 0
  | .convGrayY r => u1 0x82#8 0 0 0 r 0
  | .convGrayYcc r => u1 0x83#8 0 0 0 r 0
  | .padRight r => u1 0x84#8 0 0 0 r 0
  | .padBottom r => u1 0x85#8 0 0 0 r 0
  | .loadFull c r x => u1 0x86#8 (comp c) 0 0 r x
  | .loadH2v1 c x => u1 0x87#8 (comp c) 0 0 0 x
  | .loadH2v2 c x => u1 0x88#8 (comp c) 0 0 0 x
  | .fdct => bare 0x89#8
  | .quantZz t => u1 0x8A#8 0 0 (tableId t) 0 0
  | .encDc c t => u1 0x8B#8 (comp c) 0 (tableId t) 0 0
  | .encAc t => u1 0x8C#8 0 0 (tableId t) 0 0
  | .putBits l v => u2 l v
  | .padFinal => bare 0x8E#8
  | .flush => bare 0x8F#8
  | .outByte b => u3 b
  | .buildQt t => u1 0x91#8 0 0 (tableId t) 0 0
  | .buildHt k t => u1 0x92#8 0 (huffClass k) (tableId t) 0 0
  | .emitSoi => bare 0x93#8
  | .emitApp0 => bare 0x94#8
  | .emitDqt t => u1 0x95#8 0 0 (tableId t) 0 0
  | .emitSof0 => bare 0x96#8
  | .emitDht k t => u1 0x97#8 0 (huffClass k) (tableId t) 0 0
  | .emitSos => bare 0x98#8
  | .emitEoi => bare 0x99#8
  | .processMcuRow => bare 0x9A#8

end Sys2Proof
end

