-- ==== Sys2Proof/Machine/Arith.lean ====
section
/-! DEFINITION. The arithmetic primitives of R11 and the byte order of marker fields (R85), on mathematical integers (R10). -/

namespace Sys2Proof.Machine

/-- Arithmetic shift right: `floor (x / 2^n)`, also for negative `x` (R11). -/
def asr (x : Int) (n : Nat) : Int := x / 2 ^ n

/-- Division by `2^n` rounding half toward plus infinity (R11). -/
def descale (x : Int) (n : Nat) : Int := asr (x + 2 ^ (n - 1)) n

/-- R11. -/
def clamp (v lo hi : Int) : Int := if v < lo then lo else if hi < v then hi else v

/-- `clamp v 0 255`, as a byte (R11). -/
def sat8 (v : Int) : Byte := BitVec.ofInt 8 (clamp v 0 255)

/-- The two bytes of a 16-bit marker field, most significant first (R85). -/
def be16 (v : Nat) : List Byte := [BitVec.ofNat 8 (v / 256), BitVec.ofNat 8 v]

end Sys2Proof.Machine
end

