-- ==== Sys2Proof/Config.lean ====
section
/-! DEFINITION. What is fixed for one block and is not state: the OPEN parameters of R8 (a record that State carries and
no operation writes), and the free values: opaque constants for what the spec leaves unspecified. Nothing in Lean can
compute a value of an opaque constant, so a theorem about the machine holds whatever these values are. -/

namespace Sys2Proof

/-- The parameters R8 marks OPEN, and the platform base address of R80. A model takes them as arguments. -/
structure Config where
  /-- `MAX_PADDED_WIDTH`: row-buffer capacity in pixels, a multiple of 16, at least 16 (R8, D5, U8). -/
  maxPaddedWidth : Nat
  /-- `H2V1_ODD_BIAS`: odd-position rounding bias of the 2-pixel chroma filter, 2 or its override 1 (R8, D13, U9). -/
  h2v1OddBias : Nat
  /-- `BLOCK_BASE`: where the platform places the host window; no rule depends on it (R80, D6, U13). -/
  blockBase : Nat
  deriving DecidableEq, Repr

namespace Config

/-- The defaults of R8; `BLOCK_BASE` has none, and 0 stands for it (assumption log 3). -/
def default : Config := ⟨65536, 2, 0⟩

/-- The parameter values D5 and D13 admit, with a scanline buffer that ends inside the 2^19-byte window (R80). -/
abbrev Legal (c : Config) : Prop :=
  16 ∣ c.maxPaddedWidth ∧ 16 ≤ c.maxPaddedWidth ∧ 0x40000 + 3 * c.maxPaddedWidth ≤ 2 ^ 19 ∧
    (c.h2v1OddBias = 1 ∨ c.h2v1OddBias = 2)

/-- The platform address of a block offset (R80). -/
def platformAddress (c : Config) (offset : BitVec 19) : Nat := c.blockBase + offset.toNat

/-- FREE VALUE: the sink's answer to the transfer drawn as number `n`, true for "all bytes were accepted" (R90: "a draw
under no law"). Used when State lists no further answer of its own (assumption log 4). -/
opaque sinkAnswer : Nat → Bool

/-- FREE VALUE: what the row buffer holds at component `c`, row `r`, column `x` where nothing has been written since the
reset numbered `epoch` (R50, U1: any value; assumption log 6). -/
opaque unwrittenSample : (epoch c r x : Nat) → Byte

/-- FREE VALUE: what a host read of scanline-buffer byte `j` answers where nothing has been written since the reset
numbered `epoch` (R49: unspecified; assumption log 5). -/
opaque unwrittenSlbByte : (epoch j : Nat) → Byte

/-- FREE VALUE: the sample PAD_BOTTOM copies for component `c`, column `x` when no row is buffered; R359 states none
(assumption log 8). -/
opaque absentRowSample : (epoch c x : Nat) → Byte

/-- FREE VALUE: the quality scale of a latched quality outside 1..100, which R212 does not state (assumption log 9). -/
opaque unstatedScale : Nat → Nat

/-- FREE VALUE: the quotient of a coefficient by a table entry of 0. R215 states quotients for divisors in 1..255 only; a
table entry is 0 only where nothing has built the table (assumption log 10). -/
opaque quotientByZero : Int → Int

end Config

end Sys2Proof
end

