-- ==== Sys2Proof/Machine/State.lean ====
section
/-! DEFINITION. The state of the block as plain data (10_state.md), the inputs the outside world has pending, what the
host and the sink have observed, the reasons a step can stop, and the state after reset (R60, R440). -/

namespace Sys2Proof.Machine

/-- The controller state of R59. -/
inductive CtlState where
  | uninit | configured | accumulating | finalized | failed
  deriving DecidableEq, Repr

/-- The error codes of R400. -/
inductive ErrCode where
  | none | invalidParameters | allocationFailure | sinkWriteFailure | illegalCommand | badState
  deriving DecidableEq, Repr

/-- The subsampling modes of R35 and R45. -/
inductive Subsamp where
  | grayscale | s444 | s422 | s420
  deriving DecidableEq, Repr

/-- Source bytes per pixel, 1 or 3: the two channel counts INIT lets into CONF (R35, R341). -/
inductive Channels where
  | one | three
  deriving DecidableEq, Repr

/-- The latched configuration CONF of R44. -/
structure Conf where
  w : BitVec 16
  h : BitVec 16
  ch : Channels
  q : BitVec 7
  ss : Subsamp
  nocd : Bool
  deriving DecidableEq, Repr

/-- One value for each component (R47). -/
structure PerComp (α : Type) where
  y : α
  cb : α
  cr : α
  deriving DecidableEq, Repr

/-- One value for each table id (R52, R53). -/
structure PerTable (α : Type) where
  luma : α
  chroma : α
  deriving DecidableEq, Repr

/-- One value for each Huffman class (R53). -/
structure PerClass (α : Type) where
  dc : α
  ac : α
  deriving DecidableEq, Repr

/-- `HCODE` and `HLEN` of one symbol; length 0 marks "no code" (R53). -/
structure HuffCode where
  code : BitVec 16
  len : Nat
  deriving DecidableEq, Repr

/-- A code table, indexed by symbol value (R53). -/
abbrev HuffTable := Vector HuffCode 256

/-- A block of 64 signed values, in natural or zig-zag order (R12, R57). -/
abbrev Block := Vector Int 64

/-- Bytes by address, in one canonical form (`Memory.wf`): addresses strictly rising. An address that is not listed
holds no value: nothing has written it since reset (R49). -/
abbrev Memory := List Host.Cell

/-- An answer the sink will give to a transfer: R90's `ok`, or none at all (R456, U7). -/
inductive SinkAnswer where
  | accepted | rejected | silent
  deriving DecidableEq, Repr

/-- One entry of the sink log: the bytes of a `SinkPut` and its answer (R92). -/
structure Transfer where
  bytes : List Byte
  ok : Bool
  deriving DecidableEq, Repr

/-- The width of a host bus access: 8, 16 or 32 bits (R82). -/
inductive Width where
  | byte | half | word
  deriving DecidableEq, Repr

/-- A host bus access at a block offset of the 2^19-byte window (R80, R83); a write of a narrow width takes the low bits. -/
inductive HostAccess where
  | read (n : Width) (addr : BitVec 19)
  | write (n : Width) (addr : BitVec 19) (v : Word)
  deriving DecidableEq, Repr

/-- What the outside world does to the block, between commands: a host access, or the platform's reset (R440). -/
inductive Input where
  | access (a : HostAccess)
  | reset
  deriving DecidableEq, Repr

/-- The state of the block. R57's transient values are state because the unit operations hand them to each other. -/
structure State where
  /-- the OPEN parameters of R8; no operation writes them -/
  cfg : Config
  /-- `STATE` (R59), seen as STATUS[2:0] -/
  ctl : CtlState
  /-- STATUS.RESULT (R33) -/
  result : Bool
  /-- STATUS.ERR (R33, R400) -/
  err : ErrCode
  /-- `ROWS` (R51), seen as STATUS[12:8] -/
  rows : Nat
  /-- the CFG_DIM register (R34) -/
  cfgDim : Word
  /-- the CFG_MODE register (R35) -/
  cfgMode : Word
  /-- the latched configuration (R44) -/
  conf : Conf
  /-- the scanline buffer `SLB[i]`, by index (R48, R49) -/
  slb : Memory
  /-- the row buffer `RB[c][r][x]`: 16 rows a component, each by column (R50) -/
  rb : PerComp (Vector Memory 16)
  /-- the quantization tables, in zig-zag order (R52) -/
  qt : PerTable (Vector Byte 64)
  /-- the Huffman code tables (R53) -/
  huff : PerClass (PerTable HuffTable)
  /-- the DC predictors (R54) -/
  pred : PerComp Int
  /-- the pending bits `ACC`, first appended first; `NACC` is its length (R55) -/
  acc : List Bool
  /-- the output buffer `OB`; `OBLEN` is its length (R56) -/
  ob : List Byte
  /-- the sample block `S`, natural order (R57) -/
  blkS : Block
  /-- the DCT working block `P`, natural order (R57) -/
  blkP : Block
  /-- the coefficient block `Z`, zig-zag order (R57) -/
  blkZ : Block
  /-- the AC run counter (R57, R247) -/
  run : Nat
  /-- the MCU index inside PROCESS_MCU_ROW (R31, R352) -/
  mcuIndex : Nat
  /-- the block index inside the MCU (R31, R352) -/
  blockIndex : Nat
  /-- a uop word the controller issues to itself next (R127); no host access writes it (assumption log 2) -/
  issue : Option Word
  /-- INPUT: host accesses and platform resets to come, in the host's issue order (R94; assumption log 1) -/
  inputs : List Input
  /-- INPUT: answers the sink will give next (R90); when none is listed, `Config.sinkAnswer` answers (assumption log 4) -/
  answers : List SinkAnswer
  /-- the model's own: how many answers `Config.sinkAnswer` has given (assumption log 4) -/
  draws : Nat
  /-- the model's own: how many platform resets have happened, the argument of the free values of unwritten bytes -/
  epoch : Nat
  /-- OBSERVATION: the sink log, oldest first (R92) -/
  sinkLog : List Transfer
  /-- OBSERVATION: the values the host has read, oldest first (R92) -/
  hostReads : List Word
  deriving DecidableEq, Repr

/-- Why the machine stops: the model faults of R402 and those the spec treats as having no next state. -/
inductive Fault where
  /-- raised by ENC_DC and ENC_AC (and commands that code a block) for a symbol with `HLEN = 0` (R248, U6); safe -/
  | undefinedSymbol
  /-- raised by the CONV operations and FEED that read an SLB byte never written since reset (R49, U5); safe -/
  | slbByteNeverWritten
  /-- raised by a transfer the sink never answers: the command stays incomplete, stuck (R456, U7); safe -/
  | sinkNeverAnswers
  /-- raised by the controller's issue of a word that encodes no instruction (R129, U10); safe -/
  | reservedUop (why : DecodeError)
  /-- raised by an append of more than 16 bits, a reserved length (R123, R270, U10); safe -/
  | reservedLength
  /-- raised by a unit operation on a row or column the row buffer does not have (R50); safe -/
  | outsideRowBuffer
  deriving DecidableEq, Repr

/-- Why a step is refused: it has no meaning in the model. -/
inductive Refusal where
  /-- an instruction without a meaning yet; raised by no meaning; safe -/
  | notModelled (mnemonic : String)
  /-- raised by a byte or halfword access to a host register (R81, U3); safe -/
  | narrowRegisterAccess
  /-- raised by an access whose offset is not a multiple of its width (R81, R82, R83, U3); safe -/
  | misalignedAccess
  /-- raised by an access that begins inside SLB and ends outside it (R82, U3); safe -/
  | straddlesSlbEnd
  deriving DecidableEq, Repr

/-- The state after power-on with parameters `cfg`: R60's values; where R60 says "unspecified", the values of assumption
log 7; every input and observation list empty. -/
def State.powerOn (cfg : Config) : State where
  cfg := cfg
  ctl := .uninit
  result := false
  err := .none
  rows := 0
  cfgDim := 0x00000000#32
  cfgMode := 0x00003355#32
  conf := ⟨0#16, 0#16, .one, 0#7, .grayscale, false⟩
  slb := []
  rb := ⟨Vector.replicate 16 [], Vector.replicate 16 [], Vector.replicate 16 []⟩
  qt := ⟨Vector.replicate 64 0#8, Vector.replicate 64 0#8⟩
  huff :=
    let blank : HuffTable := Vector.replicate 256 ⟨0#16, 0⟩
    ⟨⟨blank, blank⟩, ⟨blank, blank⟩⟩
  pred := ⟨0, 0, 0⟩
  acc := []
  ob := []
  blkS := Vector.replicate 64 0
  blkP := Vector.replicate 64 0
  blkZ := Vector.replicate 64 0
  run := 0
  mcuIndex := 0
  blockIndex := 0
  issue := none
  inputs := []
  answers := []
  draws := 0
  epoch := 0
  sinkLog := []
  hostReads := []

/-- The machine right after reset, with the default parameters of R8 (R60, R440). -/
def State.reset : State := State.powerOn Config.default

end Sys2Proof.Machine
end

