-- ==== Sys2Proof/Machine/Flags.lean ====
section
/-! DEFINITION. STATUS (R33): its field encodings (R59, R400), the word a host reads, and the write every successful
command ends with (R370). The unit operations write no flag: STATUS is the only flag state of the block. -/

namespace Sys2Proof.Machine

/-- The value of STATUS.STATE (R59). -/
def CtlState.code : CtlState → BitVec 3
  | .uninit => 0
  | .configured => 1
  | .accumulating => 2
  | .finalized => 3
  | .failed => 4

/-- The value of STATUS.ERR (R400). -/
def ErrCode.code : ErrCode → BitVec 4
  | .none => 0
  | .invalidParameters => 1
  | .allocationFailure => 2
  | .sinkWriteFailure => 3
  | .illegalCommand => 4
  | .badState => 5

/-- STATUS as a host reads it: reserved [31:13], ROWS [12:8], ERR [7:4], RESULT [3], STATE [2:0] (R33). -/
def State.status (s : State) : Word :=
  0#19 ++ BitVec.ofNat 5 s.rows ++ s.err.code ++ BitVec.ofBool s.result ++ s.ctl.code

/-- A command that succeeded: `RESULT <- 1; ERR <- NONE` (R370). -/
def State.succeed (s : State) : State := { s with result := true, err := .none }

end Sys2Proof.Machine
end

