-- ==== Sys2Proof/Machine/Ops.lean ====
section
/-! DEFINITION. The named operations the meanings share: reading and writing memory and the indexed state, sequencing
unit operations, raising an error (R404), the sink port (R90), the output buffer (R274, R276) and the bit append (R270). -/

namespace Sys2Proof.Machine

/-! ### State indexed by component, table id and class -/

/-- Component index `c` (R47). -/
def compIndex : Comp → Nat
  | .y => 0
  | .cb => 1
  | .cr => 2

def PerComp.get {α : Type} (p : PerComp α) : Comp → α
  | .y => p.y
  | .cb => p.cb
  | .cr => p.cr

def PerComp.set {α : Type} (p : PerComp α) (c : Comp) (v : α) : PerComp α :=
  match c with
  | .y => { p with y := v }
  | .cb => { p with cb := v }
  | .cr => { p with cr := v }

def PerTable.get {α : Type} (p : PerTable α) : TableId → α
  | .luma => p.luma
  | .chroma => p.chroma

def PerTable.set {α : Type} (p : PerTable α) (t : TableId) (v : α) : PerTable α :=
  match t with
  | .luma => { p with luma := v }
  | .chroma => { p with chroma := v }

def PerClass.get {α : Type} (p : PerClass α) : HuffClass → α
  | .dc => p.dc
  | .ac => p.ac

def PerClass.set {α : Type} (p : PerClass α) (k : HuffClass) (v : α) : PerClass α :=
  match k with
  | .dc => { p with dc := v }
  | .ac => { p with ac := v }

/-! ### Memory: the scanline buffer and the rows of the row buffer -/

/-- The byte at an address, or none where nothing has been written (R49). -/
def Memory.read : Memory → Nat → Option Byte
  | [], _ => none
  | (k, v) :: rest, a => if k = a then some v else Memory.read rest a

/-- Writes one byte, keeping the addresses strictly rising. -/
def Memory.write : Memory → Nat → Byte → Memory
  | [], a, b => [(a, b)]
  | (k, v) :: rest, a, b =>
    if a < k then (a, b) :: (k, v) :: rest
    else if a = k then (a, b) :: rest
    else (k, v) :: Memory.write rest a b

/-- The canonical form: addresses strictly rising. No byte value is what an unlisted address reads as. -/
abbrev Memory.wf (m : Memory) : Prop := m.Pairwise fun p q => p.1 < q.1

/-- The `n` bytes from address `a` up, if each of them has been written. -/
def Memory.readRange (m : Memory) (a : Nat) : Nat → Option (List Byte)
  | 0 => some []
  | n + 1 =>
    match m.read a, Memory.readRange m (a + 1) n with
    | some b, some bs => some (b :: bs)
    | _, _ => none

/-- Writes consecutive bytes from address `a` up. -/
def Memory.writeRange (m : Memory) (a : Nat) : List Byte → Memory
  | [] => m
  | b :: bs => Memory.writeRange (m.write a b) (a + 1) bs

/-! ### Sequencing: a command is one atomic step made of unit operations (R4) -/

/-- How a unit operation, or a command so far, ends: it goes on, it has raised an error (which ends the command, R404),
or the machine has no next state. -/
inductive Flow where
  | going (s : State)
  | raised (s : State)
  | fault (f : Fault)
  deriving Repr

/-- The next operation runs only if the one before it raised nothing (R404). -/
def Flow.bind (x : Flow) (k : State → Flow) : Flow :=
  match x with
  | .going s => k s
  | .raised s => .raised s
  | .fault f => .fault f

/-- Operations in order, stopping at the first that raises an error or faults. -/
def runAll : List (State → Flow) → State → Flow
  | [], s => .going s
  | op :: ops, s => (op s).bind (runAll ops)

/-- The step a command or a single unit operation makes: a raised error is reported in STATUS, not a fault (R405). -/
def Flow.toOutcome : Flow → Host.Outcome State Fault Refusal
  | .going s => .next s
  | .raised s => .next s
  | .fault f => .fault f

/-! ### Raising an error -/

/-- `raise Error(code)` (R404): the block's only exception. It saves nothing and goes nowhere (R411): RESULT and ERR
report it, and a sink failure also enters FAILED and clears ROWS. There is no return from it but the end of the command. -/
def raiseError (code : ErrCode) (s : State) : State :=
  let t := { s with result := false, err := code }
  match code with
  | .sinkWriteFailure => { t with ctl := .failed, rows := 0 }
  | .none => t
  | .invalidParameters => t
  | .allocationFailure => t
  | .illegalCommand => t
  | .badState => t

/-! ### The sink port -/

/-- The sink's answer to the next transfer: the next one listed, else a free value (R90; assumption log 4). -/
def State.nextAnswer (s : State) : SinkAnswer :=
  match s.answers with
  | a :: _ => a
  | [] => if Config.sinkAnswer s.draws then .accepted else .rejected

/-- The next answer has been given. -/
def State.consumeAnswer (s : State) : State :=
  match s.answers with
  | _ :: rest => { s with answers := rest }
  | [] => { s with draws := s.draws + 1 }

/-- The transfer of `bytes` was answered `ok`: the sink log records it (R92). -/
def State.logTransfer (s : State) (bytes : List Byte) (ok : Bool) : State :=
  { s.consumeAnswer with sinkLog := s.sinkLog ++ [⟨bytes, ok⟩] }

/-- `Flush()` (R276): sends the buffered bytes, if any, in one transfer and empties the buffer; a false answer raises
SINK_WRITE_FAILURE, and no answer leaves the command incomplete (R456). It does not look at STATE, as R276's pseudocode does not: a
unit operation run alone in FAILED makes its transfer too, DESIGN CHOICE (assumption log 30). -/
def flushBuffer (s : State) : Flow :=
  match s.ob with
  | [] => .going s
  | b :: bs =>
    match s.nextAnswer with
    | .accepted => .going { s.logTransfer (b :: bs) true with ob := [] }
    | .rejected => .raised (raiseError .sinkWriteFailure { s.logTransfer (b :: bs) false with ob := [] })
    | .silent => .fault .sinkNeverAnswers

/-- `OBAppend(b)` (R274): a byte that fills the buffer flushes it at once. -/
def obAppend (b : Byte) (s : State) : Flow :=
  let t := { s with ob := s.ob ++ [b] }
  if t.ob.length = obSize then flushBuffer t else .going t

/-- Raw bytes: appended in order, unstuffed, not through `ACC` (R273). -/
def rawBytes (bs : List Byte) : State → Flow := runAll (bs.map obAppend)

/-! ### The bit append -/

/-- The low `n` bits of `v`, most significant first (R270, R86). -/
def lowBits (v : BitVec 16) (n : Nat) : List Bool :=
  (List.range n).map fun i => v.getLsbD (n - 1 - i)

/-- Bits read as a number, first bit most significant (R86). -/
def bitsToNat (bits : List Bool) : Nat := bits.foldl (fun n b => 2 * n + b.toNat) 0

/-- A data byte of the entropy-coded data, with the stuffed 0x00 after 0xFF (R270, R272). -/
def stuffedByte (b : Byte) (s : State) : Flow :=
  (obAppend b s).bind fun s => if b = 0xFF#8 then obAppend 0x00#8 s else .going s

/-- The loop of R270: while 8 or more bits are pending, form the byte of the first 8, the rest staying pending. -/
def drainBits : List Bool → State → Flow
  | b7 :: b6 :: b5 :: b4 :: b3 :: b2 :: b1 :: b0 :: rest, s =>
    (stuffedByte (BitVec.ofNat 8 (bitsToNat [b7, b6, b5, b4, b3, b2, b1, b0])) { s with acc := rest }).bind
      (drainBits rest)
  | few, s => .going { s with acc := few }

/-- `PutBits(v, n)` (R270): appends the low `n` bits of `v`; a length above 16 is reserved (R123, U10). -/
def appendBits (v : BitVec 16) (n : Nat) (s : State) : Flow :=
  if 16 < n then .fault .reservedLength
  else if n = 0 then .going s
  else drainBits (s.acc ++ lowBits v n) s

end Sys2Proof.Machine
end

