-- ==== Sys2Proof/Machine/Operands.lean ====
section
/-! DEFINITION. Where operands come from and go to: the fields of CFG_DIM and CFG_MODE (R34, R35), the geometry and the
component descriptors (R45 to R47), source pixels of the scanline buffer (R48, R49), samples and rows of the row
buffer (R50), and table entries (R52, R53). -/

namespace Sys2Proof.Machine

/-! ### Host register fields -/

/-- CFG_DIM.WIDTH (R34). -/
def State.cfgWidth (s : State) : BitVec 16 := s.cfgDim.extractLsb' 0 16

/-- CFG_DIM.HEIGHT (R34). -/
def State.cfgHeight (s : State) : BitVec 16 := s.cfgDim.extractLsb' 16 16

/-- CFG_MODE.QUALITY (R35). -/
def State.cfgQuality (s : State) : BitVec 7 := s.cfgMode.extractLsb' 0 7

/-- CFG_MODE.CHANNELS (R35). -/
def State.cfgChannels (s : State) : BitVec 2 := s.cfgMode.extractLsb' 8 2

/-- CFG_MODE.SUBSAMP (R35); all four values are legal. -/
def State.cfgSubsamp (s : State) : Subsamp :=
  match (s.cfgMode.extractLsb' 12 2).toNat with
  | 0 => .grayscale
  | 1 => .s444
  | 2 => .s422
  | _ => .s420

/-- CFG_MODE.NOCD (R35). -/
def State.cfgNocd (s : State) : Bool := s.cfgMode.extractLsb' 16 1 = 1#1

/-- The defined bits of CFG_MODE: [6:0], [9:8], [13:12], [16]; the others read 0 and ignore writes (R35). -/
def cfgModeMask : Word := 0x0001337F#32

/-! ### Geometry (R45, R46) and component descriptors (R47) -/

/-- The components of a mode, in frame order: NCOMP of them (R45). -/
def Subsamp.comps : Subsamp → List Comp
  | .grayscale => [.y]
  | .s444 => [.y, .cb, .cr]
  | .s422 => [.y, .cb, .cr]
  | .s420 => [.y, .cb, .cr]

/-- NCOMP (R45). -/
def Subsamp.ncomp (ss : Subsamp) : Nat := ss.comps.length

/-- The sampling factors `(H, V)` of a component (R45). -/
def Subsamp.factors : Subsamp → Comp → Nat × Nat
  | .s422, .y => (2, 1)
  | .s420, .y => (2, 2)
  | .grayscale, .y => (1, 1)
  | .s444, .y => (1, 1)
  | _, .cb => (1, 1)
  | _, .cr => (1, 1)

/-- MCU_W: 8 times the largest horizontal factor (R45). -/
def Subsamp.mcuW : Subsamp → Nat
  | .grayscale => 8
  | .s444 => 8
  | .s422 => 16
  | .s420 => 16

/-- MCU_H: 8 times the largest vertical factor (R45). -/
def Subsamp.mcuH : Subsamp → Nat
  | .grayscale => 8
  | .s444 => 8
  | .s422 => 8
  | .s420 => 16

/-- WPAD for a width and a mode (R46). -/
def paddedWidth (w : Nat) (ss : Subsamp) : Nat := ss.mcuW * ((w + ss.mcuW - 1) / ss.mcuW)

/-- WPAD of the latched configuration (R46). -/
def Conf.wpad (c : Conf) : Nat := paddedWidth c.w.toNat c.ss

/-- NMCUX of the latched configuration (R46). -/
def Conf.nmcux (c : Conf) : Nat := c.wpad / c.ss.mcuW

/-- CONF.CH as a number of bytes per pixel (R35). -/
def Channels.bytes : Channels → Nat
  | .one => 1
  | .three => 3

/-- The component identifier (R47, D19). -/
def compId (c : Comp) : Nat := compIndex c + 1

/-- QTID (R47). -/
def qtid : Comp → TableId
  | .y => .luma
  | .cb => .chroma
  | .cr => .chroma

/-- HTID (R47). -/
def htid : Comp → TableId
  | .y => .luma
  | .cb => .chroma
  | .cr => .chroma

/-- A table id as the number marker segments carry. -/
def tableNum : TableId → Nat
  | .luma => 0
  | .chroma => 1

/-- A Huffman class as the number marker segments carry: 0 DC, 1 AC. -/
def classNum : HuffClass → Nat
  | .dc => 0
  | .ac => 1

/-! ### The scanline buffer as a source (R48, R49) -/

/-- `SLB[0 .. n-1]`, if the host has written each of them since reset. -/
def State.sourceBytes (s : State) (n : Nat) : Option (List Byte) := s.slb.readRange 0 n

/-- The pixels of a 3-channel scanline: R, G, B at increasing offsets (R48, R87). -/
def rgbPixels : List Byte → List (Byte × Byte × Byte)
  | r :: g :: b :: rest => (r, g, b) :: rgbPixels rest
  | _ => []

/-! ### The row buffer (R50) -/

/-- `RB[c][r]` by column. -/
def State.row (s : State) (c : Comp) (r : Nat) : Memory := ((s.rb.get c)[r]?).getD []

/-- `RB[c][r][x]`; a free value where nothing has been written since reset (U1). -/
def State.sample (s : State) (c : Comp) (r x : Nat) : Byte :=
  ((s.row c r).read x).getD (Config.unwrittenSample s.epoch (compIndex c) r x)

/-- `RB[c][r][x0 ..] <- samples`, one after another. -/
def State.writeRow (s : State) (c : Comp) (r x0 : Nat) (samples : List Byte) : State :=
  { s with rb := s.rb.set c ((s.rb.get c).setIfInBounds r ((s.row c r).writeRange x0 samples)) }

/-- Whether the row buffer has row `r` and columns `0 .. cols-1` (R50). It has 16 rows, MAX_PADDED_WIDTH columns and three
components whatever the mode, also those not in use: DESIGN CHOICE (assumption logs 27 and 28). -/
def State.hasSamples (s : State) (r cols : Nat) : Bool := r < maxMcuH && cols ≤ s.cfg.maxPaddedWidth

/-! ### Tables -/

/-- `HCODE[k][t][s]` and `HLEN[k][t][s]`; there is no symbol, so no code, above 255 (R53). -/
def HuffTable.symbol (h : HuffTable) (sym : Nat) : HuffCode := h[sym]?.getD ⟨0#16, 0⟩

/-- The code of a symbol in table `(k, t)` (R53). -/
def State.huffCode (s : State) (k : HuffClass) (t : TableId) (sym : Nat) : HuffCode :=
  HuffTable.symbol ((s.huff.get k).get t) sym

end Sys2Proof.Machine
end

