-- ==== Sys2Proof/Machine/BitWriter.lean ====
section
/-! DEFINITION. The bit writer (46_bit_writer.md): PUT_BITS, PAD_FINAL, FLUSH and OUT_BYTE, over the shared operations of
Ops.lean. -/

namespace Sys2Proof.Machine

/-- R278: seven 1 bits pad the entropy-coded data to a byte boundary. -/
def uopPadFinal : State → Flow := appendBits 0x7F#16 7

/-- PUT_BITS (R270). -/
def execPutBits (l : BitVec 5) (v : BitVec 16) (s : State) : Host.Outcome State Fault Refusal :=
  (appendBits v l.toNat s).toOutcome

/-- PAD_FINAL (R278). -/
def execPadFinal (s : State) : Host.Outcome State Fault Refusal := (uopPadFinal s).toOutcome

/-- FLUSH (R276). -/
def execFlush (s : State) : Host.Outcome State Fault Refusal := (flushBuffer s).toOutcome

/-- OUT_BYTE (R274). -/
def execOutByte (b : Byte) (s : State) : Host.Outcome State Fault Refusal := (obAppend b s).toOutcome

end Sys2Proof.Machine
end

