-- ==== Sys2Proof/Machine/BlockSampler.lean ====
section
/-! DEFINITION. The block sampler (42_block_sampler.md): LOAD_FULL, LOAD_H2V1, LOAD_H2V2. Each writes the sample block
`S` of centred samples and raises no error (R174). Rows and columns the mode does not use, and chroma in grayscale mode, are
read like any other: DESIGN CHOICE (assumption logs 27 and 28). -/

namespace Sys2Proof.Machine

/-- A block in natural order from its entry at row `i`, column `j` (R12). -/
def blockOf (f : (i j : Nat) → Int) : Block := Vector.ofFn fun k => f (k.val / 8) (k.val % 8)

/-- The alternating rounding bias (R171). -/
def bias (i j : Nat) (odd : Nat) : Int := if (i + j) % 2 = 0 then 0 else odd

/-- A sample as an integer. -/
def State.sampleInt (s : State) (c : Comp) (r x : Nat) : Int := (s.sample c r x).toNat

/-- A sample of a block at full resolution (R170). -/
def fullSample (s : State) (c : Comp) (blockRow blockCol i j : Nat) : Int :=
  s.sampleInt c (8 * blockRow + i) (8 * blockCol + j) - 128

/-- R170. -/
def uopLoadFull (c : Comp) (blockRow blockCol : Nat) (s : State) : Flow :=
  if s.hasSamples (8 * blockRow + 7) (8 * blockCol + 8) then
    .going { s with blkS := blockOf (fullSample s c blockRow blockCol) }
  else .fault .outsideRowBuffer

/-- The average of a pixel pair (R172). -/
def pairAverage (s : State) (c : Comp) (mx i j : Nat) : Int :=
  let x := 16 * mx + 2 * j
  asr (s.sampleInt c i x + s.sampleInt c i (x + 1) + bias i j s.cfg.h2v1OddBias) 1 - 128

/-- R172. -/
def uopLoadH2v1 (c : Comp) (mx : Nat) (s : State) : Flow :=
  if s.hasSamples 7 (16 * mx + 16) then .going { s with blkS := blockOf (pairAverage s c mx) }
  else .fault .outsideRowBuffer

/-- The average of a 2x2 pixel block (R173). -/
def quadAverage (s : State) (c : Comp) (mx i j : Nat) : Int :=
  let x := 16 * mx + 2 * j
  asr (s.sampleInt c (2 * i) x + s.sampleInt c (2 * i) (x + 1) + s.sampleInt c (2 * i + 1) x +
    s.sampleInt c (2 * i + 1) (x + 1) + bias i j h2v2OddBias) 2 - 128

/-- R173. -/
def uopLoadH2v2 (c : Comp) (mx : Nat) (s : State) : Flow :=
  if s.hasSamples 15 (16 * mx + 16) then .going { s with blkS := blockOf (quadAverage s c mx) }
  else .fault .outsideRowBuffer

/-- LOAD_FULL (R170). -/
def execLoadFull (c : Comp) (r : BitVec 4) (x : BitVec 16) (s : State) : Host.Outcome State Fault Refusal :=
  (uopLoadFull c r.toNat x.toNat s).toOutcome

/-- LOAD_H2V1 (R172). -/
def execLoadH2v1 (c : Comp) (x : BitVec 16) (s : State) : Host.Outcome State Fault Refusal :=
  (uopLoadH2v1 c x.toNat s).toOutcome

/-- LOAD_H2V2 (R173). -/
def execLoadH2v2 (c : Comp) (x : BitVec 16) (s : State) : Host.Outcome State Fault Refusal :=
  (uopLoadH2v2 c x.toNat s).toOutcome

end Sys2Proof.Machine
end

