-- ==== Sys2Proof/Machine/ColorConverter.lean ====
section
/-! DEFINITION. The colour converter (41_color_converter.md): CONV_RGB_Y, CONV_RGB_YCC, CONV_GRAY_Y, CONV_GRAY_YCC and
PAD_RIGHT. It raises no error (R156); a source byte never written faults (R49). -/

namespace Sys2Proof.Machine

/-- Y of an RGB pixel (R150). -/
def lumaOf (p : Byte × Byte × Byte) : Byte :=
  let (r, g, b) := p
  BitVec.ofInt 8 (asr ((r.toNat : Int) * 19595 + (g.toNat : Int) * 38470 + (b.toNat : Int) * 7471 + 32768) 16)

/-- Cb of an RGB pixel: the shift applies to the weighted sum, 128 is added after it, saturation comes last (R151, C4). -/
def cbOf (p : Byte × Byte × Byte) : Byte :=
  let (r, g, b) := p
  sat8 (128 + asr ((r.toNat : Int) * (-11059) + (g.toNat : Int) * (-21709) + (b.toNat : Int) * 32768 + 32768) 16)

/-- Cr of an RGB pixel (R151, C4). -/
def crOf (p : Byte × Byte × Byte) : Byte :=
  let (r, g, b) := p
  sat8 (128 + asr ((r.toNat : Int) * 32768 + (g.toNat : Int) * (-27439) + (b.toNat : Int) * (-5329) + 32768) 16)

/-- Converts the scanline in SLB into row `r`: `convert` gives the samples of each component it writes, column 0 first.
The rules' operand is a row of 0..MCU_H-1; the rows up to 15 that the row buffer has are written alike, DESIGN CHOICE
(assumption log 27). -/
def convertRow (bytesPerPixel : Nat) (convert : List Byte → List (Comp × List Byte)) (r : Nat) (s : State) : Flow :=
  if s.hasSamples r s.conf.w.toNat then
    match s.sourceBytes (bytesPerPixel * s.conf.w.toNat) with
    | none => .fault .slbByteNeverWritten
    | some bytes => .going ((convert bytes).foldl (fun s (c, samples) => s.writeRow c r 0 samples) s)
  else .fault .outsideRowBuffer

/-- R150. -/
def uopConvRgbY : (r : Nat) → State → Flow :=
  convertRow 3 fun bytes => [(.y, (rgbPixels bytes).map lumaOf)]

/-- R151. Both chroma components are written whatever the mode, in grayscale too, where R50 gives them no use: DESIGN CHOICE
(assumption log 28). -/
def uopConvRgbYcc : (r : Nat) → State → Flow :=
  convertRow 3 fun bytes =>
    let px := rgbPixels bytes
    [(.y, px.map lumaOf), (.cb, px.map cbOf), (.cr, px.map crOf)]

/-- R152. -/
def uopConvGrayY : (r : Nat) → State → Flow :=
  convertRow 1 fun bytes => [(.y, bytes)]

/-- R153. Both chroma components are written whatever the mode, as in CONV_RGB_YCC: DESIGN CHOICE (assumption log 28). -/
def uopConvGrayYcc : (r : Nat) → State → Flow :=
  convertRow 1 fun bytes =>
    let neutral := bytes.map fun _ => 128#8
    [(.y, bytes), (.cb, neutral), (.cr, neutral)]

/-- R155: columns `W .. WPAD-1` of every component take the converted last pixel. Rows from MCU_H to 15
alike: DESIGN CHOICE (assumption log 27). -/
def uopPadRight (r : Nat) (s : State) : Flow :=
  let w := s.conf.w.toNat
  if s.hasSamples r s.conf.wpad then
    .going (s.conf.ss.comps.foldl
      (fun t c => t.writeRow c r w (List.replicate (s.conf.wpad - w) (s.sample c r (w - 1)))) s)
  else .fault .outsideRowBuffer

/-- The conversion FEED runs, by source channels and component count (R154). -/
def convertScanline (r : Nat) (s : State) : Flow :=
  match s.conf.ch, s.conf.ss with
  | .three, .grayscale => uopConvRgbY r s
  | .one, .grayscale => uopConvGrayY r s
  | .three, _ => uopConvRgbYcc r s
  | .one, _ => uopConvGrayYcc r s

/-- CONV_RGB_Y (R150). -/
def execConvRgbY (r : BitVec 4) (s : State) : Host.Outcome State Fault Refusal := (uopConvRgbY r.toNat s).toOutcome

/-- CONV_RGB_YCC (R151). -/
def execConvRgbYcc (r : BitVec 4) (s : State) : Host.Outcome State Fault Refusal := (uopConvRgbYcc r.toNat s).toOutcome

/-- CONV_GRAY_Y (R152). -/
def execConvGrayY (r : BitVec 4) (s : State) : Host.Outcome State Fault Refusal := (uopConvGrayY r.toNat s).toOutcome

/-- CONV_GRAY_YCC (R153). -/
def execConvGrayYcc (r : BitVec 4) (s : State) : Host.Outcome State Fault Refusal := (uopConvGrayYcc r.toNat s).toOutcome

/-- PAD_RIGHT (R155). -/
def execPadRight (r : BitVec 4) (s : State) : Host.Outcome State Fault Refusal := (uopPadRight r.toNat s).toOutcome

end Sys2Proof.Machine
end

