-- ==== Sys2Proof/Machine/ForwardDct.lean ====
section
/-! DEFINITION. The forward DCT (43_forward_dct.md): FDCT, two 1-D passes, rows then columns (R193, R194, R198, C1). All
arithmetic is on mathematical integers; the only rounding is `descale` (R190). -/

namespace Sys2Proof.Machine

/-- The outputs of the 1-D kernel. -/
structure Dct1d where
  o0 : Int
  o1 : Int
  o2 : Int
  o3 : Int
  o4 : Int
  o5 : Int
  o6 : Int
  o7 : Int
  deriving DecidableEq, Repr

/-- The 1-D kernel of R192, with the twelve constants of R191 written as their values. -/
def dct1d (s0 s1 s2 s3 s4 s5 s6 s7 : Int) : Dct1d :=
  let t0 := s0 + s7
  let t7 := s0 - s7
  let t1 := s1 + s6
  let t6 := s1 - s6
  let t2 := s2 + s5
  let t5 := s2 - s5
  let t3 := s3 + s4
  let t4 := s3 - s4
  let t10 := t0 + t3
  let t13 := t0 - t3
  let t11 := t1 + t2
  let t12 := t1 - t2
  let z1 := (t12 + t13) * 4433
  let u1 := t4 + t7
  let u2 := t5 + t6
  let u3 := t4 + t6
  let u4 := t5 + t7
  let z5 := (u3 + u4) * 9633
  let a4 := t4 * 2446
  let a5 := t5 * 16819
  let a6 := t6 * 25172
  let a7 := t7 * 12299
  let v1 := -(u1 * 7373)
  let v2 := -(u2 * 20995)
  let v3 := -(u3 * 16069) + z5
  let v4 := -(u4 * 3196) + z5
  { o0 := t10 + t11
    o1 := a7 + v1 + v4
    o2 := z1 + t13 * 6270
    o3 := a6 + v2 + v3
    o4 := t10 - t11
    o5 := a5 + v2 + v4
    o6 := z1 - t12 * 15137
    o7 := a4 + v1 + v3 }

/-- The scaling of pass 1 by output index: `o0`, `o4` up by PASS1_BITS, the rest descaled (R193). -/
def scalePass1 (o : Dct1d) : Vector Int 8 :=
  let up := fun x : Int => x * 2 ^ pass1Bits
  let down := fun x : Int => descale x (constBits - pass1Bits)
  #v[up o.o0, down o.o1, down o.o2, down o.o3, up o.o4, down o.o5, down o.o6, down o.o7]

/-- The scaling of pass 2 by output index, with the final division by 8 (R194, D36). -/
def scalePass2 (o : Dct1d) : Vector Int 8 :=
  let plain := fun x : Int => descale x (pass1Bits + 3)
  let frac := fun x : Int => descale x (constBits + pass1Bits + 3)
  #v[plain o.o0, frac o.o1, frac o.o2, frac o.o3, plain o.o4, frac o.o5, frac o.o6, frac o.o7]

/-- The 1-D transform of row `r`. -/
def dctRow (p : Block) (r : Fin 8) : Dct1d :=
  dct1d p[8 * r.val] p[8 * r.val + 1] p[8 * r.val + 2] p[8 * r.val + 3]
    p[8 * r.val + 4] p[8 * r.val + 5] p[8 * r.val + 6] p[8 * r.val + 7]

/-- The 1-D transform of column `c`. -/
def dctCol (p : Block) (c : Fin 8) : Dct1d :=
  dct1d p[c.val] p[8 + c.val] p[16 + c.val] p[24 + c.val] p[32 + c.val] p[40 + c.val] p[48 + c.val] p[56 + c.val]

/-- Pass 1, every row (R193). -/
def pass1 (p : Block) : Block :=
  let rows : Vector (Vector Int 8) 8 := Vector.ofFn fun r => scalePass1 (dctRow p r)
  Vector.ofFn fun k => rows[k.val / 8][k.val % 8]

/-- Pass 2, every column (R194). -/
def pass2 (p : Block) : Block :=
  let cols : Vector (Vector Int 8) 8 := Vector.ofFn fun c => scalePass2 (dctCol p c)
  Vector.ofFn fun k => cols[k.val % 8][k.val / 8]

/-- The 2-D transform of a block (R195). -/
def forwardDct (b : Block) : Block := pass2 (pass1 b)

/-- R195: `P <- S`, pass 1, pass 2. -/
def uopFdct (s : State) : Flow := .going { s with blkP := forwardDct s.blkS }

/-- FDCT (R195). -/
def execFdct (s : State) : Host.Outcome State Fault Refusal := (uopFdct s).toOutcome

end Sys2Proof.Machine
end

