-- ==== Sys2Proof/Machine/Huffman.lean ====
section
/-! DEFINITION. The Huffman entropy coder (45_huffman.md): BUILD_HT, ENC_DC and ENC_AC. -/

namespace Sys2Proof.Machine

/-! ### Building the tables (R241) -/

/-- The canonical codes in assignment order: from length `len` and first code `code` on, `n` codes of each length, the code
doubling from one length to the next (R241). -/
def canonicalCodes : (bits : List Nat) → (len code : Nat) → List HuffCode
  | [], _, _ => []
  | n :: rest, len, code =>
    (List.range n).map (fun j => ⟨BitVec.ofNat 16 (code + j), len⟩) ++ canonicalCodes rest (len + 1) ((code + n) * 2)

/-- The code of symbol `sym` in a specification: "no code", unless `VALS` names it; then the canonical code at its place
(the last, were it named twice) (R241). -/
def assignedCode (spec : HuffSpec) (sym : Nat) : HuffCode :=
  (spec.vals.zip (canonicalCodes spec.bits 1 0)).foldl (fun c p => if p.1.toNat = sym then p.2 else c) ⟨0#16, 0⟩

/-- The code table of a specification, every symbol below 256 (R241). -/
def huffTable (spec : HuffSpec) : HuffTable := Vector.ofFn fun sym => assignedCode spec sym.val

/-- R241. -/
def uopBuildHt (k : HuffClass) (t : TableId) (s : State) : Flow :=
  .going { s with huff := s.huff.set k ((s.huff.get k).set t (huffTable (huffSpec k t))) }

/-! ### Coding a coefficient (R244, R245) -/

/-- The magnitude category: the number of bits of `|v|` (R244). -/
def cat (v : Int) : Nat := if v = 0 then 0 else v.natAbs.log2 + 1

/-- The value bits of `v` in `m` bits: `v` itself, or the low bits of `v - 1` (R245). -/
def vbits (v : Int) (m : Nat) : BitVec 16 := BitVec.ofInt 16 (if 0 ≤ v then v else (v - 1) % 2 ^ m)

/-- Appends the code of a symbol; a symbol without a code has no result (R248, D28). -/
def emitSymbol (k : HuffClass) (t : TableId) (sym : Nat) (s : State) : Flow :=
  let h := s.huffCode k t sym
  if h.len = 0 then .fault .undefinedSymbol else appendBits h.code h.len s

/-- The DC symbol of a difference and its value bits, if any (R246). -/
def codeDiff (t : TableId) (diff : Int) (s : State) : Flow :=
  let m := cat diff
  (emitSymbol .dc t m s).bind fun s => if 0 < m then appendBits (vbits diff m) m s else .going s

/-- R246, whose operand is `t = HTID(c)`. Any other pair of `c` and `t` is coded alike, with the table `t` names: DESIGN CHOICE
(assumption log 29). -/
def uopEncDc (c : Comp) (t : TableId) (s : State) : Flow :=
  codeDiff t (s.blkZ[0] - s.pred.get c) { s with pred := s.pred.set c s.blkZ[0] }

/-! ### Coding the AC coefficients (R247) -/

/-- One ZRL: the symbol 0xF0, and 16 off the run (R247). -/
def codeZrl (t : TableId) (s : State) : Flow :=
  (emitSymbol .ac t 0xF0 s).bind fun s => .going { s with run := s.run - 16 }

/-- One coefficient: a zero lengthens the run; another sends a ZRL for each full 16 zeros, its run/size symbol and its
value bits, and ends the run (R247). -/
def codeAc (t : TableId) (v : Int) (s : State) : Flow :=
  if v = 0 then .going { s with run := s.run + 1 }
  else
    (runAll (List.replicate (s.run / 16) (codeZrl t)) s).bind fun s =>
      let m := cat v
      (emitSymbol .ac t (s.run <<< 4 ||| m) s).bind fun s =>
        (appendBits (vbits v m) m s).bind fun s => .going { s with run := 0 }

/-- The end of a block: EOB if it ends in a run of zeros (R247). -/
def codeEob (t : TableId) (s : State) : Flow :=
  if 0 < s.run then emitSymbol .ac t 0x00 s else .going s

/-- R247, with the table `t` names, whatever component the block in `Z` came from: DESIGN CHOICE (assumption log 29). -/
def uopEncAc (t : TableId) (s : State) : Flow :=
  (runAll ((s.blkZ.toList.drop 1).map (codeAc t)) { s with run := 0 }).bind (codeEob t)

/-- BUILD_HT (R241). -/
def execBuildHt (k : HuffClass) (t : TableId) (s : State) : Host.Outcome State Fault Refusal := (uopBuildHt k t s).toOutcome

/-- ENC_DC (R246). -/
def execEncDc (c : Comp) (t : TableId) (s : State) : Host.Outcome State Fault Refusal := (uopEncDc c t s).toOutcome

/-- ENC_AC (R247). -/
def execEncAc (t : TableId) (s : State) : Host.Outcome State Fault Refusal := (uopEncAc t s).toOutcome

end Sys2Proof.Machine
end

