-- ==== Sys2Proof/Machine/Marker.lean ====
section
/-! DEFINITION. The JFIF marker emitter (47_marker_emitter.md): the bytes of each segment, and the operations that append
them raw to the output buffer. -/

namespace Sys2Proof.Machine

/-- A byte from a number below 256. -/
def byte (n : Nat) : Byte := BitVec.ofNat 8 n

/-- A marker: 0xFF and its code byte (R300). -/
def marker (code : Byte) : List Byte := [0xFF#8, code]

/-- SOI (R301). -/
def soiBytes : List Byte := marker 0xD8#8

/-- APP0 (R302, C7). -/
def app0Bytes : List Byte :=
  marker 0xE0#8 ++ be16 16 ++ [0x4A#8, 0x46#8, 0x49#8, 0x46#8, 0x00#8] ++ [0x01#8, 0x01#8] ++ [0x00#8] ++
    be16 1 ++ be16 1 ++ [0x00#8, 0x00#8]

/-- DQT of table `t`: the entries in zig-zag order (R303). -/
def dqtBytes (t : TableId) (table : Vector Byte 64) : List Byte :=
  marker 0xDB#8 ++ be16 67 ++ [byte (tableNum t)] ++ table.toList

/-- SOF0: height before width, the requested dimensions (R305). -/
def sof0Bytes (c : Conf) : List Byte :=
  marker 0xC0#8 ++ be16 (8 + 3 * c.ss.ncomp) ++ [byte 8] ++ be16 c.h.toNat ++ be16 c.w.toNat ++ [byte c.ss.ncomp] ++
    c.ss.comps.flatMap fun k =>
      [byte (compId k), byte ((c.ss.factors k).1 * 16 + (c.ss.factors k).2), byte (tableNum (qtid k))]

/-- DHT of table `(k, t)`: the specification of R240, not the built codes (R306). -/
def dhtBytes (k : HuffClass) (t : TableId) : List Byte :=
  let spec := huffSpec k t
  marker 0xC4#8 ++ be16 (2 + 1 + 16 + spec.vals.length) ++ [byte (classNum k * 16 + tableNum t)] ++
    spec.bits.map byte ++ spec.vals

/-- SOS: one interleaved scan of all components (R308). -/
def sosBytes (ss : Subsamp) : List Byte :=
  marker 0xDA#8 ++ be16 (6 + 2 * ss.ncomp) ++ [byte ss.ncomp] ++
    (ss.comps.flatMap fun k => [byte (compId k), byte (tableNum (htid k) * 16 + tableNum (htid k))]) ++
    [byte 0, byte 63, byte 0]

/-- EOI (R309). -/
def eoiBytes : List Byte := marker 0xD9#8

def uopEmitSoi : State → Flow := rawBytes soiBytes
def uopEmitApp0 : State → Flow := rawBytes app0Bytes
def uopEmitDqt (t : TableId) (s : State) : Flow := rawBytes (dqtBytes t (s.qt.get t)) s
def uopEmitSof0 (s : State) : Flow := rawBytes (sof0Bytes s.conf) s
def uopEmitDht (k : HuffClass) (t : TableId) : State → Flow := rawBytes (dhtBytes k t)
def uopEmitSos (s : State) : Flow := rawBytes (sosBytes s.conf.ss) s
def uopEmitEoi : State → Flow := rawBytes eoiBytes

/-- The header sequence of R310: the second DQT and the chroma DHTs only with three components (R303, R307). -/
def headerOps (ss : Subsamp) : List (State → Flow) :=
  let color := decide (ss.ncomp = 3)
  [uopEmitSoi, uopEmitApp0, uopEmitDqt .luma] ++ (if color then [uopEmitDqt .chroma] else []) ++
    [uopEmitSof0, uopEmitDht .dc .luma, uopEmitDht .ac .luma] ++
    (if color then [uopEmitDht .dc .chroma, uopEmitDht .ac .chroma] else []) ++ [uopEmitSos]

/-- EMIT_SOI (R301). -/
def execEmitSoi (s : State) : Host.Outcome State Fault Refusal := (uopEmitSoi s).toOutcome

/-- EMIT_APP0 (R302). -/
def execEmitApp0 (s : State) : Host.Outcome State Fault Refusal := (uopEmitApp0 s).toOutcome

/-- EMIT_DQT (R303). -/
def execEmitDqt (t : TableId) (s : State) : Host.Outcome State Fault Refusal := (uopEmitDqt t s).toOutcome

/-- EMIT_SOF0 (R305). -/
def execEmitSof0 (s : State) : Host.Outcome State Fault Refusal := (uopEmitSof0 s).toOutcome

/-- EMIT_DHT (R306). -/
def execEmitDht (k : HuffClass) (t : TableId) (s : State) : Host.Outcome State Fault Refusal := (uopEmitDht k t s).toOutcome

/-- EMIT_SOS (R308). -/
def execEmitSos (s : State) : Host.Outcome State Fault Refusal := (uopEmitSos s).toOutcome

/-- EMIT_EOI (R309). -/
def execEmitEoi (s : State) : Host.Outcome State Fault Refusal := (uopEmitEoi s).toOutcome

end Sys2Proof.Machine
end

