-- ==== Sys2Proof/Machine/Quantizer.lean ====
section
/-! DEFINITION. The quantizer and zig-zag reorder (44_quantizer_zigzag.md): BUILD_QT and QUANT_ZZ. Neither raises. -/

namespace Sys2Proof.Machine

/-- The quality scale for a latched quality in 1..100 (R212); a free value outside that range, for which R212 states none. -/
def qualityScale (q : Nat) : Nat :=
  if 1 ≤ q ∧ q ≤ 100 then
    if q < 50 then 5000 / q else 200 - 2 * q
  else Config.unstatedScale q

/-- The base table of table id `t` (R213, R211). -/
def baseTable (t : TableId) (nocd : Bool) : Vector Nat 64 :=
  match t, nocd with
  | .luma, _ => stdLuma
  | .chroma, true => stdLuma
  | .chroma, false => stdChroma

/-- One table entry from its base value and the scale (R213). -/
def quantEntry (base scale : Nat) : Byte := BitVec.ofInt 8 (clamp ((base * scale + 50) / 100 : Nat) 1 255)

/-- The table BUILD_QT builds, in zig-zag order (R213). -/
def quantTable (q : Nat) (nocd : Bool) (t : TableId) : Vector Byte 64 :=
  Vector.ofFn fun i => quantEntry (baseTable t nocd)[zz[i]] (qualityScale q)

/-- R213. -/
def uopBuildQt (t : TableId) (s : State) : Flow :=
  .going { s with qt := s.qt.set t (quantTable s.conf.q.toNat s.conf.nocd t) }

/-- The quantizing division: `|v| / d` rounded half up, sign restored (R215); a free value for a divisor of 0, for which
R215 states none. -/
def quant (v : Int) (d : Nat) : Int :=
  if d = 0 then Config.quotientByZero v
  else
    let m : Int := ((v.natAbs + d / 2) / d : Nat)
    if v < 0 then -m else m

/-- The coefficient block in zig-zag order (R216). -/
def quantBlock (p : Block) (qt : Vector Byte 64) : Block := Vector.ofFn fun i => quant p[zz[i]] qt[i].toNat

/-- R216, with the table `t` names, whatever component the block in `P` came from: DESIGN CHOICE (assumption log 29). -/
def uopQuantZz (t : TableId) (s : State) : Flow := .going { s with blkZ := quantBlock s.blkP (s.qt.get t) }

/-- BUILD_QT (R213). -/
def execBuildQt (t : TableId) (s : State) : Host.Outcome State Fault Refusal := (uopBuildQt t s).toOutcome

/-- QUANT_ZZ (R216). -/
def execQuantZz (t : TableId) (s : State) : Host.Outcome State Fault Refusal := (uopQuantZz t s).toOutcome

end Sys2Proof.Machine
end

