-- ==== Sys2Proof/Machine/Control.lean ====
section
/-! DEFINITION. The controller (48_encoder_control.md): the host commands INIT, FEED, FINISH, DEINIT and NOP, and the unit
operations PROCESS_MCU_ROW and PAD_BOTTOM. A command runs its unit operations in order and stops at the first error
raised (R404). -/

namespace Sys2Proof.Machine

/-! ### PROCESS_MCU_ROW (R352, R353) -/

/-- A block of an MCU, by the operation that loads it (R353). -/
inductive BlockLoad where
  | full (c : Comp) (blockRow blockCol : Nat)
  | h2v1 (c : Comp) (mx : Nat)
  | h2v2 (c : Comp) (mx : Nat)
  deriving DecidableEq, Repr

def BlockLoad.comp : BlockLoad → Comp
  | .full c _ _ => c
  | .h2v1 c _ => c
  | .h2v2 c _ => c

def BlockLoad.run : BlockLoad → State → Flow
  | .full c blockRow blockCol => uopLoadFull c blockRow blockCol
  | .h2v1 c mx => uopLoadH2v1 c mx
  | .h2v2 c mx => uopLoadH2v2 c mx

/-- The blocks of MCU `mx` in coding order (R353). -/
def blockOrder (ss : Subsamp) (mx : Nat) : List BlockLoad :=
  match ss with
  | .grayscale => [.full .y 0 mx]
  | .s444 => [.full .y 0 mx, .full .cb 0 mx, .full .cr 0 mx]
  | .s422 => [.full .y 0 (2 * mx), .full .y 0 (2 * mx + 1), .h2v1 .cb mx, .h2v1 .cr mx]
  | .s420 =>
    [.full .y 0 (2 * mx), .full .y 0 (2 * mx + 1), .full .y 1 (2 * mx), .full .y 1 (2 * mx + 1), .h2v2 .cb mx, .h2v2 .cr mx]

/-- One block: load, transform, quantize, code DC, code AC, before the next block is loaded (R352, R249). -/
def codeBlock (mx : Nat) (b : BlockLoad × Nat) (s : State) : Flow :=
  let c := b.1.comp
  runAll [b.1.run, uopFdct, uopQuantZz (qtid c), uopEncDc c (htid c), uopEncAc (htid c)]
    { s with mcuIndex := mx, blockIndex := b.2 }

/-- One MCU: its blocks in order (R353). -/
def codeMcu (mx : Nat) (s : State) : Flow :=
  runAll ((blockOrder s.conf.ss mx).zipIdx.map (codeBlock mx)) s

/-- R352: every MCU of the row, left to right. -/
def uopProcessMcuRow (s : State) : Flow := runAll ((List.range s.conf.nmcux).map codeMcu) s

/-! ### PAD_BOTTOM (R359) -/

/-- `RB[c][ROWS-1][x]`, the sample PAD_BOTTOM copies; with no row buffered R359 states none, and it is a free value. -/
def State.lastRowSample (s : State) (c : Comp) (x : Nat) : Byte :=
  match s.rows with
  | 0 => Config.absentRowSample s.epoch (compIndex c) x
  | n + 1 => s.sample c n x

/-- R359: row `r` of every component becomes a copy of the last buffered row, over the padded width.
Rows outside `ROWS .. MCU_H-1` alike: DESIGN CHOICE (assumption log 27). -/
def uopPadBottom (r : Nat) (s : State) : Flow :=
  if s.hasSamples r s.conf.wpad then
    .going (s.conf.ss.comps.foldl
      (fun t c => t.writeRow c r 0 ((List.range s.conf.wpad).map (s.lastRowSample c))) s)
  else .fault .outsideRowBuffer

/-! ### INIT (R340, R341, R345) -/

/-- The teardown INIT and DEINIT share: the image's state is dropped and the output buffer discarded unsent (R340, R364). -/
def State.teardown (s : State) : State := { s with ctl := .uninit, rows := 0, ob := [], acc := [] }

/-- CONF.CH from CFG_MODE.CHANNELS, if legal (R35, R341). -/
def channelsOf (ch : BitVec 2) : Option Channels :=
  match ch.toNat with
  | 1 => some .one
  | 3 => some .three
  | _ => none

/-- The checks of R341 in their order, and the configuration INIT latches when they pass (R44). -/
def validate (s : State) : Except ErrCode Conf :=
  if s.cfgWidth = 0#16 then .error .invalidParameters
  else if s.cfgHeight = 0#16 then .error .invalidParameters
  else
    match channelsOf s.cfgChannels with
    | none => .error .invalidParameters
    | some ch =>
      if s.cfgQuality.toNat < 1 ∨ 100 < s.cfgQuality.toNat then .error .invalidParameters
      else if s.cfg.maxPaddedWidth < paddedWidth s.cfgWidth.toNat s.cfgSubsamp then .error .allocationFailure
      else .ok ⟨s.cfgWidth, s.cfgHeight, ch, s.cfgQuality, s.cfgSubsamp, s.cfgNocd⟩

/-- The six table builds of INIT (R340). -/
def tableOps : List (State → Flow) :=
  [uopBuildQt .luma, uopBuildQt .chroma, uopBuildHt .dc .luma, uopBuildHt .ac .luma, uopBuildHt .dc .chroma,
    uopBuildHt .ac .chroma]

/-- INIT after a configuration that passed: latch, reset the predictors, build, emit the header, flush (R340, R345). -/
def initImage (c : Conf) (s : State) : Flow :=
  (runAll (tableOps ++ headerOps c.ss ++ [flushBuffer]) { s with conf := c, pred := ⟨0, 0, 0⟩ }).bind fun s =>
    .going (State.succeed { s with ctl := .configured })

/-- R340. -/
def cmdInit (s : State) : Flow :=
  match validate s.teardown with
  | .error e => .raised (raiseError e s.teardown)
  | .ok c => initImage c s.teardown

/-! ### FEED (R350) -/

/-- FEED and FINISH outside the states that accept them (R350, R358, R368): the error they raise, if any. -/
def CtlState.rejects : CtlState → Option ErrCode
  | .uninit => some .badState
  | .finalized => some .badState
  | .failed => some .sinkWriteFailure
  | .configured => none
  | .accumulating => none

/-- Codes the MCU row if it is complete, and starts the next (R350). -/
def finishRow (s : State) : Flow :=
  if s.rows = s.conf.ss.mcuH then (uopProcessMcuRow s).bind fun s => .going { s with rows := 0 } else .going s

/-- R350. -/
def cmdFeed (s : State) : Flow :=
  match s.ctl.rejects with
  | some e => .raised (raiseError e s)
  | none =>
    runAll [convertScanline s.rows, uopPadRight s.rows,
      fun t => .going { t with rows := s.rows + 1, ctl := .accumulating }, finishRow, fun t => .going t.succeed] s

/-! ### FINISH (R358, R362) -/

/-- Pads and codes a partial MCU row, if rows are buffered (R358). -/
def finishPartialRow (s : State) : Flow :=
  if s.rows = 0 then .going s
  else
    (runAll ((List.range' s.rows (s.conf.ss.mcuH - s.rows)).map uopPadBottom ++ [uopProcessMcuRow]) s).bind fun s =>
      .going { s with rows := 0 }

/-- R358. -/
def cmdFinish (s : State) : Flow :=
  match s.ctl.rejects with
  | some e => .raised (raiseError e s)
  | none =>
    runAll [finishPartialRow, uopPadFinal, flushBuffer, uopEmitEoi, flushBuffer,
      fun t => .going (State.succeed { t with ctl := .finalized })] s

/-! ### The meanings -/

/-- NOP (R366): changes nothing, not even STATUS. -/
def execNop (s : State) : Host.Outcome State Fault Refusal := .next s

/-- INIT (R340). -/
def execInit (s : State) : Host.Outcome State Fault Refusal := (cmdInit s).toOutcome

/-- FEED (R350). -/
def execFeed (s : State) : Host.Outcome State Fault Refusal := (cmdFeed s).toOutcome

/-- FINISH (R358). -/
def execFinish (s : State) : Host.Outcome State Fault Refusal := (cmdFinish s).toOutcome

/-- DEINIT (R364). -/
def execDeinit (s : State) : Host.Outcome State Fault Refusal := .next s.teardown.succeed

/-- PROCESS_MCU_ROW (R352). -/
def execProcessMcuRow (s : State) : Host.Outcome State Fault Refusal := (uopProcessMcuRow s).toOutcome

/-- PAD_BOTTOM (R359). -/
def execPadBottom (r : BitVec 4) (s : State) : Host.Outcome State Fault Refusal := (uopPadBottom r.toNat s).toOutcome

end Sys2Proof.Machine
end

