-- ==== Sys2Proof/Machine/Dispatch.lean ====
section
/-! DEFINITION. One arm per instruction: the meaning of each row of the opcode table. -/

namespace Sys2Proof.Machine

def exec (i : Instr) (s : State) : Host.Outcome State Fault Refusal :=
  match i with
  | .nop => Sys2Proof.Machine.execNop s
  | .init => Sys2Proof.Machine.execInit s
  | .feed => Sys2Proof.Machine.execFeed s
  | .finish => Sys2Proof.Machine.execFinish s
  | .deinit => Sys2Proof.Machine.execDeinit s
  | .convRgbY r => Sys2Proof.Machine.execConvRgbY r s
  | .convRgbYcc r => Sys2Proof.Machine.execConvRgbYcc r s
  | .convGrayY r => Sys2Proof.Machine.execConvGrayY r s
  | .convGrayYcc r => Sys2Proof.Machine.execConvGrayYcc r s
  | .padRight r => Sys2Proof.Machine.execPadRight r s
  | .padBottom r => Sys2Proof.Machine.execPadBottom r s
  | .loadFull c r x => Sys2Proof.Machine.execLoadFull c r x s
  | .loadH2v1 c x => Sys2Proof.Machine.execLoadH2v1 c x s
  | .loadH2v2 c x => Sys2Proof.Machine.execLoadH2v2 c x s
  | .fdct => Sys2Proof.Machine.execFdct s
  | .quantZz t => Sys2Proof.Machine.execQuantZz t s
  | .encDc c t => Sys2Proof.Machine.execEncDc c t s
  | .encAc t => Sys2Proof.Machine.execEncAc t s
  | .putBits l v => Sys2Proof.Machine.execPutBits l v s
  | .padFinal => Sys2Proof.Machine.execPadFinal s
  | .flush => Sys2Proof.Machine.execFlush s
  | .outByte b => Sys2Proof.Machine.execOutByte b s
  | .buildQt t => Sys2Proof.Machine.execBuildQt t s
  | .buildHt k t => Sys2Proof.Machine.execBuildHt k t s
  | .emitSoi => Sys2Proof.Machine.execEmitSoi s
  | .emitApp0 => Sys2Proof.Machine.execEmitApp0 s
  | .emitDqt t => Sys2Proof.Machine.execEmitDqt t s
  | .emitSof0 => Sys2Proof.Machine.execEmitSof0 s
  | .emitDht k t => Sys2Proof.Machine.execEmitDht k t s
  | .emitSos => Sys2Proof.Machine.execEmitSos s
  | .emitEoi => Sys2Proof.Machine.execEmitEoi s
  | .processMcuRow => Sys2Proof.Machine.execProcessMcuRow s

end Sys2Proof.Machine
end

