-- ==== Sys2Proof/Machine/Bus.lean ====
section
/-! DEFINITION. The host bus (20_memory.md): register and scanline-buffer accesses (R80 to R84), the command write
(R32, R128), the platform's reset (R440), and the controller's issue of a unit-operation word (R127). -/

namespace Sys2Proof.Machine

/-- Bytes of an access (R83). -/
def Width.bytes : Width → Nat
  | .byte => 1
  | .half => 2
  | .word => 4

/-- Where an access goes (R83). -/
inductive Target where
  /-- the host register at this offset -/
  | register (offset : Nat)
  /-- the scanline buffer from this index on -/
  | slb (j : Nat)
  /-- a reserved offset (R37) -/
  | reserved
  deriving DecidableEq, Repr

/-- The access rules of R81, R82 and R83: the target, or why the access is refused. -/
def target (cfg : Config) (n : Width) (addr : BitVec 19) : Except Refusal Target :=
  let a := addr.toNat
  if a % n.bytes ≠ 0 then .error .misalignedAccess
  else if a < 0x010 then
    match n with
    | .word => .ok (.register a)
    | .byte => .error .narrowRegisterAccess
    | .half => .error .narrowRegisterAccess
  else if slbBase ≤ a ∧ a < slbBase + slbSize cfg then
    if a + n.bytes ≤ slbBase + slbSize cfg then .ok (.slb (a - slbBase)) else .error .straddlesSlbEnd
  else .ok .reserved

/-- `CSRRead` (R83): CMD reads 0 (R32). -/
def csrRead (s : State) (offset : Nat) : Word :=
  if offset = 0x004 then s.status
  else if offset = 0x008 then s.cfgDim
  else if offset = 0x00C then s.cfgMode
  else 0#32

/-- `SLB[j]` as a host read sees it; a free value where nothing has been written (R49; assumption log 5). -/
def State.slbByte (s : State) (j : Nat) : Byte := (s.slb.read j).getD (Config.unwrittenSlbByte s.epoch j)

/-- `n` bytes of the scanline buffer, little-endian (R83, R84). -/
def slbRead (s : State) (j : Nat) : (n : Nat) → Nat
  | 0 => 0
  | n + 1 => (s.slbByte j).toNat + 256 * slbRead s (j + 1) n

/-- The value a read answers (R83); a reserved offset reads 0 (R37). -/
def readValue (s : State) (n : Width) : Target → Word
  | .register offset => csrRead s offset
  | .slb j => BitVec.ofNat 32 (slbRead s j n.bytes)
  | .reserved => 0#32

/-- The low `n` bytes of a word, little-endian (R84). -/
def wordBytes (v : Word) (n : Nat) : List Byte := (List.range n).map fun b => v.extractLsb' (8 * b) 8

/-- A word written to CMD (R32): the command it encodes runs to completion as part of the write (R93); any other word
is an illegal command, in every state (R128, R408). -/
def issueCommand (v : Word) (s : State) : Host.Outcome State Fault Refusal :=
  match commandOf v with
  | some i => exec i s
  | none => .next (raiseError .illegalCommand s)

/-- `CSRWrite` (R83): STATUS ignores writes (R33), CFG_MODE keeps its defined fields (R35). -/
def csrWrite (offset : Nat) (v : Word) (s : State) : Host.Outcome State Fault Refusal :=
  if offset = 0x000 then issueCommand v s
  else if offset = 0x008 then .next { s with cfgDim := v }
  else if offset = 0x00C then .next { s with cfgMode := v &&& cfgModeMask }
  else .next s

/-- The write of R83; a reserved offset ignores it (R37). -/
def writeValue (n : Width) (v : Word) (s : State) : Target → Host.Outcome State Fault Refusal
  | .register offset => csrWrite offset v s
  | .slb j => .next { s with slb := s.slb.writeRange j (wordBytes v n.bytes) }
  | .reserved => .next s

/-- One host access: `MemRead` or `MemWrite` (R83). A read's answer joins what the host has read (R92). -/
def hostAccess (a : HostAccess) (s : State) : Host.Outcome State Fault Refusal :=
  match a with
  | .read n addr =>
    match target s.cfg n addr with
    | .error e => .refused e
    | .ok t => .next { s with hostReads := s.hostReads ++ [readValue s n t] }
  | .write n addr v =>
    match target s.cfg n addr with
    | .error e => .refused e
    | .ok t => writeValue n v s t

/-- The platform's reset (R440): the block's state takes its reset values; the parameters, the inputs still to come and
what has been observed are not the block's state and stay. -/
def platformReset (s : State) : State :=
  { State.powerOn s.cfg with
    inputs := s.inputs
    answers := s.answers
    draws := s.draws
    epoch := s.epoch + 1
    sinkLog := s.sinkLog
    hostReads := s.hostReads }

/-- The controller runs the word it issued to itself (R127); a reserved word has no meaning (R129, U10). -/
def runIssued (w : Word) (s : State) : Host.Outcome State Fault Refusal :=
  match decode w with
  | .ok i => exec i s
  | .error e => .fault (.reservedUop e)

/-- The outside world's next input. -/
def runInput (i : Input) (s : State) : Host.Outcome State Fault Refusal :=
  match i with
  | .access a => hostAccess a s
  | .reset => .next (platformReset s)

end Sys2Proof.Machine
end

