-- ==== Sys2Proof/Machine/Step.lean ====
section
/-! DEFINITION. One step of the block. It has no program counter and fetches nothing (R31, R96): what runs next is the uop
word the controller has issued to itself, else the next input of the outside world; with neither, the block waits for the
host (R441). -/

namespace Sys2Proof.Machine

/-- One step. -/
def step (s : State) : Host.Outcome State Fault Refusal :=
  match s.issue with
  | some w => runIssued w { s with issue := none }
  | none =>
    match s.inputs with
    | i :: rest => runInput i { s with inputs := rest }
    | [] => .next s

/-- `s` with the instruction word where the step takes its next instruction: a unit operation at the controller's issue
port, any other word as the host's next write to CMD (R32, R127, R129; assumption log 2). -/
def State.withFetchWord (s : State) (nbits w : Nat) : State :=
  let v : Word := BitVec.ofNat 32 (w % 2 ^ nbits)
  if v.msb then { s with issue := some v }
  else { s with issue := none, inputs := .access (.write .word 0#19 v) :: s.inputs }

end Sys2Proof.Machine
end

