-- ==== Sys2Proof/Safety.lean ====
section
/-! DEFINITION. The terms the claims about the machine use: the output stream and what appending bits to it means, the
bits a block codes to, the header of an image, and the conditions the block keeps (its invariants). Nothing here is used by
the machine itself. -/

namespace Sys2Proof.Machine

/-! ### The output stream (R92, R86, R272) -/

/-- The bytes sent so far and those still in the output buffer, in stream order. -/
def State.stream (s : State) : List Byte := s.sinkLog.flatMap (·.bytes) ++ s.ob

/-- The bits of a byte, bit 7 first (R86). -/
def byteBits (b : Byte) : List Bool := (List.range 8).map fun i => b.getLsbD (7 - i)

/-- Byte stuffing: 0x00 after every 0xFF (R270). -/
def stuff (data : List Byte) : List Byte := data.flatMap fun b => if b = 0xFF#8 then [b, 0x00#8] else [b]

/-- Deleting each 0x00 that immediately follows a 0xFF (R272). -/
def unstuff : List Byte → List Byte
  | [] => []
  | [b] => [b]
  | b :: b' :: rest => if b = 0xFF#8 ∧ b' = 0x00#8 then b :: unstuff rest else b :: unstuff (b' :: rest)

/-- From `s` to `t` exactly `bits` were appended to the entropy-coded data: pending and new bits together are the bits of
some data bytes, which joined the stream stuffed, and of the bits still pending, fewer than 8 (R270, R271). -/
def Appended (s t : State) (bits : List Bool) : Prop :=
  ∃ data : List Byte, s.acc ++ bits = data.flatMap byteBits ++ t.acc ∧ t.acc.length < 8 ∧
    t.stream = s.stream ++ stuff data

/-- Only the bit writer, the sink's answers and the sink log differ. -/
def WriterOnly (s t : State) : Prop :=
  t = { s with acc := t.acc, ob := t.ob, answers := t.answers, draws := t.draws, sinkLog := t.sinkLog }

/-- A transfer was refused: the block is in FAILED, reports it, and the failed transfer is the last of the log (R91, R404). -/
def SinkFailed (t : State) : Prop :=
  t.ctl = .failed ∧ t.rows = 0 ∧ t.result = false ∧ t.err = .sinkWriteFailure ∧
    ∃ bytes, t.sinkLog.getLast? = some ⟨bytes, false⟩

/-- Every answer the state lists is an answer: the sink never stays silent (R456). -/
def State.SinkAnswers (s : State) : Prop := ∀ a ∈ s.answers, a ≠ .silent

/-- The bit writer between operations: at most 7 pending bits and a buffer that is not full (R55, R56). -/
def State.WriterReady (s : State) : Prop := s.acc.length < 8 ∧ s.ob.length < obSize

/-- Bytes joined the stream as they are: the pending bits stay, and the only transfers are of full buffers (R273, R274). -/
def AppendedRaw (s t : State) (bytes : List Byte) : Prop :=
  WriterOnly s t ∧ t.acc = s.acc ∧ t.stream = s.stream ++ bytes ∧ t.ob.length < obSize ∧
    ∃ sent, t.sinkLog = s.sinkLog ++ sent ∧ ∀ x ∈ sent, x.ok = true ∧ x.bytes.length = obSize

/-- The next `n` answers of the sink are listed and accept. -/
def State.SinkAccepts (s : State) (n : Nat) : Prop := n ≤ s.answers.length ∧ ∀ a ∈ s.answers.take n, a = .accepted

/-- Instructions run one after another. -/
def execAll : List Instr → State → Host.Outcome State Fault Refusal
  | [], s => .next s
  | i :: rest, s =>
    match exec i s with
    | .next t => execAll rest t
    | .fault f => .fault f
    | .refused r => .refused r

/-! ### Samples -/

/-- `RB[c][r][x]` as stored: none where nothing has been written since reset. -/
def State.stored (s : State) (c : Comp) (r x : Nat) : Option Byte := (s.row c r).read x

/-- The host has written `SLB[0 .. n-1]` since reset (R49). -/
def State.SourceWritten (s : State) (n : Nat) : Prop := ∀ j, j < n → (s.slb.read j).isSome

/-- `SLB[i]` as a number, where it has been written. -/
def State.source (s : State) (i : Nat) : Nat := ((s.slb.read i).getD 0#8).toNat

/-- The converted sample of component `c` at column `x`, from the scanline in SLB (R150 to R154). -/
def State.converted (s : State) (c : Comp) (x : Nat) : Int :=
  match s.conf.ch with
  | .one => if c = .y then s.source x else 128
  | .three =>
    let r : Int := s.source (3 * x)
    let g : Int := s.source (3 * x + 1)
    let b : Int := s.source (3 * x + 2)
    match c with
    | .y => (r * 19595 + g * 38470 + b * 7471 + 32768) / 65536
    | .cb => max 0 (min 255 (128 + (r * (-11059) + g * (-21709) + b * 32768 + 32768) / 65536))
    | .cr => max 0 (min 255 (128 + (r * 32768 + g * (-27439) + b * (-5329) + 32768) / 65536))

/-- `t` is `s` with the scanline in SLB converted into row `s.rows` of the row buffer and padded to the right: every sample of
that row over the padded width, and no other sample, changed (R150 to R155). -/
def RowBuffered (s t : State) : Prop :=
  ∀ c r x, (t.stored c r x).map (fun b => (b.toNat : Int)) =
    if c ∈ s.conf.ss.comps ∧ r = s.rows ∧ x < s.conf.wpad then some (s.converted c (min x (s.conf.w.toNat - 1)))
    else (s.stored c r x).map fun b => (b.toNat : Int)

/-- The samples a block is made of lie in the box of R205: in [-128, 127], and up to 128 at odd positions. -/
def Block.InBox (b : Block) : Prop := ∀ k : Fin 64, -128 ≤ b[k] ∧ b[k] ≤ 127 + (k.val / 8 + k.val % 8) % 2

/-- The 1-D kernel of R192 multiplied out: the weight of input `j` in output `k`. Outputs 0 and 4 have scale 1, the others
carry 13 fractional bits. -/
def dctMatrix : Vector (Vector Int 8) 8 :=
  #v[#v[1, 1, 1, 1, 1, 1, 1, 1],
    #v[11363, 9633, 6437, 2260, -2260, -6437, -9633, -11363],
    #v[10703, 4433, -4433, -10703, -10703, -4433, 4433, 10703],
    #v[9633, -2259, -11362, -6436, 6436, 11362, 2259, -9633],
    #v[1, -1, -1, 1, 1, -1, -1, 1],
    #v[6437, -11362, 2261, 9633, -9633, -2261, 11362, -6437],
    #v[4433, -10704, 10704, -4433, -4433, 10704, -10704, 4433],
    #v[2260, -6436, 9633, -11363, 11363, -9633, 6436, -2260]]

/-- Output `k` of the kernel applied to eight values. -/
def kernelOut (k : Fin 8) (v : Fin 8 → Int) : Int :=
  dctMatrix[k][0] * v 0 + dctMatrix[k][1] * v 1 + dctMatrix[k][2] * v 2 + dctMatrix[k][3] * v 3 +
    dctMatrix[k][4] * v 4 + dctMatrix[k][5] * v 5 + dctMatrix[k][6] * v 6 + dctMatrix[k][7] * v 7

/-- Whether output `k` of the kernel is a plain sum (R192). -/
def plainOutput (k : Fin 8) : Bool := k = 0 || k = 4

/-- The entry of a block at row `i`, column `j` (R12). -/
def Block.at (b : Block) (i j : Fin 8) : Int := b[8 * i.val + j.val]

/-- Symbol `sym` has a code in table `(k, t)` that one append can carry (R53, R248). -/
def State.HasCode (s : State) (k : HuffClass) (t : TableId) (sym : Nat) : Prop :=
  1 ≤ (s.huffCode k t sym).len ∧ (s.huffCode k t sym).len ≤ 16

/-- Canonical codes as numbers with their lengths, in assignment order (R241). -/
def codeValues : (bits : List Nat) → (len code : Nat) → List (Nat × Nat)
  | [], _, _ => []
  | n :: rest, len, code => (List.range n).map (fun j => (code + j, len)) ++ codeValues rest (len + 1) ((code + n) * 2)

/-- A histogram whose codes fit their lengths and whose symbols are as many as its codes and all different (R242). -/
structure HuffSpec.Fits (spec : HuffSpec) : Prop where
  lengths : spec.bits.length ≤ 16
  count : spec.vals.length = spec.bits.sum
  distinct : spec.vals.Nodup
  fit : ∀ p ∈ codeValues spec.bits 1 0, p.1 < 2 ^ p.2

/-! ### What a block codes to (R246, R247, R352) -/

/-- The bits of a code, first bit first. -/
def codeBits (h : HuffCode) : List Bool := lowBits h.code h.len

/-- The value bits of a coefficient (R245). -/
def valueBits (v : Int) : List Bool := lowBits (vbits v (cat v)) (cat v)

/-- The bits of a DC difference (R246). -/
def dcBits (table : HuffTable) (diff : Int) : List Bool := codeBits (table.symbol (cat diff)) ++ valueBits diff

/-- The bits of the AC coefficients after a run of `run` zeros (R247). -/
def acBits (table : HuffTable) : (run : Nat) → List Int → List Bool
  | run, [] => if 0 < run then codeBits (table.symbol 0x00) else []
  | run, v :: vs =>
    if v = 0 then acBits table (run + 1) vs
    else
      (List.replicate (run / 16) (codeBits (table.symbol 0xF0))).flatten ++
        codeBits (table.symbol (run % 16 * 16 + cat v)) ++ valueBits v ++ acBits table 0 vs

/-- The symbols ENC_AC forms, in order, from the AC coefficients after a run of `run` zeros: a ZRL for each full 16 zeros
before a coefficient, its run/size symbol, and EOB for a trailing run (R247). -/
def acSymbols : (run : Nat) → List Int → List Nat
  | run, [] => if 0 < run then [0x00] else []
  | run, v :: vs =>
    if v = 0 then acSymbols (run + 1) vs
    else List.replicate (run / 16) 0xF0 ++ ((run % 16) <<< 4 ||| cat v) :: acSymbols 0 vs

/-- The code tables INIT builds. -/
def builtHuff : PerClass (PerTable HuffTable) :=
  ⟨⟨huffTable (huffSpec .dc .luma), huffTable (huffSpec .dc .chroma)⟩,
    ⟨huffTable (huffSpec .ac .luma), huffTable (huffSpec .ac .chroma)⟩⟩

/-- The sample block an operation loads (R170, R172, R173). -/
def State.sampleBlock (s : State) : BlockLoad → Block
  | .full c blockRow blockCol => blockOf (fullSample s c blockRow blockCol)
  | .h2v1 c mx => blockOf (pairAverage s c mx)
  | .h2v2 c mx => blockOf (quadAverage s c mx)

/-- The coefficient block of a loaded block (R352). -/
def State.coefBlock (s : State) (b : BlockLoad) : Block :=
  quantBlock (forwardDct (s.sampleBlock b)) (s.qt.get (qtid b.comp))

/-- The blocks of the buffered MCU row in coding order (R352, R353). -/
def Conf.rowLoads (c : Conf) : List BlockLoad := (List.range c.nmcux).flatMap (blockOrder c.ss)

/-- The predictors after coding blocks from predictors `pred` (R246). -/
def predAfter (s : State) (pred : PerComp Int) (bs : List BlockLoad) : PerComp Int :=
  bs.foldl (fun p b => p.set b.comp (s.coefBlock b)[0]) pred

/-- The bits of blocks coded in order from predictors `pred` (R249, R352). -/
def blocksBits (s : State) : (pred : PerComp Int) → List BlockLoad → List Bool
  | _, [] => []
  | pred, b :: bs =>
    let z := s.coefBlock b
    dcBits ((s.huff.get .dc).get (htid b.comp)) (z[0] - pred.get b.comp) ++
      acBits ((s.huff.get .ac).get (htid b.comp)) 0 (z.toList.drop 1) ++
      blocksBits s (pred.set b.comp z[0]) bs

/-! ### The header (R310) -/

/-- The header of an image, in the order of R310. -/
def headerBytes (c : Conf) : List Byte :=
  let q := fun t => dqtBytes t (quantTable c.q.toNat c.nocd t)
  if c.ss.ncomp = 3 then
    soiBytes ++ app0Bytes ++ q .luma ++ q .chroma ++ sof0Bytes c ++ dhtBytes .dc .luma ++ dhtBytes .ac .luma ++
      dhtBytes .dc .chroma ++ dhtBytes .ac .chroma ++ sosBytes c.ss
  else
    soiBytes ++ app0Bytes ++ q .luma ++ sof0Bytes c ++ dhtBytes .dc .luma ++ dhtBytes .ac .luma ++ sosBytes c.ss

/-! ### Invariants -/

/-- The DC range of a coefficient block and of a predictor (R54, R218). -/
def dcInRange (v : Int) : Prop := -1024 ≤ v ∧ v ≤ 1020

/-- An MCU row can be coded: the row buffer holds the padded width, the 2:1 bias is one the spec admits, the tables are built
and the predictors in range (R52, R54, R218, R243, R341). -/
structure State.CodingReady (s : State) : Prop where
  width : s.conf.wpad ≤ s.cfg.maxPaddedWidth
  bias : s.cfg.h2v1OddBias ≤ 2
  quant : ∀ t, ∀ i : Fin 64, 1 ≤ (s.qt.get t)[i].toNat
  huff : s.huff = builtHuff
  pred : ∀ c, dcInRange (s.pred.get c)
  writer : s.WriterReady

/-- What every step keeps, a single unit operation included: memories in canonical form inside their bounds (R48, R50), an
output buffer that is not full (R56), at most 7 pending bits unless a transfer failed in the middle of an append (R55, R404),
the reserved bits of CFG_MODE 0 (R35). -/
structure State.Canonical (s : State) : Prop where
  slb_wf : s.slb.wf
  slb_bound : ∀ p ∈ s.slb, p.1 < slbSize s.cfg
  rb_wf : ∀ c r, (s.row c r).wf
  rb_bound : ∀ c r, ∀ p ∈ s.row c r, p.1 < s.cfg.maxPaddedWidth
  ob : s.ob.length < obSize
  acc : s.ctl ≠ .failed → s.acc.length < 8
  cfgMode : s.cfgMode &&& ~~~cfgModeMask = 0#32

/-- What every step keeps when only the host and the platform drive the block (no unit operation is issued from outside a
command): R51, R54, R275, R341, R404. -/
structure State.HostDriven (s : State) : Prop where
  noIssue : s.issue = none
  rows_open : s.ctl = .configured ∨ s.ctl = .accumulating → s.rows < s.conf.ss.mcuH
  rows_closed : s.ctl = .uninit ∨ s.ctl = .finalized ∨ s.ctl = .failed → s.rows = 0
  configured_rows : s.ctl = .configured → s.rows = 0
  finalized_ob : s.ctl = .finalized → s.ob = []
  image : s.ctl = .configured ∨ s.ctl = .accumulating ∨ s.ctl = .finalized →
    1 ≤ s.conf.w.toNat ∧ 1 ≤ s.conf.h.toNat ∧ 1 ≤ s.conf.q.toNat ∧ s.conf.q.toNat ≤ 100 ∧
      s.huff = builtHuff ∧ (∀ t, s.qt.get t = quantTable s.conf.q.toNat s.conf.nocd t)
  width : s.ctl = .configured ∨ s.ctl = .accumulating ∨ s.ctl = .finalized → s.conf.wpad ≤ s.cfg.maxPaddedWidth
  bias : s.cfg.h2v1OddBias ≤ 2
  pred : ∀ c, dcInRange (s.pred.get c)

/-! ### What an image depends on -/

/-- Two states alike in all that later rows and the rest of an image depend on: of the row buffer, only the buffered rows of
the components and columns in use (R356, R372). -/
structure SameImage (s s' : State) : Prop where
  cfg : s'.cfg = s.cfg
  ctl : s'.ctl = s.ctl
  rows : s'.rows = s.rows
  conf : s'.conf = s.conf
  slb : s'.slb = s.slb
  qt : s'.qt = s.qt
  huff : s'.huff = s.huff
  pred : s'.pred = s.pred
  acc : s'.acc = s.acc
  ob : s'.ob = s.ob
  answers : s'.answers = s.answers
  draws : s'.draws = s.draws
  epoch : s'.epoch = s.epoch
  samples : ∀ c ∈ s.conf.ss.comps, ∀ r x, r < s.rows → x < s.conf.wpad → s'.stored c r x = s.stored c r x

/-- The same transfers were made from `s` to `t` as from `s'` to `t'`. -/
def SameTransfers (s t s' t' : State) : Prop :=
  ∃ sent, t.sinkLog = s.sinkLog ++ sent ∧ t'.sinkLog = s'.sinkLog ++ sent

/-- An outcome with its next state, if it has one, changed. -/
def mapNext (f : State → State) : Host.Outcome State Fault Refusal → Host.Outcome State Fault Refusal
  | .next s => .next (f s)
  | .fault r => .fault r
  | .refused r => .refused r

end Sys2Proof.Machine
end

