-- ==== Sys2Proof/Certificates/Slice0/Obligations.lean ====
section
/-! DEFINITION. The statements for the provers: what the numbered rules of spec/ say the block does, rule by rule and for the
machine as a whole. -/

open Sys2Proof Sys2Proof.Machine

/-! ### Encoding (30_encoding.md) -/

/-- Words written out from the formats of R121 to R124 and the opcodes of R126 and R127 decode to the instructions they stand
for. -/
def Obligations.DecodesWordsWrittenOutFromTheFormats : Prop :=
  decode 0x01000000#32 = .ok .init ∧
  decode 0x81050000#32 = .ok (.convRgbYcc 5#4) ∧
  decode 0x86810003#32 = .ok (.loadFull .cr 1#4 3#16) ∧
  decode 0x8B500000#32 = .ok (.encDc .cb .chroma) ∧
  decode 0x8D06000F#32 = .ok (.putBits 6#5 15#16) ∧
  decode 0x900000FF#32 = .ok (.outByte 0xFF#8) ∧
  decode 0x97300000#32 = .ok (.emitDht .ac .chroma) ∧
  decode 0x9A000000#32 = .ok .processMcuRow

/-- Decoding the word of a well-formed instruction gives the instruction back, every operand at every value (R120 to R125). -/
def Obligations.DecodeOfEncodeIsTheInstruction : Prop :=
  ∀ i : Instr, i.wellFormed = true → decode (encode i) = .ok i

/-- A word has at most one meaning: what it decodes to is well-formed and encodes back to it, so no bit of a word is ignored
(R120 to R125). -/
def Obligations.EncodeOfDecodeIsTheWord : Prop :=
  ∀ (w : Word) (i : Instr), decode w = .ok i → i.wellFormed = true ∧ encode i = w

/-- Reserved words decode to nothing: an opcode outside 0x00..0x04 and 0x80..0x9A, an operand bit of a host command, `C = 3`
where a component is named, `L` above 16 (R121, R127 to R129). -/
def Obligations.ReservedWordsDecodeToNothing : Prop :=
  ∀ w : Word,
    (let op := (w.extractLsb' 24 8).toNat
     (5 ≤ op ∧ op < 0x80) ∨ 0x9A < op → decode w = .error .reservedOpcode) ∧
    ((w.extractLsb' 24 8).toNat ≤ 4 → w.extractLsb' 0 24 ≠ 0#24 → decode w = .error .nonZeroUnusedField) ∧
    ((w.extractLsb' 24 8).toNat ∈ [0x86, 0x87, 0x88, 0x8B] → w.extractLsb' 22 2 = 3#2 →
      decode w = .error .reservedComponent) ∧
    ((w.extractLsb' 24 8).toNat = 0x8D → 16 < (w.extractLsb' 16 5).toNat → decode w = .error .reservedLength)

/-! ### The step -/

/-- A step runs the decoded instruction. The five host commands run when the host writes their word to CMD (R32, R126), which
the step takes from the inputs. That a uop word stands at a port `issue` of the controller and runs before the inputs, and
where `withFetchWord` places a word, is the model's choice (assumption log 2, DESIGN CHOICE). -/
def Obligations.StepRunsTheDecodedInstruction : Prop :=
  (∀ (s : State) (w : Word) (i : Instr), s.issue = some w → decode w = .ok i →
    step s = exec i { s with issue := none }) ∧
  (∀ (s : State) (w : Word) (i : Instr) (rest : List Input), s.issue = none →
    s.inputs = .access (.write .word 0x000#19 w) :: rest → decode w = .ok i → i.isHostCommand = true →
    step s = exec i { s with inputs := rest }) ∧
  (∀ (s : State) (i : Instr), i.wellFormed = true →
    step (s.withFetchWord 32 (encode i).toNat) = exec i { s with issue := none })

/-- With no uop to run, a step serves the outside world's next input: a host access, in the host's issue order (R94), or the
platform's reset; with no input the block stays as it is, waiting for the host. That the inputs are a list which a step serves
one by one is the model's choice (log 1, DESIGN CHOICE), as are the reset as such an input (log 16, DESIGN CHOICE) and waiting
as a step that changes nothing (log 24, DESIGN CHOICE). -/
def Obligations.StepServesTheNextInputElseWaits : Prop :=
  ∀ s : State, s.issue = none →
    (∀ a rest, s.inputs = .access a :: rest → step s = hostAccess a { s with inputs := rest }) ∧
    (∀ rest, s.inputs = .reset :: rest → step s = .next (platformReset { s with inputs := rest })) ∧
    (s.inputs = [] → step s = .next s)

/-! ### Reset and the host window (10_state.md, 20_memory.md, 70_reset_and_hazards.md) -/

/-- After reset, at power-on and at a platform reset from any state, every piece of state R60 gives a value holds it; where
R60 says unspecified, no scanline-buffer byte and no sample has been written. That an unwritten byte or sample is one without
a value is the model's form of it (logs 5, 6, 16 and 17, DESIGN CHOICE). -/
def Obligations.ResetLeavesTheStatedValues : Prop :=
  ∀ t : State, (t = State.reset ∨ ∃ s, t = platformReset s) →
    t.status = 0x00000000#32 ∧ t.ctl = .uninit ∧ t.result = false ∧ t.err = .none ∧ t.rows = 0 ∧
    t.cfgDim = 0x00000000#32 ∧ t.cfgMode = 0x00003355#32 ∧ (∀ c, t.pred.get c = 0) ∧ t.acc = [] ∧ t.ob = [] ∧
    (∀ j, t.slb.read j = none) ∧ (∀ c r x, t.stored c r x = none)

/-- What an aligned word read of each host register answers: CMD reads 0 (R32), STATUS shows STATE, RESULT, ERR and ROWS in
the fields of R33 with the codes of R59 and R400, CFG_DIM and CFG_MODE read as held. The read adds its answer to what the host
has read and changes nothing else. That list of answers is the model's record (log 19, DESIGN CHOICE). -/
def Obligations.RegisterReadsAnswerTheirFields : Prop :=
  ∀ s : State, s.rows < 32 →
    hostAccess (.read .word 0x000#19) s = .next { s with hostReads := s.hostReads ++ [0#32] } ∧
    (∃ v : Word, hostAccess (.read .word 0x004#19) s = .next { s with hostReads := s.hostReads ++ [v] } ∧
      v.toNat =
        (match s.ctl with
          | .uninit => 0 | .configured => 1 | .accumulating => 2 | .finalized => 3 | .failed => 4) +
        8 * (if s.result then 1 else 0) +
        16 * (match s.err with
          | .none => 0 | .invalidParameters => 1 | .allocationFailure => 2 | .sinkWriteFailure => 3
          | .illegalCommand => 4 | .badState => 5) +
        256 * s.rows) ∧
    hostAccess (.read .word 0x008#19) s = .next { s with hostReads := s.hostReads ++ [s.cfgDim] } ∧
    hostAccess (.read .word 0x00C#19) s = .next { s with hostReads := s.hostReads ++ [s.cfgMode] }

/-- What an aligned word write of STATUS, CFG_DIM and CFG_MODE does: STATUS ignores it (R33), CFG_DIM holds the value, WIDTH in
its low half and HEIGHT in its high half (R34), CFG_MODE takes its defined fields and holds 0 in the others (R35). -/
def Obligations.RegisterWritesTakeTheDefinedFields : Prop :=
  ∀ (s : State) (v : Word),
    hostAccess (.write .word 0x004#19 v) s = .next s ∧
    hostAccess (.write .word 0x008#19 v) s = .next { s with cfgDim := v } ∧
    (State.cfgWidth { s with cfgDim := v }).toNat = v.toNat % 65536 ∧
    (State.cfgHeight { s with cfgDim := v }).toNat = v.toNat / 65536 ∧
    ∃ m : Word, hostAccess (.write .word 0x00C#19 v) s = .next { s with cfgMode := m } ∧
      (∀ i, m.getLsbD i =
        (decide (i ≤ 6 ∨ (8 ≤ i ∧ i ≤ 9) ∨ (12 ≤ i ∧ i ≤ 13) ∨ i = 16) && v.getLsbD i)) ∧
      (State.cfgQuality { s with cfgMode := m }).toNat = v.toNat % 128 ∧
      (State.cfgChannels { s with cfgMode := m }).toNat = v.toNat / 256 % 4 ∧
      State.cfgSubsamp { s with cfgMode := m } =
        (match v.toNat / 4096 % 4 with
          | 0 => .grayscale | 1 => .s444 | 2 => .s422 | _ => .s420) ∧
      State.cfgNocd { s with cfgMode := m } = decide (v.toNat / 65536 % 2 = 1)

/-- A naturally aligned access of 1, 2 or 4 bytes inside the scanline-buffer window: a write sets exactly the bytes `SLB[j ..
j+n-1]`, the byte at the lowest offset from bits [7:0], and nothing else; a read answers the bytes at those offsets in the
same order and changes nothing else. So a byte reads back whatever the widths that wrote it (R82, R84). A byte never written
reads as a free value (log 5, DESIGN CHOICE), and the answers are recorded (log 19, DESIGN CHOICE). -/
def Obligations.ScanlineBufferAccessesAreLittleEndian : Prop :=
  ∀ (s : State) (n : Width) (addr : BitVec 19) (v : Word),
    addr.toNat % n.bytes = 0 → 0x40000 ≤ addr.toNat →
    addr.toNat + n.bytes ≤ 0x40000 + 3 * s.cfg.maxPaddedWidth →
    (∃ t, hostAccess (.write n addr v) s = .next t ∧ t = { s with slb := t.slb } ∧
      ∀ j, t.slb.read j =
        if addr.toNat - 0x40000 ≤ j ∧ j < addr.toNat - 0x40000 + n.bytes
        then some (v.extractLsb' (8 * (j - (addr.toNat - 0x40000))) 8)
        else s.slb.read j) ∧
    ∃ u : Word, hostAccess (.read n addr) s = .next { s with hostReads := s.hostReads ++ [u] } ∧
      ∀ b i, i < 8 → u.getLsbD (8 * b + i) =
        (decide (b < n.bytes) && (s.slbByte (addr.toNat - 0x40000 + b)).getLsbD i)

/-- Accesses the bus rules do not define are refused: a misaligned access at any offset (R81 to R83), a byte or halfword
access at a host register (R81), and an access that straddles the end of the scanline buffer (R82). For the straddling access
the model follows R82's words against the pseudocode of R83 (log 20, DEDUCED). A reserved offset reads 0 at every aligned
width and ignores writes (R37, R82). -/
def Obligations.UndefinedAccessesAreRefusedAndReservedOnesIgnored : Prop :=
  ∀ (s : State) (n : Width) (addr : BitVec 19) (v : Word),
    (addr.toNat % n.bytes ≠ 0 →
      ∃ why why', hostAccess (.read n addr) s = .refused why ∧ hostAccess (.write n addr v) s = .refused why') ∧
    (addr.toNat < 0x010 → (n ≠ .word ∨ addr.toNat % 4 ≠ 0) →
      ∃ why why', hostAccess (.read n addr) s = .refused why ∧ hostAccess (.write n addr v) s = .refused why') ∧
    (0x40000 ≤ addr.toNat → addr.toNat < 0x40000 + 3 * s.cfg.maxPaddedWidth →
      (addr.toNat % n.bytes ≠ 0 ∨ 0x40000 + 3 * s.cfg.maxPaddedWidth < addr.toNat + n.bytes) →
      ∃ why why', hostAccess (.read n addr) s = .refused why ∧ hostAccess (.write n addr v) s = .refused why') ∧
    (addr.toNat % n.bytes = 0 →
      (0x010 ≤ addr.toNat ∧ addr.toNat < 0x40000 ∨ 0x40000 + 3 * s.cfg.maxPaddedWidth ≤ addr.toNat) →
      hostAccess (.read n addr) s = .next { s with hostReads := s.hostReads ++ [0#32] } ∧
      hostAccess (.write n addr v) s = .next s)

/-- No access but a write to CMD has a side effect that repetition shows: a read leaves every piece of block state as it is, and
doing the same write twice is doing it once (R93). -/
def Obligations.AccessesButCommandsAreIdempotent : Prop :=
  ∀ (s t : State) (n : Width) (addr : BitVec 19) (v : Word), Memory.wf s.slb →
    (hostAccess (.read n addr) s = .next t → t = { s with hostReads := t.hostReads }) ∧
    (addr.toNat ≠ 0 → hostAccess (.write n addr v) s = .next t → hostAccess (.write n addr v) t = .next t)

/-- A CMD write of any word other than the five of R126 sets RESULT 0 and ERR ILLEGAL_COMMAND and changes nothing else, in
every state (R128). -/
def Obligations.IllegalCommandOnlyReportsItself : Prop :=
  ∀ (s : State) (w : Word),
    w ∉ [0x00000000#32, 0x01000000#32, 0x02000000#32, 0x03000000#32, 0x04000000#32] →
    hostAccess (.write .word 0x000#19 w) s = .next { s with result := false, err := .illegalCommand }

/-! ### Invariants and rules of the whole machine -/

/-- The state after reset meets both invariants. -/
def Obligations.ResetMeetsTheInvariants : Prop := State.reset.Canonical ∧ State.reset.HostDriven

/-- Every step keeps the canonical form of the memories, the bounds of the scanline and row buffers, an output buffer that is
not full, at most 7 pending bits outside FAILED, and the reserved bits of CFG_MODE at 0 (R35, R48, R50, R55, R56). -/
def Obligations.StepKeepsTheCanonicalForm : Prop :=
  ∀ s t : State, s.Canonical → step s = .next t → t.Canonical

/-- Driven by the host alone, every step keeps the controller's invariants: the row count below the MCU height, no row outside
an image, an empty output buffer in FINALIZED, a latched configuration that passed INIT's checks with the tables it builds,
and predictors in [-1024, 1020] (R51, R54, R275, R341, R404). Driven by the host alone means that no uop word stands at the
model's issue port (log 2, DESIGN CHOICE). -/
def Obligations.StepKeepsTheHostDrivenInvariant : Prop :=
  ∀ s t : State, s.HostDriven → s.Canonical → step s = .next t → t.HostDriven

/-- Driven by the host alone, a step stops only where the spec stops it: at a scanline-buffer byte never written (R49) or at a
sink that never answers (R456). Every symbol it codes has a code and every sample it loads is in the row buffer, so the faults
of R248 and of a reserved uop word cannot arise (R129, R174, R218). The stuck run of R456 is the fault sinkNeverAnswers (log
21, DEDUCED). -/
def Obligations.HostDrivenStepsFaultOnlyOnUnwrittenSourceOrSilentSink : Prop :=
  ∀ (s : State) (f : Fault), s.HostDriven → s.Canonical → step s = .fault f →
    f = .slbByteNeverWritten ∨ f = .sinkNeverAnswers

/-- What no instruction writes, and what only some write: the host registers, the scanline buffer, the parameters and the
inputs are never written; CONF only by INIT (R44); the tables only by INIT and the operation that builds them (R52, R53); the row
buffer only by the operations that write it (R50); and no unit operation writes STATUS or ROWS unless a transfer fails (R33). -/
def Obligations.InstructionsWriteOnlyTheirState : Prop :=
  ∀ (i : Instr) (s t : State), exec i s = .next t →
    (t.cfg = s.cfg ∧ t.cfgDim = s.cfgDim ∧ t.cfgMode = s.cfgMode ∧ t.slb = s.slb ∧ t.issue = s.issue ∧
      t.inputs = s.inputs ∧ t.epoch = s.epoch ∧ t.hostReads = s.hostReads) ∧
    (i ≠ .init → t.conf = s.conf) ∧
    (i ≠ .init → (∀ k, i ≠ .buildQt k) → t.qt = s.qt) ∧
    (i ≠ .init → (∀ k u, i ≠ .buildHt k u) → t.huff = s.huff) ∧
    (i ∉ [.feed, .finish] → (∀ r, i ≠ .convRgbY r ∧ i ≠ .convRgbYcc r ∧ i ≠ .convGrayY r ∧ i ≠ .convGrayYcc r ∧
      i ≠ .padRight r ∧ i ≠ .padBottom r) → t.rb = s.rb) ∧
    (i ∉ [.init, .feed, .finish, .processMcuRow] → (∀ c u, i ≠ .encDc c u) → t.pred = s.pred) ∧
    (i.isHostCommand = false →
      (t.ctl = s.ctl ∧ t.rows = s.rows ∧ t.result = s.result ∧ t.err = s.err) ∨ SinkFailed t)

/-- A change to CFG_DIM or CFG_MODE has no effect on any instruction but INIT: run with other register values, every other
instruction ends the same way, in the same state but for those registers (R36). -/
def Obligations.ConfigurationRegistersMatterOnlyToInit : Prop :=
  ∀ (i : Instr) (s : State) (dim mode : Word), i ≠ .init →
    exec i { s with cfgDim := dim, cfgMode := mode } =
      mapNext (fun t => { t with cfgDim := dim, cfgMode := mode }) (exec i s)

/-- Every transfer an instruction makes has 1 to 2048 bytes; transfers before the last are accepted ones; a refused last one
leaves the block in FAILED, with no row and SINK_WRITE_FAILURE in STATUS (R90, R91, R404). -/
def Obligations.TransfersAreBoundedAndStopAtARefusal : Prop :=
  ∀ (i : Instr) (s t : State), s.ob.length < 2048 → exec i s = .next t →
    ∃ sent : List Transfer, t.sinkLog = s.sinkLog ++ sent ∧
      (∀ x ∈ sent, 1 ≤ x.bytes.length ∧ x.bytes.length ≤ 2048) ∧
      (∀ x ∈ sent.dropLast, x.ok = true) ∧
      (∀ x, sent.getLast? = some x → x.ok = false →
        t.ctl = .failed ∧ t.rows = 0 ∧ t.result = false ∧ t.err = .sinkWriteFailure)

/-- Every transfer a FEED makes is a full buffer of 2048 bytes: FEED issues no explicit flush (R277). -/
def Obligations.FeedTransfersOnlyFullBuffers : Prop :=
  ∀ s t : State, s.ob.length < 2048 → exec .feed s = .next t →
    ∃ sent : List Transfer, t.sinkLog = s.sinkLog ++ sent ∧ ∀ x ∈ sent, x.bytes.length = 2048

/-- Rows left over from earlier MCU rows, padding of other images and transient blocks never reach the output: from states alike
in the buffered rows of the components and columns in use, FEED and FINISH make the same transfers, report the same result
and end in states alike again (R356, R372). -/
def Obligations.ImageDependsOnlyOnItsOwnRows : Prop :=
  ∀ (i : Instr) (s s' t : State), i ∈ [.feed, .finish] → SameImage s s' → exec i s = .next t →
    ∃ t', exec i s' = .next t' ∧ SameImage t t' ∧ SameTransfers s t s' t' ∧ t'.result = t.result ∧ t'.err = t.err

/-- INIT forgets the last image: from any two states with the same configuration registers, capacity, scanline buffer and sink
answers, an INIT whose configuration passes makes the same transfers and ends in states alike in all that the rest of the
image depends on (R372). -/
def Obligations.InitForgetsTheLastImage : Prop :=
  ∀ s s' t : State, s'.cfg = s.cfg → s'.cfgDim = s.cfgDim → s'.cfgMode = s.cfgMode → s'.slb = s.slb →
    s'.answers = s.answers → s'.draws = s.draws → s'.epoch = s.epoch →
    exec .init s = .next t → t.ctl ≠ .uninit →
    ∃ t', exec .init s' = .next t' ∧ SameImage t t' ∧ SameTransfers s t s' t' ∧ t'.result = t.result ∧ t'.err = t.err

/-! ### Host commands (48_encoder_control.md, 60_exceptions.md) -/

/-- NOP, the command word 0, changes nothing, not even STATUS, and makes no transfer, in every state (R366). -/
def Obligations.NopChangesNothing : Prop :=
  ∀ s : State, exec .nop s = .next s ∧ hostAccess (.write .word 0x000#19 0x00000000#32) s = .next s

/-- DEINIT, the command word 0x04000000, in every state: UNINIT, no row, the output buffer and the pending bits dropped without a
transfer, RESULT 1 and ERR NONE, everything else kept (R364). -/
def Obligations.DeinitReleasesTheImage : Prop :=
  ∀ s : State,
    (let t : State := { s with ctl := .uninit, rows := 0, ob := [], acc := [], result := true, err := .none }
     exec .deinit s = .next t ∧ hostAccess (.write .word 0x000#19 0x04000000#32) s = .next t)

/-- INIT reports the first failing check, in the order width, height, channels, quality, capacity, having torn the old image down
and changed nothing else (R341, R404, R408). -/
def Obligations.InitReportsTheFirstFailingCheck : Prop :=
  ∀ (s : State) (e : ErrCode),
    (let w := s.cfgWidth.toNat
     let h := s.cfgHeight.toNat
     let ch := s.cfgChannels.toNat
     let q := s.cfgQuality.toNat
     let mcuW := s.cfgSubsamp.mcuW
     let parametersFail := w = 0 ∨ h = 0 ∨ (ch ≠ 1 ∧ ch ≠ 3) ∨ q = 0 ∨ 100 < q
     (parametersFail ∧ e = .invalidParameters) ∨
       (¬ parametersFail ∧ s.cfg.maxPaddedWidth < mcuW * ((w + mcuW - 1) / mcuW) ∧ e = .allocationFailure)) →
    exec .init s =
      .next { s with ctl := .uninit, rows := 0, ob := [], acc := [], result := false, err := e }

/-- INIT with a configuration that passes the checks of R341, in every state: it latches the configuration (R44), resets the
predictors, builds all six tables, and sends the header as one transfer of 328 or 623 bytes. If the sink accepts it, the block
is CONFIGURED and reports success; if not, it is FAILED and reports SINK_WRITE_FAILURE. Nothing else changes (R310, R340, R345).
-/
def Obligations.InitBuildsTheTablesAndSendsTheHeader : Prop :=
  ∀ (s : State) (ch : Channels),
    1 ≤ s.cfgWidth.toNat → 1 ≤ s.cfgHeight.toNat → s.cfgChannels.toNat = ch.bytes →
    1 ≤ s.cfgQuality.toNat → s.cfgQuality.toNat ≤ 100 →
    paddedWidth s.cfgWidth.toNat s.cfgSubsamp ≤ s.cfg.maxPaddedWidth →
    (let c : Conf := ⟨s.cfgWidth, s.cfgHeight, ch, s.cfgQuality, s.cfgSubsamp, s.cfgNocd⟩
     let t (ok : Bool) : State :=
       { s.consumeAnswer with
         conf := c
         pred := ⟨0, 0, 0⟩
         qt := ⟨quantTable s.cfgQuality.toNat s.cfgNocd .luma, quantTable s.cfgQuality.toNat s.cfgNocd .chroma⟩
         huff := builtHuff
         rows := 0
         ob := []
         acc := []
         sinkLog := s.sinkLog ++ [⟨headerBytes c, ok⟩] }
     (headerBytes c).length = (if s.cfgSubsamp = .grayscale then 328 else 623) ∧
     (s.nextAnswer = .accepted →
       exec .init s = .next { t true with ctl := .configured, result := true, err := .none }) ∧
     (s.nextAnswer = .rejected →
       exec .init s = .next { t false with ctl := .failed, result := false, err := .sinkWriteFailure }))

/-- FEED and FINISH in a state that does not accept them report BAD_STATE, in UNINIT and FINALIZED, and change nothing else
(R350, R358, R368). -/
def Obligations.FeedAndFinishReportBadState : Prop :=
  ∀ (s : State) (i : Instr), i = .feed ∨ i = .finish → s.ctl = .uninit ∨ s.ctl = .finalized →
    exec i s = .next { s with result := false, err := .badState }

/-- In FAILED: FEED and FINISH do nothing but report SINK_WRITE_FAILURE, NOP and an illegal command leave FAILED as it is,
DEINIT leaves it to UNINIT, no host command but INIT makes a transfer, and INIT does exactly what it does from UNINIT (R406).
ROWS is 0 in FAILED: `State.HostDriven` says so and every host-driven step keeps it. A unit operation, which the controller
issues to itself and never in FAILED, is no host command (log 30). -/
def Obligations.FailedStateIsPermanentUntilInitOrDeinit : Prop :=
  ∀ s : State, s.ctl = .failed → s.rows = 0 →
    exec .feed s = .next { s with result := false, err := .sinkWriteFailure } ∧
    exec .finish s = .next { s with result := false, err := .sinkWriteFailure } ∧
    exec .nop s = .next s ∧
    (∀ w, commandOf w = none → ∃ t, hostAccess (.write .word 0x000#19 w) s = .next t ∧ t.ctl = .failed ∧
      t.sinkLog = s.sinkLog) ∧
    (∃ t, exec .deinit s = .next t ∧ t.ctl = .uninit ∧ t.sinkLog = s.sinkLog) ∧
    exec .init s = exec .init { s with ctl := .uninit }

/-- FEED of a row that does not complete the MCU row, in CONFIGURED and ACCUMULATING: the scanline is converted as R154 selects
and padded into row ROWS, ROWS grows by 1, the block is ACCUMULATING and reports success; no transfer is made, no other sample
and no other state changes (R154, R350). -/
def Obligations.FeedBuffersTheRow : Prop :=
  ∀ s : State, s.ctl = .configured ∨ s.ctl = .accumulating → s.rows + 1 < s.conf.ss.mcuH →
    s.conf.wpad ≤ s.cfg.maxPaddedWidth → s.SourceWritten (s.conf.ch.bytes * s.conf.w.toNat) →
    ∃ t, exec .feed s = .next t ∧
      t = { s with rb := t.rb, rows := s.rows + 1, ctl := .accumulating, result := true, err := .none } ∧
      RowBuffered s t

/-- FEED of the row that completes the MCU row: it buffers the row as R350 says and codes the MCU row from it, so the bits of
its blocks in coding order join the entropy-coded data and the predictors become those of its last blocks; ROWS is 0 again,
the block ACCUMULATING, and only the bit writer, the sink port and the transient block state differ besides (R350, R352,
R353). For states whose sink accepts as many transfers as there are blocks; what a refusal does is
TransfersAreBoundedAndStopAtARefusal. -/
def Obligations.FeedCodesACompleteMcuRow : Prop :=
  ∀ s : State, s.ctl = .configured ∨ s.ctl = .accumulating → s.rows + 1 = s.conf.ss.mcuH → s.CodingReady →
    s.SourceWritten (s.conf.ch.bytes * s.conf.w.toNat) → s.SinkAccepts s.conf.rowLoads.length →
    ∃ b t, b = { s with rb := b.rb } ∧ RowBuffered s b ∧ exec .feed s = .next t ∧
      Appended s t (blocksBits b s.pred s.conf.rowLoads) ∧
      t = { s with
        rb := b.rb, pred := predAfter b s.pred s.conf.rowLoads, rows := 0, ctl := .accumulating, result := true, err := .none
        acc := t.acc, ob := t.ob, answers := t.answers, sinkLog := t.sinkLog
        blkS := t.blkS, blkP := t.blkP, blkZ := t.blkZ, run := t.run, mcuIndex := t.mcuIndex, blockIndex := t.blockIndex }

/-- FINISH with no row buffered codes no block: it pads the pending bits with 1 bits to a byte boundary, sends what is buffered,
then the two bytes `FF D9` as a transfer of their own, and is FINALIZED with an empty buffer and success reported (R358, R362). -/
def Obligations.FinishWithoutRowsPadsAndEndsTheImage : Prop :=
  ∀ s : State, s.ctl = .configured ∨ s.ctl = .accumulating → s.rows = 0 → s.WriterReady → s.SinkAccepts 3 →
    ∃ t data, exec .finish s = .next t ∧
      s.acc ++ List.replicate ((8 - s.acc.length) % 8) true = data.flatMap byteBits ∧
      t.stream = s.stream ++ stuff data ++ [0xFF#8, 0xD9#8] ∧
      t.sinkLog.getLast? = some ⟨[0xFF#8, 0xD9#8], true⟩ ∧ t.ob = [] ∧
      t = { s with
        ctl := .finalized, result := true, err := .none, acc := t.acc, ob := [], answers := t.answers, sinkLog := t.sinkLog }

/-- FINISH of a partial MCU row: rows ROWS to MCU_H-1 become copies of the last buffered row in every component, the MCU row
is coded, its bits padded with 1 bits to a byte boundary and sent, then `FF D9` as a transfer of its own; the block is
FINALIZED with no row, an empty buffer and success reported (R358, R359, R362). For states whose sink accepts 3 transfers more
than there are blocks; what a refusal does is TransfersAreBoundedAndStopAtARefusal. -/
def Obligations.FinishCodesThePartialMcuRow : Prop :=
  ∀ s : State, s.ctl = .configured ∨ s.ctl = .accumulating → 1 ≤ s.rows → s.rows < s.conf.ss.mcuH → s.CodingReady →
    s.SinkAccepts (s.conf.rowLoads.length + 3) →
    ∃ b t data, b = { s with rb := b.rb } ∧
      (∀ c r x, b.stored c r x =
        if c ∈ s.conf.ss.comps ∧ s.rows ≤ r ∧ r < s.conf.ss.mcuH ∧ x < s.conf.wpad then some (s.sample c (s.rows - 1) x)
        else s.stored c r x) ∧
      exec .finish s = .next t ∧
      (let bits := s.acc ++ blocksBits b s.pred s.conf.rowLoads
       bits ++ List.replicate ((8 - bits.length % 8) % 8) true = data.flatMap byteBits) ∧
      t.stream = s.stream ++ stuff data ++ [0xFF#8, 0xD9#8] ∧
      t.sinkLog.getLast? = some ⟨[0xFF#8, 0xD9#8], true⟩ ∧
      t = { s with
        rb := b.rb, pred := predAfter b s.pred s.conf.rowLoads, rows := 0, ctl := .finalized, result := true, err := .none
        acc := t.acc, ob := [], answers := t.answers, sinkLog := t.sinkLog
        blkS := t.blkS, blkP := t.blkP, blkZ := t.blkZ, run := t.run, mcuIndex := t.mcuIndex, blockIndex := t.blockIndex }

/-- PROCESS_MCU_ROW codes every MCU of the buffered row from left to right, its blocks in the order of R353, each loaded,
transformed, quantized and coded, DC then AC, before the next: exactly their bits join the entropy-coded data, and besides the
bit writer and the sink port only the predictors and the transient block state change (R249, R352, R353). For states whose
sink accepts as many transfers as there are blocks; what a refusal does is TransfersAreBoundedAndStopAtARefusal. That it runs
alike in every controller state, FAILED among them, is the model's choice (log 30, DESIGN CHOICE). -/
def Obligations.ProcessMcuRowCodesEveryBlockInOrder : Prop :=
  ∀ s : State, s.CodingReady → s.SinkAccepts s.conf.rowLoads.length →
    ∃ t, exec .processMcuRow s = .next t ∧
      Appended s t (blocksBits s s.pred s.conf.rowLoads) ∧
      t = { s with
        pred := predAfter s s.pred s.conf.rowLoads, acc := t.acc, ob := t.ob, answers := t.answers, sinkLog := t.sinkLog
        blkS := t.blkS, blkP := t.blkP, blkZ := t.blkZ, run := t.run, mcuIndex := t.mcuIndex, blockIndex := t.blockIndex }

/-- PAD_BOTTOM makes row `r` of every component in use a copy of the last buffered row over the padded width, and changes no
other sample and no other state (R359). With no row buffered R359 states no sample to copy: it still completes and writes only
that row (log 8, DESIGN CHOICE). That rows outside ROWS to MCU_H-1 are written alike is the model's choice (log 27, DESIGN
CHOICE). -/
def Obligations.PadBottomCopiesTheLastBufferedRow : Prop :=
  ∀ (s : State) (r : BitVec 4), s.conf.wpad ≤ s.cfg.maxPaddedWidth →
    ∃ t, exec (.padBottom r) s = .next t ∧ t = { s with rb := t.rb } ∧
      (∀ c x, c ∈ s.conf.ss.comps → x < s.conf.wpad → 1 ≤ s.rows →
        t.stored c r.toNat x = some (s.sample c (s.rows - 1) x)) ∧
      (∀ c r' x, ¬ (c ∈ s.conf.ss.comps ∧ r' = r.toNat ∧ x < s.conf.wpad) → t.stored c r' x = s.stored c r' x)

/-! ### Colour converter (41_color_converter.md) -/

/-- CONV_RGB_Y writes the luma of each of the W pixels into row `r`, with no clamp and no other sample or state changed
(R150). That rows from MCU_H to 15 are written alike is the model's choice (log 27, DESIGN CHOICE). -/
def Obligations.ConvertRgbToLuma : Prop :=
  ∀ (s : State) (r : BitVec 4), s.conf.w.toNat ≤ s.cfg.maxPaddedWidth → s.SourceWritten (3 * s.conf.w.toNat) →
    ∃ t, exec (.convRgbY r) s = .next t ∧ t = { s with rb := t.rb } ∧
      (∀ x, x < s.conf.w.toNat → (t.stored .y r.toNat x).map BitVec.toNat =
        some ((s.source (3 * x) * 19595 + s.source (3 * x + 1) * 38470 + s.source (3 * x + 2) * 7471 + 32768) / 65536)) ∧
      (∀ c r' x, ¬ (c = .y ∧ r' = r.toNat ∧ x < s.conf.w.toNat) → t.stored c r' x = s.stored c r' x)

/-- CONV_RGB_YCC writes Y, Cb and Cr of each of the W pixels into row `r`: the shift applies to the weighted sum only, 128 is
added after it, and the result saturates to 0..255; no other sample or state changes (R151). That rows from MCU_H to 15 are
written alike is the model's choice (log 27, DESIGN CHOICE), and so is that both chroma components are written in grayscale
mode too (log 28, DESIGN CHOICE). -/
def Obligations.ConvertRgbToYcc : Prop :=
  ∀ (s : State) (r : BitVec 4), s.conf.w.toNat ≤ s.cfg.maxPaddedWidth → s.SourceWritten (3 * s.conf.w.toNat) →
    ∃ t, exec (.convRgbYcc r) s = .next t ∧ t = { s with rb := t.rb } ∧
      (∀ x, x < s.conf.w.toNat →
        (let red : Int := s.source (3 * x)
         let green : Int := s.source (3 * x + 1)
         let blue : Int := s.source (3 * x + 2)
         (t.stored .y r.toNat x).map (fun b => (b.toNat : Int)) =
           some ((red * 19595 + green * 38470 + blue * 7471 + 32768) / 65536) ∧
         (t.stored .cb r.toNat x).map (fun b => (b.toNat : Int)) =
           some (max 0 (min 255 (128 + (red * (-11059) + green * (-21709) + blue * 32768 + 32768) / 65536))) ∧
         (t.stored .cr r.toNat x).map (fun b => (b.toNat : Int)) =
           some (max 0 (min 255 (128 + (red * 32768 + green * (-27439) + blue * (-5329) + 32768) / 65536))))) ∧
      (∀ c r' x, ¬ (r' = r.toNat ∧ x < s.conf.w.toNat) → t.stored c r' x = s.stored c r' x)

/-- CONV_GRAY_Y copies the W source bytes to luma, and CONV_GRAY_YCC writes 128 to both chroma components besides; no other
sample or state changes (R152, R153). That rows from MCU_H to 15 are written alike is the model's choice (log 27, DESIGN
CHOICE), and so is that CONV_GRAY_YCC writes both chroma components in grayscale mode too (log 28, DESIGN CHOICE). -/
def Obligations.ConvertGrayCopiesLuma : Prop :=
  ∀ (s : State) (r : BitVec 4), s.conf.w.toNat ≤ s.cfg.maxPaddedWidth → s.SourceWritten s.conf.w.toNat →
    (∃ t, exec (.convGrayY r) s = .next t ∧ t = { s with rb := t.rb } ∧
      (∀ x, x < s.conf.w.toNat → t.stored .y r.toNat x = s.slb.read x) ∧
      (∀ c r' x, ¬ (c = .y ∧ r' = r.toNat ∧ x < s.conf.w.toNat) → t.stored c r' x = s.stored c r' x)) ∧
    ∃ t, exec (.convGrayYcc r) s = .next t ∧ t = { s with rb := t.rb } ∧
      (∀ x, x < s.conf.w.toNat → t.stored .y r.toNat x = s.slb.read x ∧
        t.stored .cb r.toNat x = some 128#8 ∧ t.stored .cr r.toNat x = some 128#8) ∧
      (∀ c r' x, ¬ (r' = r.toNat ∧ x < s.conf.w.toNat) → t.stored c r' x = s.stored c r' x)

/-- The scanline buffer has no content after a platform reset, no command changes it, and a FEED that needs a byte of the
scanline never written since faults (R49). -/
def Obligations.UnwrittenSourceBytesFault : Prop :=
  (∀ s j, (platformReset s).slb.read j = none) ∧
  (∀ i s t, i ∈ [.init, .feed, .finish, .deinit] → exec i s = .next t → t.slb = s.slb) ∧
  (∀ s : State, s.ctl = .configured ∨ s.ctl = .accumulating → s.rows < 16 →
    s.conf.w.toNat ≤ s.cfg.maxPaddedWidth → ¬ s.SourceWritten (s.conf.ch.bytes * s.conf.w.toNat) →
    exec .feed s = .fault .slbByteNeverWritten)

/-- PAD_RIGHT gives columns W to WPAD-1 of row `r` the converted sample of column W-1, in every component in use, and changes
no other sample and no other state (R155). That rows from MCU_H to 15 are written alike is the model's choice (log 27, DESIGN
CHOICE). -/
def Obligations.PadRightCopiesTheLastPixel : Prop :=
  ∀ (s : State) (r : BitVec 4), s.conf.wpad ≤ s.cfg.maxPaddedWidth →
    ∃ t, exec (.padRight r) s = .next t ∧ t = { s with rb := t.rb } ∧
      ∀ c r' x, t.stored c r' x =
        if c ∈ s.conf.ss.comps ∧ r' = r.toNat ∧ s.conf.w.toNat ≤ x ∧ x < s.conf.wpad
        then some (s.sample c r.toNat (s.conf.w.toNat - 1))
        else s.stored c r' x

/-! ### Block sampler (42_block_sampler.md) -/

/-- LOAD_FULL copies an 8x8 block of a component, centred on 128, into `S` and changes nothing else (R170). That a block
outside the rows and columns in use, or of a chroma component in grayscale mode, is loaded alike is the model's choice (logs
27 and 28, DESIGN CHOICE); a sample never written is a free value (log 6, DESIGN CHOICE). -/
def Obligations.LoadFullCentresABlock : Prop :=
  ∀ (s : State) (c : Comp) (r : BitVec 4) (x : BitVec 16), r.toNat ≤ 1 → 8 * x.toNat + 8 ≤ s.cfg.maxPaddedWidth →
    ∃ b : Block, exec (.loadFull c r x) s = .next { s with blkS := b } ∧
      ∀ i j : Fin 8, b.at i j = (s.sample c (8 * r.toNat + i) (8 * x.toNat + j)).toNat - 128

/-- LOAD_H2V1 averages pixel pairs and LOAD_H2V2 2x2 pixel blocks into `S`, adding a bias at the positions whose row and
column have an odd sum: the parameter H2V1_ODD_BIAS for the 2-pixel filter, 2 for the 4-pixel filter; nothing else changes
(R171, R172, R173). R172 and R173 give the loads of Cb and Cr: running the same formula on Y is the model's reading (log 12,
DEDUCED). That rows and columns not in use, and chroma in grayscale mode, are read alike is its choice (logs 27 and 28, DESIGN
CHOICE), as are free samples where nothing has been written (log 6, DESIGN CHOICE). -/
def Obligations.ChromaLoadsAverageWithTheAlternatingBias : Prop :=
  ∀ (s : State) (c : Comp) (x : BitVec 16), 16 * x.toNat + 16 ≤ s.cfg.maxPaddedWidth →
    (∃ b : Block, exec (.loadH2v1 c x) s = .next { s with blkS := b } ∧
      ∀ i j : Fin 8, b.at i j =
        (((s.sample c i (16 * x.toNat + 2 * j)).toNat + (s.sample c i (16 * x.toNat + 2 * j + 1)).toNat +
          (if (i.val + j.val) % 2 = 0 then 0 else s.cfg.h2v1OddBias) : Nat) : Int) / 2 - 128) ∧
    ∃ b : Block, exec (.loadH2v2 c x) s = .next { s with blkS := b } ∧
      ∀ i j : Fin 8, b.at i j =
        (((s.sample c (2 * i) (16 * x.toNat + 2 * j)).toNat + (s.sample c (2 * i) (16 * x.toNat + 2 * j + 1)).toNat +
          (s.sample c (2 * i + 1) (16 * x.toNat + 2 * j)).toNat +
          (s.sample c (2 * i + 1) (16 * x.toNat + 2 * j + 1)).toNat +
          (if (i.val + j.val) % 2 = 0 then 0 else 2) : Nat) : Int) / 4 - 128

/-- Operands without a meaning stop by name: a row or column the row buffer does not have (R50), and a bit count above 16, which
U2 reserves (R123). The names of the faults are the model's (assumption log 13). -/
def Obligations.OperandsOutsideTheirRangeFault : Prop :=
  ∀ (s : State) (c : Comp) (r : BitVec 4) (x : BitVec 16) (l : BitVec 5) (v : BitVec 16),
    (2 ≤ r.toNat ∨ s.cfg.maxPaddedWidth < 8 * x.toNat + 8 → exec (.loadFull c r x) s = .fault .outsideRowBuffer) ∧
    (s.cfg.maxPaddedWidth < 16 * x.toNat + 16 →
      exec (.loadH2v1 c x) s = .fault .outsideRowBuffer ∧ exec (.loadH2v2 c x) s = .fault .outsideRowBuffer) ∧
    (16 < l.toNat → exec (.putBits l v) s = .fault .reservedLength)

/-! ### Forward DCT (43_forward_dct.md) -/

/-- FDCT transforms `S` into `P`, rows then columns, and changes nothing else: pass 1 applies the kernel to each row, scaling
its plain outputs up by 4 and dividing the others by 2^11 rounded half up; pass 2 applies it to each column of the result,
dividing by 2^5 and 2^18. The kernel is the integer matrix R192 multiplies out to. A constant block `v` gives `8v` and 63
zeros (R192 to R195). It holds for samples of any size, since the values of the pseudocode are integers (log 25, DEDUCED). -/
def Obligations.ForwardDctIsTwoMatrixPasses : Prop :=
  ∀ s : State, ∃ p : Block, exec .fdct s = .next { s with blkP := p } ∧
    (let mid (i k : Fin 8) : Int :=
       let o := kernelOut k fun j => s.blkS.at i j
       if plainOutput k then 4 * o else (o + 2 ^ 10) / 2 ^ 11
     ∀ k c : Fin 8, p.at k c =
       (let o := kernelOut k fun i => mid i c
        if plainOutput k then (o + 2 ^ 4) / 2 ^ 5 else (o + 2 ^ 17) / 2 ^ 18)) ∧
    (∀ v, (∀ k : Fin 64, s.blkS[k] = v) → p[0] = 8 * v ∧ ∀ k : Fin 64, k ≠ 0 → p[k] = 0)

/-- The DC coefficient is exact: the sum of the 64 samples divided by 8, rounded half up; so it lies in [-1024, 1016] for
samples in [-128, 127] and in [-1024, 1020] where odd positions can reach 128 (R197). -/
def Obligations.DcCoefficientIsTheRoundedSum : Prop :=
  ∀ s : State, ∃ p : Block, exec .fdct s = .next { s with blkP := p } ∧
    p[0] = (s.blkS.toList.sum + 4) / 8 ∧
    ((∀ k : Fin 64, -128 ≤ s.blkS[k] ∧ s.blkS[k] ≤ 127) → -1024 ≤ p[0] ∧ p[0] ≤ 1016) ∧
    (s.blkS.InBox → -1024 ≤ p[0] ∧ p[0] ≤ 1020)

/-- From samples in the box of the block sampler, the transform's coefficients and, for any divisors from 1 up, the quantized
ones stay in the ranges of R205 and R218: DC in [-1024, 1020] and AC within 1022, so every AC magnitude category is at most 10
and every DC difference's at most 11 (R205, R218). -/
def Obligations.CoefficientsStayInRange : Prop :=
  ∀ (s a b : State) (t : TableId), s.blkS.InBox → (∀ i : Fin 64, 1 ≤ (s.qt.get t)[i].toNat) →
    exec .fdct s = .next a → exec (.quantZz t) a = .next b →
    (∀ k : Fin 64, k ≠ 0 → a.blkP[k].natAbs ≤ 1022) ∧
    -1024 ≤ b.blkZ[0] ∧ b.blkZ[0] ≤ 1020 ∧
    (∀ k : Fin 64, k ≠ 0 → b.blkZ[k].natAbs ≤ 1022 ∧ cat b.blkZ[k] ≤ 10) ∧
    (∀ p : Int, -1024 ≤ p → p ≤ 1020 → cat (b.blkZ[0] - p) ≤ 11)

/-! ### Quantizer and zig-zag reorder (44_quantizer_zigzag.md) -/

/-- BUILD_QT writes table `t` and nothing else: for a latched quality in 1..100, each entry, in zig-zag order, is the base
table's entry at its natural index times the scale, divided by 100 rounded half up, kept in 1..255; the chroma table is built
from the luma base under NOCD. Every entry is in 1..255 (R212, R213, R214). That it completes for any other latched quality
too, with the entries kept in 1..255, is the model's choice (log 9, DESIGN CHOICE). -/
def Obligations.BuildQtScalesTheBaseTable : Prop :=
  ∀ (s : State) (t : TableId), ∃ table : Vector Byte 64,
    exec (.buildQt t) s = .next { s with qt := s.qt.set t table } ∧
    (let q := s.conf.q.toNat
     let scale := if q < 50 then 5000 / q else 200 - 2 * q
     let base := if t = .luma ∨ s.conf.nocd = true then stdLuma else stdChroma
     1 ≤ q → q ≤ 100 →
       ∀ i : Fin 64, table[i].toNat = max 1 (min 255 ((base[zz[i]] * scale + 50) / 100))) ∧
    ∀ i : Fin 64, 1 ≤ table[i].toNat

/-- QUANT_ZZ writes `Z` and nothing else: entry `i` is the coefficient at natural index `ZZ[i]` divided by entry `i` of table
`t`, its magnitude rounded half up and its sign kept, so it is a nearest multiple: `2 m d` is at most `2|v| + d` and less than
`2d` below it (R215, R216). That it completes where an entry of the table is 0, with a free value there, is the model's choice
(log 10, DESIGN CHOICE). That any table id is taken, whatever component the block is of, is the model's choice (log 29, DESIGN
CHOICE). -/
def Obligations.QuantZzDividesAndReorders : Prop :=
  ∀ (s : State) (t : TableId), ∃ z : Block,
    exec (.quantZz t) s = .next { s with blkZ := z } ∧
    ∀ i : Fin 64, 1 ≤ (s.qt.get t)[i].toNat →
      (let v := s.blkP[zz[i]]
       let d := (s.qt.get t)[i].toNat
       let m := (v.natAbs + d / 2) / d
       z[i] = (if v < 0 then -(m : Int) else m) ∧
       2 * m * d ≤ 2 * v.natAbs + d ∧ 2 * v.natAbs + d < 2 * m * d + 2 * d)

/-! ### Huffman entropy coder (45_huffman.md) -/

/-- BUILD_HT writes table `(k, t)` and nothing else: the symbols of VALS take, in order, the lengths BITS counts off and the
canonical codes: the first is 0 and each next one is its predecessor plus 1, shifted left by the growth in length; every
other symbol has no code (R241). -/
def Obligations.BuildHtAssignsCanonicalCodes : Prop :=
  ∀ (s : State) (k : HuffClass) (t : TableId), ∃ table : HuffTable,
    exec (.buildHt k t) s = .next { s with huff := s.huff.set k ((s.huff.get k).set t table) } ∧
    (let vals := (huffSpec k t).vals
     let lengths := (List.range 16).flatMap fun l => List.replicate ((huffSpec k t).bits.getD l 0) (l + 1)
     let code (j : Nat) : HuffCode := table.symbol (vals.getD j 0).toNat
     (code 0).code = 0 ∧
     (∀ j, j < vals.length → (code j).len = lengths.getD j 0) ∧
     (∀ j, j + 1 < vals.length →
       (code (j + 1)).code.toNat = ((code j).code.toNat + 1) * 2 ^ ((code (j + 1)).len - (code j).len)) ∧
     ∀ sym : Byte, sym ∉ vals → (table.symbol sym.toNat).len = 0)

/-- Canonical codes are prefix codes: for every specification whose codes fit their lengths, the code table R241 builds gives
each symbol of the list a code, no code is a prefix of another symbol's, and as many symbols have a code of each length as the
histogram says. The four standard specifications are such, and none of their codes is made only of 1 bits (R242). -/
def Obligations.CanonicalCodesAreAPrefixCode : Prop :=
  (∀ k t, (huffSpec k t).Fits ∧
    ∀ a ∈ (huffSpec k t).vals, false ∈ codeBits ((huffTable (huffSpec k t)).symbol a.toNat)) ∧
  ∀ spec : HuffSpec, spec.Fits →
    (∀ a ∈ spec.vals, 1 ≤ ((huffTable spec).symbol a.toNat).len ∧ ((huffTable spec).symbol a.toNat).len ≤ 16) ∧
    (∀ a ∈ spec.vals, ∀ b ∈ spec.vals, a ≠ b →
      ¬ codeBits ((huffTable spec).symbol a.toNat) <+: codeBits ((huffTable spec).symbol b.toNat)) ∧
    ∀ l, l < spec.bits.length →
      (spec.vals.filter fun a => ((huffTable spec).symbol a.toNat).len = l + 1).length = spec.bits.getD l 0

/-- The magnitude category is the least `n` with `|v| < 2^n`, and the value bits, that many, are `v` itself or the low bits of
`v - 1`; their first bit is 1 exactly when `v` is positive, and the standard decode rule recovers every `v` in
[-2047, 2047] (R244, R245). -/
def Obligations.ValueBitsDecodeBack : Prop :=
  ∀ v : Int,
    (v.natAbs < 2 ^ cat v ∧ ∀ n, v.natAbs < 2 ^ n → cat v ≤ n) ∧
    (v ≠ 0 → v.natAbs ≤ 2047 →
      (let m := cat v
       let x := bitsToNat (valueBits v)
       (valueBits v).length = m ∧
       (x : Int) = (if 0 ≤ v then v else (v - 1) % 2 ^ m) ∧
       ((valueBits v).head? = some true ↔ 0 < v) ∧
       v = (if 2 ^ (m - 1) ≤ x then (x : Int) else x - 2 ^ m + 1)))

/-- ENC_DC appends the code of the category of `Z[0] - PRED[c]` and then, if the difference is not 0, its value bits, stores
`Z[0]` as the predictor of component `c`, and changes nothing else but the bit writer and the sink port, when the category has
a code and the sink accepts its next transfer (R246). That `t` need not be HTID(c) is the model's choice (log 29, DESIGN
CHOICE). That it runs alike in every controller state, FAILED among them, is the model's choice (log 30, DESIGN CHOICE). -/
def Obligations.EncDcAppendsTheDifference : Prop :=
  ∀ (s : State) (c : Comp) (t : TableId), s.WriterReady → s.nextAnswer = .accepted →
    (let diff := s.blkZ[0] - s.pred.get c
     cat diff ≤ 16 → s.HasCode .dc t (cat diff) →
     ∃ u, exec (.encDc c t) s = .next u ∧
       Appended s u (codeBits (s.huffCode .dc t (cat diff)) ++ (if diff = 0 then [] else valueBits diff)) ∧
       u = { s with
         pred := s.pred.set c s.blkZ[0], acc := u.acc, ob := u.ob, answers := u.answers, draws := u.draws
         sinkLog := u.sinkLog })

/-- ENC_AC appends the run/size codes and value bits of the 63 AC coefficients, ZRL for each full 16 zeros before a
coefficient and EOB for a trailing run, and changes nothing else but the run counter, the bit writer and the sink port, when
the symbols it can form have codes and the sink accepts its next transfer (R247). That any table id is taken, whatever
component the block is of, is the model's choice (log 29, DESIGN CHOICE). That it runs alike in every controller state, FAILED
among them, is the model's choice (log 30, DESIGN CHOICE). -/
def Obligations.EncAcAppendsRunsAndSizes : Prop :=
  ∀ (s : State) (t : TableId), s.WriterReady → s.nextAnswer = .accepted →
    (∀ k : Fin 64, k ≠ 0 → s.blkZ[k].natAbs ≤ 1023) →
    (∀ sym, sym < 256 → sym = 0x00 ∨ sym = 0xF0 ∨ (1 ≤ sym % 16 ∧ sym % 16 ≤ 10) → s.HasCode .ac t sym) →
    ∃ u, exec (.encAc t) s = .next u ∧
      Appended s u (acBits ((s.huff.get .ac).get t) 0 (s.blkZ.toList.drop 1)) ∧
      u = { s with
        run := u.run, acc := u.acc, ob := u.ob, answers := u.answers, draws := u.draws, sinkLog := u.sinkLog }

/-- A category or run/size symbol without a code has no result (R248). ENC_DC on such a category faults. ENC_AC faults at any
symbol it reaches that has no code, at whatever position: it does so when the sink accepts the transfer that its earlier
symbols may fill, and, before it has appended anything, whatever the sink does. That ZRL and EOB count among these symbols is
the model's reading (log 11, DEDUCED). So is that ENC_DC and ENC_AC take any table id (log 29, DESIGN CHOICE) in every
controller state (log 30, DESIGN CHOICE). -/
def Obligations.SymbolsWithoutACodeFault : Prop :=
  ∀ (s : State) (c : Comp) (t : TableId),
    ((s.huffCode .dc t (cat (s.blkZ[0] - s.pred.get c))).len = 0 → exec (.encDc c t) s = .fault .undefinedSymbol) ∧
    ((s.huffCode .ac t 0x00).len = 0 → (∀ k : Fin 64, k ≠ 0 → s.blkZ[k] = 0) →
      exec (.encAc t) s = .fault .undefinedSymbol) ∧
    ((s.huffCode .ac t (cat s.blkZ[1])).len = 0 → s.blkZ[1] ≠ 0 → exec (.encAc t) s = .fault .undefinedSymbol) ∧
    (s.WriterReady → s.nextAnswer = .accepted → (∀ sym, (s.huffCode .ac t sym).len ≤ 16) →
      (∀ k : Fin 64, k ≠ 0 → cat s.blkZ[k] ≤ 16) →
      (∃ sym ∈ acSymbols 0 (s.blkZ.toList.drop 1), (s.huffCode .ac t sym).len = 0) →
      exec (.encAc t) s = .fault .undefinedSymbol)

/-! ### Bit writer (46_bit_writer.md) -/

/-- PUT_BITS appends the low `l` bits of `v`, most significant first, whatever the bits above them, and changes nothing but
the bit writer and the sink port; while 8 or more bits are pending it forms bytes of them, stuffing a 0x00 after each 0xFF,
and at most 7 stay pending (R270, R271). That it runs alike in every controller state, FAILED among them, is the model's
choice (log 30, DESIGN CHOICE). -/
def Obligations.PutBitsAppendsTheLowBits : Prop :=
  ∀ (s : State) (l : BitVec 5) (v : BitVec 16), l.toNat ≤ 16 → s.WriterReady → s.nextAnswer = .accepted →
    ∃ t, exec (.putBits l v) s = .next t ∧ WriterOnly s t ∧ t.WriterReady ∧
      Appended s t ((List.range l.toNat).map fun i => v.getLsbD (l.toNat - 1 - i))

/-- Stuffing is undone by deleting each 0x00 that follows a 0xFF: after any sequence of PUT_BITS, the new bytes of the stream
without their stuffing carry exactly the pending and appended bits but for the up to 7 still pending (R271, R272). That they
run alike in every controller state, FAILED among them, is the model's choice (log 30, DESIGN CHOICE). -/
def Obligations.StuffingIsUndoneExactly : Prop :=
  ∀ (s : State) (appends : List (BitVec 5 × BitVec 16)), (∀ p ∈ appends, p.1.toNat ≤ 16) → s.WriterReady →
    s.SinkAccepts appends.length →
    ∃ t new, execAll (appends.map fun p => Instr.putBits p.1 p.2) s = .next t ∧ t.stream = s.stream ++ new ∧
      s.acc ++ (appends.flatMap fun p => lowBits p.2 p.1.toNat) = (unstuff new).flatMap byteBits ++ t.acc ∧
      t.acc.length < 8 ∧
      ∀ i, i < new.length → new[i]? = some 0xFF#8 → new[i + 1]? = some 0x00#8

/-- PAD_FINAL with `k` bits pending: for `k = 0` it forms no byte and leaves seven 1 bits pending; else it forms one byte of
the `k` bits and `8 - k` one bits, stuffed like any other, and leaves `k - 1` one bits pending. Nothing but the bit writer and
the sink port changes (R278). That it runs alike in every controller state, FAILED among them, is the model's choice (log 30,
DESIGN CHOICE). -/
def Obligations.PadFinalEndsOnAByteBoundary : Prop :=
  ∀ s : State, s.WriterReady → s.nextAnswer = .accepted →
    ∃ t, exec .padFinal s = .next t ∧ WriterOnly s t ∧
      (s.acc = [] → t.acc = List.replicate 7 true ∧ t.stream = s.stream) ∧
      (s.acc ≠ [] → t.acc = List.replicate (s.acc.length - 1) true ∧
        ∃ b : Byte, byteBits b = s.acc ++ List.replicate (8 - s.acc.length) true ∧
          t.stream = s.stream ++ (if b = 0xFF#8 then [b, 0x00#8] else [b]))

/-- OUT_BYTE appends one byte to the output buffer, and the byte that fills it sends all 2048 in one transfer; FLUSH sends the
buffered bytes in one transfer, and an empty buffer in none. A transfer empties the buffer; an accepted one changes nothing
else but the sink's log and answers, a refused one is SINK_WRITE_FAILURE (R274, R276, R404). One the sink never answers leaves
the operation stuck, without a next state (R456): that this stop is the fault sinkNeverAnswers is the model's form of it (log
21, DEDUCED). That they run alike in every controller state, FAILED among them, is the model's choice (log 30, DESIGN CHOICE).
-/
def Obligations.OutputBufferFillsAndFlushes : Prop :=
  ∀ (s : State) (b : Byte), s.ob.length < 2048 →
    (let sentBy (bytes : List Byte) (ok : Bool) : State :=
       { s.consumeAnswer with ob := [], sinkLog := s.sinkLog ++ [⟨bytes, ok⟩] }
     let outcome (bytes : List Byte) (o : Host.Outcome State Fault Refusal) : Prop :=
       (s.nextAnswer = .accepted → o = .next (sentBy bytes true)) ∧
       (s.nextAnswer = .rejected →
         o = .next { sentBy bytes false with ctl := .failed, rows := 0, result := false, err := .sinkWriteFailure }) ∧
       (s.nextAnswer = .silent → o = .fault .sinkNeverAnswers)
     (s.ob.length + 1 < 2048 → exec (.outByte b) s = .next { s with ob := s.ob ++ [b] }) ∧
     (s.ob.length + 1 = 2048 → outcome (s.ob ++ [b]) (exec (.outByte b) s)) ∧
     (s.ob = [] → exec .flush s = .next s) ∧
     (s.ob ≠ [] → outcome s.ob (exec .flush s)))

/-! ### JFIF marker emitter (47_marker_emitter.md) -/

/-- The segments without tables: EMIT_SOI, EMIT_APP0, EMIT_SOF0, EMIT_SOS and EMIT_EOI append exactly the bytes of their
rules, unstuffed, whatever bits are pending, and change nothing but the output buffer, the sink log and the sink's answers
(R301, R302, R305, R308, R309). That they run alike in every controller state, FAILED among them, is the model's choice (log
30, DESIGN CHOICE). -/
def Obligations.EmitFixedAndFrameSegments : Prop :=
  ∀ s : State, s.ob.length < 2048 → s.nextAnswer = .accepted →
    (let hi (v : BitVec 16) : Byte := v.extractLsb' 8 8
     let lo (v : BitVec 16) : Byte := v.extractLsb' 0 8
     (∃ t, exec .emitSoi s = .next t ∧ AppendedRaw s t [0xFF, 0xD8]) ∧
     (∃ t, exec .emitApp0 s = .next t ∧ AppendedRaw s t
       [0xFF, 0xE0, 0x00, 0x10, 0x4A, 0x46, 0x49, 0x46, 0x00, 0x01, 0x01, 0x00, 0x00, 0x01, 0x00, 0x01, 0x00, 0x00]) ∧
     (∃ t, exec .emitSof0 s = .next t ∧ AppendedRaw s t
       ([0xFF, 0xC0, 0x00, if s.conf.ss = .grayscale then 0x0B else 0x11, 0x08, hi s.conf.h, lo s.conf.h, hi s.conf.w,
          lo s.conf.w] ++
        match s.conf.ss with
        | .grayscale => [0x01, 0x01, 0x11, 0x00]
        | .s444 => [0x03, 0x01, 0x11, 0x00, 0x02, 0x11, 0x01, 0x03, 0x11, 0x01]
        | .s422 => [0x03, 0x01, 0x21, 0x00, 0x02, 0x11, 0x01, 0x03, 0x11, 0x01]
        | .s420 => [0x03, 0x01, 0x22, 0x00, 0x02, 0x11, 0x01, 0x03, 0x11, 0x01])) ∧
     (∃ t, exec .emitSos s = .next t ∧ AppendedRaw s t
       (if s.conf.ss = .grayscale then [0xFF, 0xDA, 0x00, 0x08, 0x01, 0x01, 0x00, 0x00, 0x3F, 0x00]
        else [0xFF, 0xDA, 0x00, 0x0C, 0x03, 0x01, 0x00, 0x02, 0x11, 0x03, 0x11, 0x00, 0x3F, 0x00])) ∧
     ∃ t, exec .emitEoi s = .next t ∧ AppendedRaw s t [0xFF, 0xD9])

/-- The table segments: EMIT_DQT appends its marker, the length 67, the table id and the 64 entries of `QT[t]` in zig-zag
order; EMIT_DHT its marker, its length, class and id, the 16 counts of BITS and the symbols of VALS. They change nothing but
the output buffer, the sink log and the sink's answers (R303, R306). That they run alike in every controller state, FAILED
among them, is the model's choice (log 30, DESIGN CHOICE). -/
def Obligations.EmitTableSegments : Prop :=
  ∀ (s : State) (k : HuffClass) (t : TableId), s.ob.length < 2048 → s.nextAnswer = .accepted →
    (∃ u, exec (.emitDqt t) s = .next u ∧ AppendedRaw s u
      ([0xFF, 0xDB, 0x00, 0x43, if t = .luma then 0x00 else 0x01] ++ (s.qt.get t).toList)) ∧
    ∃ u, exec (.emitDht k t) s = .next u ∧ AppendedRaw s u
      ([0xFF, 0xC4, 0x00, if k = .dc then 0x1F else 0xB5,
        (if k = .dc then 0x00 else 0x10) + (if t = .luma then 0x00 else 0x01)] ++
        (huffSpec k t).bits.map (BitVec.ofNat 8) ++ (huffSpec k t).vals)
end

