-- ==== Sys2Proof/Laws/State.lean ====
section
/-! SUPPORT. What each named update of State leaves in each field, and the small lemmas of the state indexed by component,
table id and class, so that no proof unfolds a record update. -/

namespace Sys2Proof.Machine

/-! ### A command that succeeded -/

@[simp] theorem succeed_cfg (s : State) : s.succeed.cfg = s.cfg := rfl
@[simp] theorem succeed_ctl (s : State) : s.succeed.ctl = s.ctl := rfl
@[simp] theorem succeed_result (s : State) : s.succeed.result = true := rfl
@[simp] theorem succeed_err (s : State) : s.succeed.err = .none := rfl
@[simp] theorem succeed_rows (s : State) : s.succeed.rows = s.rows := rfl
@[simp] theorem succeed_cfgDim (s : State) : s.succeed.cfgDim = s.cfgDim := rfl
@[simp] theorem succeed_cfgMode (s : State) : s.succeed.cfgMode = s.cfgMode := rfl
@[simp] theorem succeed_conf (s : State) : s.succeed.conf = s.conf := rfl
@[simp] theorem succeed_slb (s : State) : s.succeed.slb = s.slb := rfl
@[simp] theorem succeed_rb (s : State) : s.succeed.rb = s.rb := rfl
@[simp] theorem succeed_qt (s : State) : s.succeed.qt = s.qt := rfl
@[simp] theorem succeed_huff (s : State) : s.succeed.huff = s.huff := rfl
@[simp] theorem succeed_pred (s : State) : s.succeed.pred = s.pred := rfl
@[simp] theorem succeed_acc (s : State) : s.succeed.acc = s.acc := rfl
@[simp] theorem succeed_ob (s : State) : s.succeed.ob = s.ob := rfl
@[simp] theorem succeed_blkS (s : State) : s.succeed.blkS = s.blkS := rfl
@[simp] theorem succeed_blkP (s : State) : s.succeed.blkP = s.blkP := rfl
@[simp] theorem succeed_blkZ (s : State) : s.succeed.blkZ = s.blkZ := rfl
@[simp] theorem succeed_run (s : State) : s.succeed.run = s.run := rfl
@[simp] theorem succeed_mcuIndex (s : State) : s.succeed.mcuIndex = s.mcuIndex := rfl
@[simp] theorem succeed_blockIndex (s : State) : s.succeed.blockIndex = s.blockIndex := rfl
@[simp] theorem succeed_issue (s : State) : s.succeed.issue = s.issue := rfl
@[simp] theorem succeed_inputs (s : State) : s.succeed.inputs = s.inputs := rfl
@[simp] theorem succeed_answers (s : State) : s.succeed.answers = s.answers := rfl
@[simp] theorem succeed_draws (s : State) : s.succeed.draws = s.draws := rfl
@[simp] theorem succeed_epoch (s : State) : s.succeed.epoch = s.epoch := rfl
@[simp] theorem succeed_sinkLog (s : State) : s.succeed.sinkLog = s.sinkLog := rfl
@[simp] theorem succeed_hostReads (s : State) : s.succeed.hostReads = s.hostReads := rfl

/-! ### The teardown of INIT and DEINIT -/

@[simp] theorem teardown_cfg (s : State) : s.teardown.cfg = s.cfg := rfl
@[simp] theorem teardown_ctl (s : State) : s.teardown.ctl = .uninit := rfl
@[simp] theorem teardown_result (s : State) : s.teardown.result = s.result := rfl
@[simp] theorem teardown_err (s : State) : s.teardown.err = s.err := rfl
@[simp] theorem teardown_rows (s : State) : s.teardown.rows = 0 := rfl
@[simp] theorem teardown_cfgDim (s : State) : s.teardown.cfgDim = s.cfgDim := rfl
@[simp] theorem teardown_cfgMode (s : State) : s.teardown.cfgMode = s.cfgMode := rfl
@[simp] theorem teardown_conf (s : State) : s.teardown.conf = s.conf := rfl
@[simp] theorem teardown_slb (s : State) : s.teardown.slb = s.slb := rfl
@[simp] theorem teardown_rb (s : State) : s.teardown.rb = s.rb := rfl
@[simp] theorem teardown_qt (s : State) : s.teardown.qt = s.qt := rfl
@[simp] theorem teardown_huff (s : State) : s.teardown.huff = s.huff := rfl
@[simp] theorem teardown_pred (s : State) : s.teardown.pred = s.pred := rfl
@[simp] theorem teardown_acc (s : State) : s.teardown.acc = [] := rfl
@[simp] theorem teardown_ob (s : State) : s.teardown.ob = [] := rfl
@[simp] theorem teardown_blkS (s : State) : s.teardown.blkS = s.blkS := rfl
@[simp] theorem teardown_blkP (s : State) : s.teardown.blkP = s.blkP := rfl
@[simp] theorem teardown_blkZ (s : State) : s.teardown.blkZ = s.blkZ := rfl
@[simp] theorem teardown_run (s : State) : s.teardown.run = s.run := rfl
@[simp] theorem teardown_mcuIndex (s : State) : s.teardown.mcuIndex = s.mcuIndex := rfl
@[simp] theorem teardown_blockIndex (s : State) : s.teardown.blockIndex = s.blockIndex := rfl
@[simp] theorem teardown_issue (s : State) : s.teardown.issue = s.issue := rfl
@[simp] theorem teardown_inputs (s : State) : s.teardown.inputs = s.inputs := rfl
@[simp] theorem teardown_answers (s : State) : s.teardown.answers = s.answers := rfl
@[simp] theorem teardown_draws (s : State) : s.teardown.draws = s.draws := rfl
@[simp] theorem teardown_epoch (s : State) : s.teardown.epoch = s.epoch := rfl
@[simp] theorem teardown_sinkLog (s : State) : s.teardown.sinkLog = s.sinkLog := rfl
@[simp] theorem teardown_hostReads (s : State) : s.teardown.hostReads = s.hostReads := rfl

/-! ### Raising an error -/

@[simp] theorem raiseError_cfg (e : ErrCode) (s : State) : (raiseError e s).cfg = s.cfg := by cases e <;> rfl
@[simp] theorem raiseError_ctl (e : ErrCode) (s : State) :
    (raiseError e s).ctl = if e = .sinkWriteFailure then .failed else s.ctl := by cases e <;> rfl
@[simp] theorem raiseError_result (e : ErrCode) (s : State) : (raiseError e s).result = false := by cases e <;> rfl
@[simp] theorem raiseError_err (e : ErrCode) (s : State) : (raiseError e s).err = e := by cases e <;> rfl
@[simp] theorem raiseError_rows (e : ErrCode) (s : State) :
    (raiseError e s).rows = if e = .sinkWriteFailure then 0 else s.rows := by cases e <;> rfl
@[simp] theorem raiseError_cfgDim (e : ErrCode) (s : State) : (raiseError e s).cfgDim = s.cfgDim := by cases e <;> rfl
@[simp] theorem raiseError_cfgMode (e : ErrCode) (s : State) : (raiseError e s).cfgMode = s.cfgMode := by cases e <;> rfl
@[simp] theorem raiseError_conf (e : ErrCode) (s : State) : (raiseError e s).conf = s.conf := by cases e <;> rfl
@[simp] theorem raiseError_slb (e : ErrCode) (s : State) : (raiseError e s).slb = s.slb := by cases e <;> rfl
@[simp] theorem raiseError_rb (e : ErrCode) (s : State) : (raiseError e s).rb = s.rb := by cases e <;> rfl
@[simp] theorem raiseError_qt (e : ErrCode) (s : State) : (raiseError e s).qt = s.qt := by cases e <;> rfl
@[simp] theorem raiseError_huff (e : ErrCode) (s : State) : (raiseError e s).huff = s.huff := by cases e <;> rfl
@[simp] theorem raiseError_pred (e : ErrCode) (s : State) : (raiseError e s).pred = s.pred := by cases e <;> rfl
@[simp] theorem raiseError_acc (e : ErrCode) (s : State) : (raiseError e s).acc = s.acc := by cases e <;> rfl
@[simp] theorem raiseError_ob (e : ErrCode) (s : State) : (raiseError e s).ob = s.ob := by cases e <;> rfl
@[simp] theorem raiseError_blkS (e : ErrCode) (s : State) : (raiseError e s).blkS = s.blkS := by cases e <;> rfl
@[simp] theorem raiseError_blkP (e : ErrCode) (s : State) : (raiseError e s).blkP = s.blkP := by cases e <;> rfl
@[simp] theorem raiseError_blkZ (e : ErrCode) (s : State) : (raiseError e s).blkZ = s.blkZ := by cases e <;> rfl
@[simp] theorem raiseError_run (e : ErrCode) (s : State) : (raiseError e s).run = s.run := by cases e <;> rfl
@[simp] theorem raiseError_mcuIndex (e : ErrCode) (s : State) : (raiseError e s).mcuIndex = s.mcuIndex := by cases e <;> rfl
@[simp] theorem raiseError_blockIndex (e : ErrCode) (s : State) : (raiseError e s).blockIndex = s.blockIndex := by cases e <;> rfl
@[simp] theorem raiseError_issue (e : ErrCode) (s : State) : (raiseError e s).issue = s.issue := by cases e <;> rfl
@[simp] theorem raiseError_inputs (e : ErrCode) (s : State) : (raiseError e s).inputs = s.inputs := by cases e <;> rfl
@[simp] theorem raiseError_answers (e : ErrCode) (s : State) : (raiseError e s).answers = s.answers := by cases e <;> rfl
@[simp] theorem raiseError_draws (e : ErrCode) (s : State) : (raiseError e s).draws = s.draws := by cases e <;> rfl
@[simp] theorem raiseError_epoch (e : ErrCode) (s : State) : (raiseError e s).epoch = s.epoch := by cases e <;> rfl
@[simp] theorem raiseError_sinkLog (e : ErrCode) (s : State) : (raiseError e s).sinkLog = s.sinkLog := by cases e <;> rfl
@[simp] theorem raiseError_hostReads (e : ErrCode) (s : State) : (raiseError e s).hostReads = s.hostReads := by cases e <;> rfl

/-! ### A transfer answered and logged -/

@[simp] theorem logTransfer_cfg (s : State) (bs : List Byte) (ok : Bool) : (s.logTransfer bs ok).cfg = s.cfg := by
  unfold State.logTransfer State.consumeAnswer
  cases s.answers <;> rfl
@[simp] theorem logTransfer_ctl (s : State) (bs : List Byte) (ok : Bool) : (s.logTransfer bs ok).ctl = s.ctl := by
  unfold State.logTransfer State.consumeAnswer
  cases s.answers <;> rfl
@[simp] theorem logTransfer_result (s : State) (bs : List Byte) (ok : Bool) : (s.logTransfer bs ok).result = s.result := by
  unfold State.logTransfer State.consumeAnswer
  cases s.answers <;> rfl
@[simp] theorem logTransfer_err (s : State) (bs : List Byte) (ok : Bool) : (s.logTransfer bs ok).err = s.err := by
  unfold State.logTransfer State.consumeAnswer
  cases s.answers <;> rfl
@[simp] theorem logTransfer_rows (s : State) (bs : List Byte) (ok : Bool) : (s.logTransfer bs ok).rows = s.rows := by
  unfold State.logTransfer State.consumeAnswer
  cases s.answers <;> rfl
@[simp] theorem logTransfer_cfgDim (s : State) (bs : List Byte) (ok : Bool) : (s.logTransfer bs ok).cfgDim = s.cfgDim := by
  unfold State.logTransfer State.consumeAnswer
  cases s.answers <;> rfl
@[simp] theorem logTransfer_cfgMode (s : State) (bs : List Byte) (ok : Bool) : (s.logTransfer bs ok).cfgMode = s.cfgMode := by
  unfold State.logTransfer State.consumeAnswer
  cases s.answers <;> rfl
@[simp] theorem logTransfer_conf (s : State) (bs : List Byte) (ok : Bool) : (s.logTransfer bs ok).conf = s.conf := by
  unfold State.logTransfer State.consumeAnswer
  cases s.answers <;> rfl
@[simp] theorem logTransfer_slb (s : State) (bs : List Byte) (ok : Bool) : (s.logTransfer bs ok).slb = s.slb := by
  unfold State.logTransfer State.consumeAnswer
  cases s.answers <;> rfl
@[simp] theorem logTransfer_rb (s : State) (bs : List Byte) (ok : Bool) : (s.logTransfer bs ok).rb = s.rb := by
  unfold State.logTransfer State.consumeAnswer
  cases s.answers <;> rfl
@[simp] theorem logTransfer_qt (s : State) (bs : List Byte) (ok : Bool) : (s.logTransfer bs ok).qt = s.qt := by
  unfold State.logTransfer State.consumeAnswer
  cases s.answers <;> rfl
@[simp] theorem logTransfer_huff (s : State) (bs : List Byte) (ok : Bool) : (s.logTransfer bs ok).huff = s.huff := by
  unfold State.logTransfer State.consumeAnswer
  cases s.answers <;> rfl
@[simp] theorem logTransfer_pred (s : State) (bs : List Byte) (ok : Bool) : (s.logTransfer bs ok).pred = s.pred := by
  unfold State.logTransfer State.consumeAnswer
  cases s.answers <;> rfl
@[simp] theorem logTransfer_acc (s : State) (bs : List Byte) (ok : Bool) : (s.logTransfer bs ok).acc = s.acc := by
  unfold State.logTransfer State.consumeAnswer
  cases s.answers <;> rfl
@[simp] theorem logTransfer_ob (s : State) (bs : List Byte) (ok : Bool) : (s.logTransfer bs ok).ob = s.ob := by
  unfold State.logTransfer State.consumeAnswer
  cases s.answers <;> rfl
@[simp] theorem logTransfer_blkS (s : State) (bs : List Byte) (ok : Bool) : (s.logTransfer bs ok).blkS = s.blkS := by
  unfold State.logTransfer State.consumeAnswer
  cases s.answers <;> rfl
@[simp] theorem logTransfer_blkP (s : State) (bs : List Byte) (ok : Bool) : (s.logTransfer bs ok).blkP = s.blkP := by
  unfold State.logTransfer State.consumeAnswer
  cases s.answers <;> rfl
@[simp] theorem logTransfer_blkZ (s : State) (bs : List Byte) (ok : Bool) : (s.logTransfer bs ok).blkZ = s.blkZ := by
  unfold State.logTransfer State.consumeAnswer
  cases s.answers <;> rfl
@[simp] theorem logTransfer_run (s : State) (bs : List Byte) (ok : Bool) : (s.logTransfer bs ok).run = s.run := by
  unfold State.logTransfer State.consumeAnswer
  cases s.answers <;> rfl
@[simp] theorem logTransfer_mcuIndex (s : State) (bs : List Byte) (ok : Bool) : (s.logTransfer bs ok).mcuIndex = s.mcuIndex := by
  unfold State.logTransfer State.consumeAnswer
  cases s.answers <;> rfl
@[simp] theorem logTransfer_blockIndex (s : State) (bs : List Byte) (ok : Bool) : (s.logTransfer bs ok).blockIndex = s.blockIndex := by
  unfold State.logTransfer State.consumeAnswer
  cases s.answers <;> rfl
@[simp] theorem logTransfer_issue (s : State) (bs : List Byte) (ok : Bool) : (s.logTransfer bs ok).issue = s.issue := by
  unfold State.logTransfer State.consumeAnswer
  cases s.answers <;> rfl
@[simp] theorem logTransfer_inputs (s : State) (bs : List Byte) (ok : Bool) : (s.logTransfer bs ok).inputs = s.inputs := by
  unfold State.logTransfer State.consumeAnswer
  cases s.answers <;> rfl
@[simp] theorem logTransfer_answers (s : State) (bs : List Byte) (ok : Bool) : (s.logTransfer bs ok).answers = s.answers.tail := by
  unfold State.logTransfer State.consumeAnswer
  cases h : s.answers <;> simp_all
@[simp] theorem logTransfer_draws (s : State) (bs : List Byte) (ok : Bool) :
    (s.logTransfer bs ok).draws = if s.answers = [] then s.draws + 1 else s.draws := by
  unfold State.logTransfer State.consumeAnswer
  cases h : s.answers <;> simp_all
@[simp] theorem logTransfer_epoch (s : State) (bs : List Byte) (ok : Bool) : (s.logTransfer bs ok).epoch = s.epoch := by
  unfold State.logTransfer State.consumeAnswer
  cases s.answers <;> rfl
@[simp] theorem logTransfer_sinkLog (s : State) (bs : List Byte) (ok : Bool) : (s.logTransfer bs ok).sinkLog = s.sinkLog ++ [⟨bs, ok⟩] := rfl
@[simp] theorem logTransfer_hostReads (s : State) (bs : List Byte) (ok : Bool) : (s.logTransfer bs ok).hostReads = s.hostReads := by
  unfold State.logTransfer State.consumeAnswer
  cases s.answers <;> rfl

/-! ### Writing samples into a row of the row buffer -/

@[simp] theorem writeRow_cfg (s : State) (c : Comp) (r x : Nat) (bs : List Byte) : (s.writeRow c r x bs).cfg = s.cfg := rfl
@[simp] theorem writeRow_ctl (s : State) (c : Comp) (r x : Nat) (bs : List Byte) : (s.writeRow c r x bs).ctl = s.ctl := rfl
@[simp] theorem writeRow_result (s : State) (c : Comp) (r x : Nat) (bs : List Byte) : (s.writeRow c r x bs).result = s.result := rfl
@[simp] theorem writeRow_err (s : State) (c : Comp) (r x : Nat) (bs : List Byte) : (s.writeRow c r x bs).err = s.err := rfl
@[simp] theorem writeRow_rows (s : State) (c : Comp) (r x : Nat) (bs : List Byte) : (s.writeRow c r x bs).rows = s.rows := rfl
@[simp] theorem writeRow_cfgDim (s : State) (c : Comp) (r x : Nat) (bs : List Byte) : (s.writeRow c r x bs).cfgDim = s.cfgDim := rfl
@[simp] theorem writeRow_cfgMode (s : State) (c : Comp) (r x : Nat) (bs : List Byte) : (s.writeRow c r x bs).cfgMode = s.cfgMode := rfl
@[simp] theorem writeRow_conf (s : State) (c : Comp) (r x : Nat) (bs : List Byte) : (s.writeRow c r x bs).conf = s.conf := rfl
@[simp] theorem writeRow_slb (s : State) (c : Comp) (r x : Nat) (bs : List Byte) : (s.writeRow c r x bs).slb = s.slb := rfl
@[simp] theorem writeRow_qt (s : State) (c : Comp) (r x : Nat) (bs : List Byte) : (s.writeRow c r x bs).qt = s.qt := rfl
@[simp] theorem writeRow_huff (s : State) (c : Comp) (r x : Nat) (bs : List Byte) : (s.writeRow c r x bs).huff = s.huff := rfl
@[simp] theorem writeRow_pred (s : State) (c : Comp) (r x : Nat) (bs : List Byte) : (s.writeRow c r x bs).pred = s.pred := rfl
@[simp] theorem writeRow_acc (s : State) (c : Comp) (r x : Nat) (bs : List Byte) : (s.writeRow c r x bs).acc = s.acc := rfl
@[simp] theorem writeRow_ob (s : State) (c : Comp) (r x : Nat) (bs : List Byte) : (s.writeRow c r x bs).ob = s.ob := rfl
@[simp] theorem writeRow_blkS (s : State) (c : Comp) (r x : Nat) (bs : List Byte) : (s.writeRow c r x bs).blkS = s.blkS := rfl
@[simp] theorem writeRow_blkP (s : State) (c : Comp) (r x : Nat) (bs : List Byte) : (s.writeRow c r x bs).blkP = s.blkP := rfl
@[simp] theorem writeRow_blkZ (s : State) (c : Comp) (r x : Nat) (bs : List Byte) : (s.writeRow c r x bs).blkZ = s.blkZ := rfl
@[simp] theorem writeRow_run (s : State) (c : Comp) (r x : Nat) (bs : List Byte) : (s.writeRow c r x bs).run = s.run := rfl
@[simp] theorem writeRow_mcuIndex (s : State) (c : Comp) (r x : Nat) (bs : List Byte) : (s.writeRow c r x bs).mcuIndex = s.mcuIndex := rfl
@[simp] theorem writeRow_blockIndex (s : State) (c : Comp) (r x : Nat) (bs : List Byte) : (s.writeRow c r x bs).blockIndex = s.blockIndex := rfl
@[simp] theorem writeRow_issue (s : State) (c : Comp) (r x : Nat) (bs : List Byte) : (s.writeRow c r x bs).issue = s.issue := rfl
@[simp] theorem writeRow_inputs (s : State) (c : Comp) (r x : Nat) (bs : List Byte) : (s.writeRow c r x bs).inputs = s.inputs := rfl
@[simp] theorem writeRow_answers (s : State) (c : Comp) (r x : Nat) (bs : List Byte) : (s.writeRow c r x bs).answers = s.answers := rfl
@[simp] theorem writeRow_draws (s : State) (c : Comp) (r x : Nat) (bs : List Byte) : (s.writeRow c r x bs).draws = s.draws := rfl
@[simp] theorem writeRow_epoch (s : State) (c : Comp) (r x : Nat) (bs : List Byte) : (s.writeRow c r x bs).epoch = s.epoch := rfl
@[simp] theorem writeRow_sinkLog (s : State) (c : Comp) (r x : Nat) (bs : List Byte) : (s.writeRow c r x bs).sinkLog = s.sinkLog := rfl
@[simp] theorem writeRow_hostReads (s : State) (c : Comp) (r x : Nat) (bs : List Byte) : (s.writeRow c r x bs).hostReads = s.hostReads := rfl

/-! ### State indexed by component, table id and class -/

@[simp] theorem PerComp.get_set {α : Type} (p : PerComp α) (c d : Comp) (v : α) :
    (p.set c v).get d = if d = c then v else p.get d := by
  cases c <;> cases d <;> rfl

@[simp] theorem PerTable.get_set {α : Type} (p : PerTable α) (t u : TableId) (v : α) :
    (p.set t v).get u = if u = t then v else p.get u := by
  cases t <;> cases u <;> rfl

@[simp] theorem PerClass.get_set {α : Type} (p : PerClass α) (k l : HuffClass) (v : α) :
    (p.set k v).get l = if l = k then v else p.get l := by
  cases k <;> cases l <;> rfl

theorem PerComp.ext_get {α : Type} {p q : PerComp α} (h : ∀ c, p.get c = q.get c) : p = q := by
  cases p; cases q
  have hy := h .y; have hb := h .cb; have hr := h .cr
  simp_all [PerComp.get]

theorem PerTable.ext_get {α : Type} {p q : PerTable α} (h : ∀ t, p.get t = q.get t) : p = q := by
  cases p; cases q
  have hl := h .luma; have hc := h .chroma
  simp_all [PerTable.get]

theorem PerClass.ext_get {α : Type} {p q : PerClass α} (h : ∀ k, p.get k = q.get k) : p = q := by
  cases p; cases q
  have hd := h .dc; have ha := h .ac
  simp_all [PerClass.get]

end Sys2Proof.Machine
end

