-- ==== Sys2Proof/Laws/Transform.lean ====
section
/-! SUPPORT. The laws of the block datapath: what the loads put into `S`, the DCT as two passes of one matrix, its ranges, and
the ranges of the quantized block. -/

namespace Sys2Proof.Machine

theorem at_blockOf (f : Nat → Nat → Int) (i j : Fin 8) : (blockOf f).at i j = f i j := by
  simp only [Block.at, blockOf, Vector.getElem_ofFn]
  congr 1 <;> omega

theorem getElem_blockOf (f : Nat → Nat → Int) (k : Fin 64) : (blockOf f)[k] = f (k.val / 8) (k.val % 8) := by
  simp [blockOf]

/-- The entry at a natural index, by row and column. -/
theorem getElem_eq_at (b : Block) (k : Fin 64) : b[k] = b.at ⟨k.val / 8, by omega⟩ ⟨k.val % 8, by omega⟩ := by
  simp only [Block.at, Fin.getElem_fin]
  congr 1
  omega

/-! ### The kernel and its two passes -/

/-- The kernel of R192 is the matrix it multiplies out to. -/
theorem dct1d_eq (v : Fin 8 → Int) :
    dct1d (v 0) (v 1) (v 2) (v 3) (v 4) (v 5) (v 6) (v 7) =
      ⟨kernelOut 0 v, kernelOut 1 v, kernelOut 2 v, kernelOut 3 v, kernelOut 4 v, kernelOut 5 v, kernelOut 6 v,
        kernelOut 7 v⟩ := by
  simp only [dct1d, kernelOut, dctMatrix, Dct1d.mk.injEq]
  refine ⟨?_, ?_, ?_, ?_, ?_, ?_, ?_, ?_⟩ <;> simp <;> ring

/-- Scaling of pass 1 (R193). -/
def mid (k : Fin 8) (o : Int) : Int := if plainOutput k then 4 * o else (o + 2 ^ 10) / 2 ^ 11

/-- Scaling of pass 2 (R194). -/
def fin (k : Fin 8) (o : Int) : Int := if plainOutput k then (o + 2 ^ 4) / 2 ^ 5 else (o + 2 ^ 17) / 2 ^ 18

theorem dctRow_eq (p : Block) (i : Fin 8) :
    dctRow p i = dct1d (p.at i 0) (p.at i 1) (p.at i 2) (p.at i 3) (p.at i 4) (p.at i 5) (p.at i 6) (p.at i 7) := rfl

theorem dctCol_eq (p : Block) (c : Fin 8) :
    dctCol p c = dct1d (p.at 0 c) (p.at 1 c) (p.at 2 c) (p.at 3 c) (p.at 4 c) (p.at 5 c) (p.at 6 c) (p.at 7 c) := by
  unfold dctCol Block.at
  simp

theorem scalePass1_get (v : Fin 8 → Int) (k : Fin 8) :
    (scalePass1 (dct1d (v 0) (v 1) (v 2) (v 3) (v 4) (v 5) (v 6) (v 7)))[k] = mid k (kernelOut k v) := by
  rw [dct1d_eq]
  fin_cases k <;> simp [scalePass1, mid, plainOutput, pass1Bits, constBits, descale, asr]; all_goals try ring

theorem scalePass2_get (v : Fin 8 → Int) (k : Fin 8) :
    (scalePass2 (dct1d (v 0) (v 1) (v 2) (v 3) (v 4) (v 5) (v 6) (v 7)))[k] = fin k (kernelOut k v) := by
  rw [dct1d_eq]
  fin_cases k <;> simp [scalePass2, fin, plainOutput, pass1Bits, constBits, descale, asr]

theorem pass1_at (p : Block) (i k : Fin 8) : (pass1 p).at i k = mid k (kernelOut k (p.at i)) := by
  have h := scalePass1_get (p.at i) k
  rw [← dctRow_eq] at h
  rw [← h]
  simp only [Block.at, pass1, Vector.getElem_ofFn, Fin.getElem_fin]
  have h1 : (⟨(8 * i.val + k.val) / 8, by omega⟩ : Fin 8) = i :=
    Fin.ext (show (8 * i.val + k.val) / 8 = i.val by omega)
  congr 1
  · simp only [h1]
  · omega

theorem pass2_at (p : Block) (k c : Fin 8) : (pass2 p).at k c = fin k (kernelOut k fun i => p.at i c) := by
  have h := scalePass2_get (fun i => p.at i c) k
  rw [← dctCol_eq] at h
  rw [← h]
  simp only [Block.at, pass2, Vector.getElem_ofFn, Fin.getElem_fin]
  have h1 : (⟨(8 * k.val + c.val) % 8, by omega⟩ : Fin 8) = c :=
    Fin.ext (show (8 * k.val + c.val) % 8 = c.val by omega)
  congr 1
  · simp only [h1]
  · omega

/-- The transform as two passes of the matrix (R193 to R195). -/
theorem forwardDct_at (p : Block) (k c : Fin 8) :
    (forwardDct p).at k c = fin k (kernelOut k fun i => mid c (kernelOut c (p.at i))) := by
  unfold forwardDct
  rw [pass2_at]
  simp only [pass1_at]

/-! ### Ranges (R205) -/

/-- Bounds of one output of pass 1 for a row of samples in the box. -/
theorem mid_bounds (i : Nat) (v : Fin 8 → Int) (h : ∀ j : Fin 8, -128 ≤ v j ∧ v j ≤ 127 + (i + j.val) % 2) (k : Fin 8) :
    -4096 ≤ mid k (kernelOut k v) ∧ mid k (kernelOut k v) ≤ 4088 ∧ (k = 0 → mid k (kernelOut k v) ≤ 4080) ∧
      (k ≠ 0 → -4088 ≤ mid k (kernelOut k v)) ∧ (k ≠ 0 → k ≠ 4 → -3800 ≤ mid k (kernelOut k v) ∧ mid k (kernelOut k v) ≤ 3800) := by
  have h0 := h 0; have h1 := h 1; have h2 := h 2; have h3 := h 3; have h4 := h 4; have h5 := h 5; have h6 := h 6; have h7 := h 7
  have hp : i % 2 = 0 ∨ i % 2 = 1 := by omega
  simp only [Fin.isValue, Fin.coe_ofNat_eq_mod] at h0 h1 h2 h3 h4 h5 h6 h7
  fin_cases k <;> simp [mid, plainOutput, kernelOut, dctMatrix] <;> omega

/-- Bounds of one output of pass 2 for a column `c` of pass-1 values; the DC is apart. -/
theorem fin_bounds (c : Fin 8) (m : Fin 8 → Int)
    (h : ∀ i : Fin 8, -4096 ≤ m i ∧ m i ≤ 4088 ∧ (c = 0 → m i ≤ 4080) ∧ (c ≠ 0 → -4088 ≤ m i)) (k : Fin 8)
    (hkc : k ≠ 0 ∨ c ≠ 0) : (fin k (kernelOut k m)).natAbs ≤ 1022 := by
  have h0 := h 0; have h1 := h 1; have h2 := h 2; have h3 := h 3; have h4 := h 4; have h5 := h 5; have h6 := h 6; have h7 := h 7
  by_cases hc : c = 0
  · have hk : k ≠ 0 := by rcases hkc with h | h; exact h; exact (h hc).elim
    simp only [hc, forall_true_left, ne_eq, not_true_eq_false, false_implies, and_true] at h0 h1 h2 h3 h4 h5 h6 h7
    clear h hkc
    fin_cases k <;> simp [fin, plainOutput, kernelOut, dctMatrix] at hk ⊢ <;> omega
  · simp only [hc, false_implies, ne_eq, not_false_eq_true, forall_true_left, true_and] at h0 h1 h2 h3 h4 h5 h6 h7
    clear h hkc
    fin_cases k <;> simp [fin, plainOutput, kernelOut, dctMatrix] <;> omega

theorem inBox_row {b : Block} (h : b.InBox) (i : Fin 8) (j : Fin 8) : -128 ≤ b.at i j ∧ b.at i j ≤ 127 + (i.val + j.val) % 2 := by
  have := h ⟨8 * i.val + j.val, by omega⟩
  simp only [Fin.getElem_fin] at this
  change -128 ≤ b.at i j ∧ b.at i j ≤ _ at this
  omega

/-- AC coefficients of a block in the box (R205). -/
theorem forwardDct_ac {b : Block} (h : b.InBox) {k : Fin 64} (hk : k ≠ 0) : ((forwardDct b)[k]).natAbs ≤ 1022 := by
  rw [getElem_eq_at, forwardDct_at]
  apply fin_bounds
  · intro i
    obtain ⟨h1, h2, h3, h4, -⟩ := mid_bounds i.val (b.at i) (fun j => inBox_row h i j) ⟨k.val % 8, by omega⟩
    exact ⟨h1, h2, h3, h4⟩
  · by_contra hc
    push Not at hc
    obtain ⟨h1, h2⟩ := hc
    have h1 := congrArg Fin.val h1
    have h2 := congrArg Fin.val h2
    simp at h1 h2
    exact hk (Fin.ext (by simp; omega))

/-- The sum of the 64 entries, row by row. -/
theorem sum_eq (b : Block) :
    b.toList.sum = kernelOut 0 fun i => kernelOut 0 (b.at i) := by
  have h : b.toList = List.ofFn fun k : Fin 64 => b[k] := by
    apply List.ext_getElem
    · rw [List.length_ofFn, Vector.length_toList]
    · intro i h1 h2
      rw [List.getElem_ofFn, Vector.getElem_toList, Fin.getElem_fin]
  have hsum : ∀ f : Fin 64 → Int, ∑ k, f k = ∑ i : Fin 8, ∑ j : Fin 8, f ⟨8 * i.val + j.val, by omega⟩ := by
    intro f
    rw [← Fintype.sum_prod_type']
    refine (Fintype.sum_equiv (finProdFinEquiv (m := 8) (n := 8)) _ _ fun p => ?_).symm
    congr 1
    apply Fin.ext
    show 8 * p.1.val + p.2.val = p.2.val + 8 * p.1.val
    omega
  have hk : ∀ m : Fin 8 → Int, kernelOut 0 m = ∑ i, m i := by
    intro m
    rw [Fin.sum_univ_eight]
    simp [kernelOut, dctMatrix]
  rw [h, List.sum_ofFn, hsum, hk]
  refine Finset.sum_congr rfl fun i _ => ?_
  rw [hk]
  rfl

theorem forwardDct_zero (b : Block) : (forwardDct b)[0] = (b.toList.sum + 4) / 8 := by
  have h : (forwardDct b)[0] = (forwardDct b).at 0 0 := rfl
  rw [h, forwardDct_at, sum_eq]
  simp only [mid, fin, plainOutput, kernelOut, dctMatrix]
  simp
  omega

/-- The DC coefficient of a block in the box (R197). -/
theorem forwardDct_dc {b : Block} (h : b.InBox) : -1024 ≤ (forwardDct b)[0] ∧ (forwardDct b)[0] ≤ 1020 := by
  rw [forwardDct_zero, sum_eq]
  have hr : ∀ i : Fin 8, -1024 ≤ kernelOut 0 (b.at i) ∧ kernelOut 0 (b.at i) ≤ 1020 := by
    intro i
    obtain ⟨h1, -, h3, -⟩ := mid_bounds i.val (b.at i) (fun j => inBox_row h i j) 0
    have h3 := h3 rfl
    simp only [mid, plainOutput] at h1 h3
    simp at h1 h3
    omega
  have h0 := hr 0; have h1 := hr 1; have h2 := hr 2; have h3 := hr 3; have h4 := hr 4; have h5 := hr 5; have h6 := hr 6; have h7 := hr 7
  generalize hk : (fun i => kernelOut 0 (b.at i)) = m at *
  have e : ∀ i, kernelOut 0 (b.at i) = m i := fun i => congrFun hk i
  simp only [e] at h0 h1 h2 h3 h4 h5 h6 h7
  simp only [kernelOut, dctMatrix]
  simp
  omega

theorem forwardDct_dc_centred {b : Block} (h : ∀ k : Fin 64, -128 ≤ b[k] ∧ b[k] ≤ 127) :
    -1024 ≤ (forwardDct b)[0] ∧ (forwardDct b)[0] ≤ 1016 := by
  rw [forwardDct_zero]
  have hl : ∀ x ∈ b.toList, -128 ≤ x ∧ x ≤ 127 := by
    intro x hx
    obtain ⟨k, hk, rfl⟩ := List.getElem_of_mem hx
    simp at hk
    simpa using h ⟨k, hk⟩
  have hlen : b.toList.length = 64 := by simp
  have : ∀ l : List Int, (∀ x ∈ l, -128 ≤ x ∧ x ≤ 127) → -128 * (l.length : Int) ≤ l.sum ∧ l.sum ≤ 127 * l.length := by
    intro l
    induction l with
    | nil => intro _; simp
    | cons a l ih =>
      intro hx
      have := ih fun x hx' => hx x (by simp [hx'])
      have := hx a (by simp)
      simp only [List.sum_cons, List.length_cons]
      push_cast
      omega
  have := this _ hl
  rw [hlen] at this
  omega

/-- A constant block transforms to its DC alone (R195). -/
theorem forwardDct_const {b : Block} {v : Int} (h : ∀ k : Fin 64, b[k] = v) :
    (forwardDct b)[0] = 8 * v ∧ ∀ k : Fin 64, k ≠ 0 → (forwardDct b)[k] = 0 := by
  have hat : ∀ i : Fin 8, b.at i = fun _ => v := by
    intro i; funext j
    have := h ⟨8 * i.val + j.val, by omega⟩
    simpa [Block.at] using this
  have hmid : ∀ c : Fin 8, mid c (kernelOut c fun _ => v) = if c = 0 then 32 * v else 0 := by
    intro c
    fin_cases c <;> simp [mid, plainOutput, kernelOut, dctMatrix]; all_goals omega
  have hfin : ∀ (c k : Fin 8), (forwardDct b).at k c = if k = 0 ∧ c = 0 then 8 * v else 0 := by
    intro c k
    rw [forwardDct_at]
    simp only [hat, hmid]
    by_cases hc : c = 0
    · simp only [hc, if_true, and_true]
      fin_cases k <;> simp [fin, plainOutput, kernelOut, dctMatrix]; all_goals omega
    · simp only [hc, if_false, and_false]
      fin_cases k <;> simp [fin, plainOutput, kernelOut, dctMatrix]
  refine ⟨hfin 0 0, fun k hk => ?_⟩
  rw [getElem_eq_at, hfin, if_neg]
  rintro ⟨h1, h2⟩
  have h1 := congrArg Fin.val h1
  have h2 := congrArg Fin.val h2
  simp at h1 h2
  exact hk (Fin.ext (by simp; omega))

/-! ### Sample blocks lie in the box (R170, R172, R173) -/

theorem sampleInt_bounds (s : State) (c : Comp) (r x : Nat) : 0 ≤ s.sampleInt c r x ∧ s.sampleInt c r x ≤ 255 := by
  unfold State.sampleInt
  have := (s.sample c r x).isLt
  omega

theorem sampleBlock_inBox {s : State} (h : s.cfg.h2v1OddBias ≤ 2) (b : BlockLoad) : (s.sampleBlock b).InBox := by
  intro k
  cases b with
  | full c br bc =>
    simp only [State.sampleBlock, getElem_blockOf, fullSample]
    have := sampleInt_bounds s c (8 * br + k.val / 8) (8 * bc + k.val % 8)
    omega
  | h2v1 c mx =>
    simp only [State.sampleBlock, getElem_blockOf, pairAverage, bias, asr]
    have h1 := sampleInt_bounds s c (k.val / 8) (16 * mx + 2 * (k.val % 8))
    have h2 := sampleInt_bounds s c (k.val / 8) (16 * mx + 2 * (k.val % 8) + 1)
    split <;> omega
  | h2v2 c mx =>
    simp only [State.sampleBlock, getElem_blockOf, quadAverage, bias, asr, h2v2OddBias]
    have h1 := sampleInt_bounds s c (2 * (k.val / 8)) (16 * mx + 2 * (k.val % 8))
    have h2 := sampleInt_bounds s c (2 * (k.val / 8)) (16 * mx + 2 * (k.val % 8) + 1)
    have h3 := sampleInt_bounds s c (2 * (k.val / 8) + 1) (16 * mx + 2 * (k.val % 8))
    have h4 := sampleInt_bounds s c (2 * (k.val / 8) + 1) (16 * mx + 2 * (k.val % 8) + 1)
    split <;> omega

/-! ### Quantization (R215, R218) -/

theorem quant_eq {v : Int} {d : Nat} (hd : 1 ≤ d) :
    quant v d = if v < 0 then -(((v.natAbs + d / 2) / d : Nat) : Int) else ((v.natAbs + d / 2) / d : Nat) := by
  unfold quant
  rw [if_neg (by omega)]

/-- A quotient by a divisor from 1 up is no larger than the coefficient, and has its sign. -/
theorem quant_between {v : Int} {d : Nat} (hd : 1 ≤ d) : (0 ≤ v → 0 ≤ quant v d ∧ quant v d ≤ v) ∧ (v < 0 → v ≤ quant v d ∧ quant v d ≤ 0) := by
  rw [quant_eq hd]
  have h : (v.natAbs + d / 2) / d ≤ v.natAbs := by
    rcases Nat.eq_zero_or_pos v.natAbs with h0 | h0
    · rw [h0, Nat.zero_add, Nat.div_eq_of_lt (Nat.div_lt_self (by omega) (by omega))]
    · rw [Nat.div_le_iff_le_mul (by omega)]
      have h1 : v.natAbs + d ≤ v.natAbs * d + 1 := by nlinarith
      omega
  constructor
  · intro hv; rw [if_neg (by omega)]; generalize (v.natAbs + d / 2) / d = m at *; omega
  · intro hv; rw [if_pos hv]; generalize (v.natAbs + d / 2) / d = m at *; omega

theorem zz_zero : zz[(0 : Fin 64)] = 0 := by decide

theorem zz_ne_zero : ∀ i : Fin 64, i ≠ 0 → zz[i] ≠ 0 := by decide

theorem quantBlock_get (p : Block) (q : Vector Byte 64) (i : Fin 64) : (quantBlock p q)[i] = quant p[zz[i]] q[i].toNat := by
  simp [quantBlock]

/-- The coefficients of any block an operation loads (R218). -/
theorem coefBlock_bounds {b : Block} {q : Vector Byte 64} (h : b.InBox) (hq : ∀ i : Fin 64, 1 ≤ q[i].toNat) :
    dcInRange (quantBlock (forwardDct b) q)[0] ∧ ∀ k : Fin 64, k ≠ 0 → ((quantBlock (forwardDct b) q)[k]).natAbs ≤ 1022 := by
  refine ⟨?_, fun k hk => ?_⟩
  · have e : (quantBlock (forwardDct b) q)[0] = quant (forwardDct b)[0] q[(0 : Fin 64)].toNat := by
      have := quantBlock_get (forwardDct b) q 0
      simp only [zz_zero] at this
      exact this
    have h1 := forwardDct_dc h
    have h2 := quant_between (v := (forwardDct b)[0]) (hq 0)
    rw [e]
    unfold dcInRange
    omega
  · rw [quantBlock_get]
    have key : ∀ y : Int, y.natAbs ≤ 1022 → (quant y q[k].toNat).natAbs ≤ 1022 := by
      intro y hy
      have := quant_between (v := y) (hq k)
      omega
    exact key _ (forwardDct_ac h (zz_ne_zero k hk))

theorem quantEntry_pos (base scale : Nat) : 1 ≤ (quantEntry base scale).toNat ∧
    (quantEntry base scale).toNat = max 1 (min 255 ((base * scale + 50) / 100)) := by
  unfold quantEntry clamp
  generalize (base * scale + 50) / 100 = n
  simp only [BitVec.toNat_ofInt]
  split
  · constructor <;> simp; all_goals omega
  · split
    · constructor <;> simp; all_goals omega
    · have : ((n : Int) % 256).toNat = n := by omega
      constructor <;> simp only [Nat.reducePow, Nat.cast_ofNat, this] <;> omega

theorem quantTable_get (q : Nat) (nocd : Bool) (t : TableId) (i : Fin 64) :
    (quantTable q nocd t)[i] = quantEntry (baseTable t nocd)[zz[i]] (qualityScale q) := by
  simp [quantTable]

theorem quantTable_pos (q : Nat) (nocd : Bool) (t : TableId) (i : Fin 64) : 1 ≤ (quantTable q nocd t)[i].toNat := by
  rw [quantTable_get]
  exact (quantEntry_pos _ _).1

end Sys2Proof.Machine
end

