-- ==== Sys2Proof/Laws/Flow.lean ====
section
/-! SUPPORT. How sequences of operations end: rules that derive what a command can do from what each of its operations can
do, and the laws of `bind` and `runAll`. -/

namespace Sys2Proof.Machine

@[simp] theorem Flow.bind_going (s : State) (k : State → Flow) : (Flow.going s).bind k = k s := rfl
@[simp] theorem Flow.bind_raised (s : State) (k : State → Flow) : (Flow.raised s).bind k = .raised s := rfl
@[simp] theorem Flow.bind_fault (f : Fault) (k : State → Flow) : (Flow.fault f).bind k = .fault f := rfl
@[simp] theorem Flow.toOutcome_going (s : State) : (Flow.going s).toOutcome = .next s := rfl
@[simp] theorem Flow.toOutcome_raised (s : State) : (Flow.raised s).toOutcome = .next s := rfl
@[simp] theorem Flow.toOutcome_fault (f : Fault) : (Flow.fault f).toOutcome = .fault f := rfl
@[simp] theorem runAll_nil (s : State) : runAll [] s = .going s := rfl
@[simp] theorem runAll_cons (op : State → Flow) (ops : List (State → Flow)) (s : State) :
    runAll (op :: ops) s = (op s).bind (runAll ops) := rfl

theorem Flow.bind_assoc (x : Flow) (f g : State → Flow) : (x.bind f).bind g = x.bind fun s => (f s).bind g := by
  cases x <;> rfl

theorem runAll_append (ops ops' : List (State → Flow)) (s : State) :
    runAll (ops ++ ops') s = (runAll ops s).bind (runAll ops') := by
  induction ops generalizing s with
  | nil => rfl
  | cons op ops ih =>
    simp only [List.cons_append, runAll_cons, Flow.bind_assoc]
    congr 1
    funext t
    exact ih t

/-- How an operation ends: in a state of `G` going on, in a state of `R` after raising an error, or in a fault of `F`. -/
def Flow.Ends (x : Flow) (G R : State → Prop) (F : Fault → Prop) : Prop :=
  match x with
  | .going s => G s
  | .raised s => R s
  | .fault f => F f

@[simp] theorem Flow.ends_going (s : State) (G R : State → Prop) (F : Fault → Prop) : (Flow.going s).Ends G R F ↔ G s := Iff.rfl
@[simp] theorem Flow.ends_raised (s : State) (G R : State → Prop) (F : Fault → Prop) : (Flow.raised s).Ends G R F ↔ R s := Iff.rfl
@[simp] theorem Flow.ends_fault (f : Fault) (G R : State → Prop) (F : Fault → Prop) : (Flow.fault f).Ends G R F ↔ F f := Iff.rfl

theorem Flow.Ends.mono {x : Flow} {G G' R R' : State → Prop} {F F' : Fault → Prop} (h : x.Ends G R F)
    (hG : ∀ s, G s → G' s) (hR : ∀ s, R s → R' s) (hF : ∀ f, F f → F' f) : x.Ends G' R' F' := by
  cases x
  · exact hG _ h
  · exact hR _ h
  · exact hF _ h

theorem Flow.Ends.bind {x : Flow} {k : State → Flow} {G G' R : State → Prop} {F : Fault → Prop} (h : x.Ends G R F)
    (hk : ∀ s, G s → (k s).Ends G' R F) : (x.bind k).Ends G' R F := by
  cases x
  · exact hk _ h
  · exact h
  · exact h

/-- What every operation of a list keeps, the list keeps. -/
theorem runAll_ends {I R : State → Prop} {F : Fault → Prop} (ops : List (State → Flow))
    (h : ∀ op ∈ ops, ∀ t, I t → (op t).Ends I R F) : ∀ s, I s → (runAll ops s).Ends I R F := by
  induction ops with
  | nil => intro s hs; exact hs
  | cons op ops ih =>
    intro s hs
    exact (h op (by simp) s hs).bind fun t ht => ih (fun o ho => h o (by simp [ho])) t ht

/-- A step's next state, from how its operations end. -/
theorem Flow.Ends.next {x : Flow} {G R : State → Prop} {F : Fault → Prop} (h : x.Ends G R F) {t : State}
    (ht : x.toOutcome = .next t) : G t ∨ R t := by
  cases x
  · cases ht; exact .inl h
  · cases ht; exact .inr h
  · cases ht

/-- Operations that cannot fault make a step. -/
theorem Flow.Ends.completes {x : Flow} {G R : State → Prop} (h : x.Ends G R fun _ => False) :
    ∃ t, x.toOutcome = .next t ∧ (G t ∨ R t) := by
  cases x
  · exact ⟨_, rfl, .inl h⟩
  · exact ⟨_, rfl, .inr h⟩
  · exact h.elim

/-- A fold of row writes changes one component after another. -/
theorem foldl_keeps {α : Type} (f : State → α → State) {P : State → Prop} (h : ∀ s a, P s → P (f s a)) (l : List α) :
    ∀ s, P s → P (l.foldl f s) := by
  induction l with
  | nil => intro s hs; exact hs
  | cons a l ih => intro s hs; exact ih _ (h s a hs)

end Sys2Proof.Machine
end

