-- ==== Sys2Proof/Laws/Writer.lean ====
section
/-! SUPPORT. What the bit writer can do: everything `flushBuffer`, `obAppend`, `rawBytes` and `appendBits` can answer, and the
appends that complete when the sink accepts its next transfer. -/

namespace Sys2Proof.Machine

theorem WriterOnly.refl (s : State) : WriterOnly s s := rfl

theorem WriterOnly.trans {s t u : State} (h : WriterOnly s t) (h' : WriterOnly t u) : WriterOnly s u := by
  unfold WriterOnly at *
  rw [h'] ; rw [h]

/-- The answers the sink still has to give, after some have been given: a tail of what was listed. -/
def AnswersFrom (s t : State) : Prop := t.answers <:+ s.answers

theorem SinkAnswers.of_suffix {s t : State} (h : AnswersFrom s t) (hs : s.SinkAnswers) : t.SinkAnswers :=
  fun a ha => hs a (h.subset ha)

/-- A refused transfer, from a state that differs from `s` in the bit writer and the sink only. -/
def SinkRaised (s t : State) : Prop :=
  ∃ u, WriterOnly s u ∧ t = raiseError .sinkWriteFailure u ∧ ∃ sent bs, u.sinkLog = s.sinkLog ++ sent ++ [⟨bs, false⟩] ∧
    (∀ x ∈ sent, x.ok = true ∧ x.bytes.length = obSize) ∧ bs.length = obSize ∧ u.ob = []

/-- The log grew by accepted transfers of a full buffer. -/
def FullTransfers (s t : State) : Prop :=
  ∃ sent, t.sinkLog = s.sinkLog ++ sent ∧ ∀ x ∈ sent, x.ok = true ∧ x.bytes.length = obSize

theorem FullTransfers.refl (s : State) : FullTransfers s s := ⟨[], by simp, by simp⟩

theorem FullTransfers.trans {s t u : State} (h : FullTransfers s t) (h' : FullTransfers t u) : FullTransfers s u := by
  obtain ⟨a, ha, ha'⟩ := h
  obtain ⟨b, hb, hb'⟩ := h'
  refine ⟨a ++ b, by rw [hb, ha, List.append_assoc], fun x hx => ?_⟩
  rcases List.mem_append.1 hx with hx | hx
  · exact ha' x hx
  · exact hb' x hx

theorem SinkRaised.of_prefix {s t u : State} (hw : WriterOnly s t) (hf : FullTransfers s t) (h : SinkRaised t u) :
    SinkRaised s u := by
  obtain ⟨v, hv, rfl, sent, bs, hlog, hsent, hlen, hob⟩ := h
  obtain ⟨a, ha, ha'⟩ := hf
  refine ⟨v, hw.trans hv, rfl, a ++ sent, bs, by rw [hlog, ha]; simp, fun x hx => ?_, hlen, hob⟩
  rcases List.mem_append.1 hx with hx | hx
  · exact ha' x hx
  · exact hsent x hx

/-- The fault of a sink that never answers. -/
def StaysSilent (s : State) (f : Fault) : Prop := f = .sinkNeverAnswers ∧ ¬ s.SinkAnswers

theorem StaysSilent.of_suffix {s t : State} (h : AnswersFrom s t) {f : Fault} (hf : StaysSilent t f) : StaysSilent s f :=
  ⟨hf.1, fun hs => hf.2 (SinkAnswers.of_suffix h hs)⟩

theorem nextAnswer_silent {s : State} (h : s.nextAnswer = .silent) : ¬ s.SinkAnswers := by
  unfold State.nextAnswer at h
  cases ha : s.answers with
  | nil => rw [ha] at h; simp at h; split at h <;> cases h
  | cons a rest => rw [ha] at h; exact fun hs => hs a (by simp [ha]) h

theorem answersFrom_logTransfer (s : State) (bs : List Byte) (ok : Bool) : AnswersFrom s (s.logTransfer bs ok) := by
  unfold AnswersFrom
  rw [logTransfer_answers]
  exact List.tail_suffix _

/-- Everything `flushBuffer` can do (R276). -/
theorem flushBuffer_eq (s : State) :
    flushBuffer s = if s.ob = [] then .going s else
      match s.nextAnswer with
      | .accepted => .going { s.logTransfer s.ob true with ob := [] }
      | .rejected => .raised (raiseError .sinkWriteFailure { s.logTransfer s.ob false with ob := [] })
      | .silent => .fault .sinkNeverAnswers := by
  unfold flushBuffer
  cases h : s.ob with
  | nil => rfl
  | cons b bs => cases s.nextAnswer <;> exact (if_neg (List.cons_ne_nil b bs)).symm

/-- Everything `obAppend` can do when the buffer is not full (R274). -/
theorem obAppend_ends (b : Byte) {s : State} (hs : s.ob.length < obSize) :
    (obAppend b s).Ends
      (fun t => WriterOnly s t ∧ AnswersFrom s t ∧ FullTransfers s t ∧ t.acc = s.acc ∧ t.ob.length < obSize ∧
        t.stream = s.stream ++ [b])
      (SinkRaised s) (StaysSilent s) := by
  unfold obAppend
  simp only
  by_cases hfull : (s.ob ++ [b]).length = obSize
  · rw [if_pos hfull, flushBuffer_eq, if_neg (by simp)]
    cases ha : State.nextAnswer { s with ob := s.ob ++ [b] } with
    | accepted =>
      refine ⟨?_, ?_, ⟨[⟨s.ob ++ [b], true⟩], ?_, ?_⟩, ?_, ?_, ?_⟩
      · unfold WriterOnly State.logTransfer State.consumeAnswer; cases h : s.answers <;> simp
      · exact answersFrom_logTransfer { s with ob := s.ob ++ [b] } (s.ob ++ [b]) true
      · simp
      · simpa using hfull
      · simp
      · simp [obSize]
      · simp [State.stream]
    | rejected =>
      refine ⟨{ State.logTransfer { s with ob := s.ob ++ [b] } (s.ob ++ [b]) false with ob := [] }, ?_, rfl, [], s.ob ++ [b],
        ?_, ?_, ?_, ?_⟩
      · unfold WriterOnly State.logTransfer State.consumeAnswer; cases h : s.answers <;> simp
      · simp
      · simp
      · exact hfull
      · rfl
    | silent => exact ⟨rfl, fun h => nextAnswer_silent ha h⟩
  · rw [if_neg hfull]
    refine ⟨rfl, List.suffix_refl _, ⟨[], by simp, by simp⟩, rfl, ?_, by simp [State.stream]⟩
    simp only [List.length_append, List.length_cons, List.length_nil] at hfull ⊢
    omega

/-- What appending bytes and bits keeps, from state `s` on: only the bit writer and the sink have changed, every transfer
was a full buffer, and the buffer is not full. -/
structure Appending (s t : State) : Prop where
  only : WriterOnly s t
  answers : AnswersFrom s t
  sent : FullTransfers s t
  room : t.ob.length < obSize

theorem Appending.refl {s : State} (h : s.ob.length < obSize) : Appending s s :=
  ⟨rfl, List.suffix_refl _, .refl s, h⟩

theorem Appending.trans {s t u : State} (h : Appending s t) (h' : Appending t u) : Appending s u :=
  ⟨h.only.trans h'.only, List.IsSuffix.trans h'.answers h.answers, h.sent.trans h'.sent, h'.room⟩

/-- An operation that only appends, started after others that only appended. -/
theorem Flow.Ends.after {x : Flow} {s t : State} {G : State → Prop} (h : Appending s t)
    (hx : x.Ends G (SinkRaised t) (StaysSilent t)) : x.Ends G (SinkRaised s) (StaysSilent s) :=
  hx.mono (fun _ h => h) (fun _ hr => hr.of_prefix h.only h.sent) (fun _ hf => hf.of_suffix h.answers)

theorem obAppend_appending (b : Byte) {s : State} (hs : s.ob.length < obSize) :
    (obAppend b s).Ends (fun t => Appending s t ∧ t.acc = s.acc ∧ t.stream = s.stream ++ [b]) (SinkRaised s) (StaysSilent s) :=
  (obAppend_ends b hs).mono (fun _ ⟨h1, h2, h3, h4, h5, h6⟩ => ⟨⟨h1, h2, h3, h5⟩, h4, h6⟩) (fun _ h => h) (fun _ h => h)

/-- Everything `rawBytes` can do (R273): the bytes join the stream as they are. -/
theorem rawBytes_ends (bs : List Byte) : ∀ {s : State}, s.ob.length < obSize →
    (rawBytes bs s).Ends (fun t => Appending s t ∧ t.acc = s.acc ∧ t.stream = s.stream ++ bs) (SinkRaised s) (StaysSilent s) := by
  induction bs with
  | nil => intro s hs; exact ⟨.refl hs, rfl, by simp⟩
  | cons b bs ih =>
    intro s hs
    refine (obAppend_appending b hs).bind fun t ⟨ht, hacc, hst⟩ => ?_
    refine ((ih ht.room).mono (fun u ⟨hu, hacc', hst'⟩ => ⟨ht.trans hu, hacc'.trans hacc, ?_⟩)
      (fun _ h => h) (fun _ h => h)).after ht
    rw [hst', hst]; simp

/-! ### Bits and bytes -/

theorem lowBits_length (v : BitVec 16) (n : Nat) : (lowBits v n).length = n := by simp [lowBits]

/-- The byte formed from 8 bits has those bits (R270, R271). -/
theorem byteBits_formed (b7 b6 b5 b4 b3 b2 b1 b0 : Bool) :
    byteBits (BitVec.ofNat 8 (bitsToNat [b7, b6, b5, b4, b3, b2, b1, b0])) = [b7, b6, b5, b4, b3, b2, b1, b0] := by
  cases b7 <;> cases b6 <;> cases b5 <;> cases b4 <;> cases b3 <;> cases b2 <;> cases b1 <;> cases b0 <;> rfl

theorem stuff_append (xs ys : List Byte) : stuff (xs ++ ys) = stuff xs ++ stuff ys := by simp [stuff]

theorem stuff_cons (b : Byte) (bs : List Byte) :
    stuff (b :: bs) = (if b = 0xFF#8 then [b, 0x00#8] else [b]) ++ stuff bs := by simp [stuff]

/-- Everything `stuffedByte` can do (R270, R272). -/
theorem stuffedByte_ends (b : Byte) {s : State} (hs : s.ob.length < obSize) :
    (stuffedByte b s).Ends (fun t => Appending s t ∧ t.acc = s.acc ∧ t.stream = s.stream ++ stuff [b])
      (SinkRaised s) (StaysSilent s) := by
  refine (obAppend_appending b hs).bind fun t ⟨ht, hacc, hst⟩ => ?_
  by_cases hb : b = 0xFF#8
  · rw [if_pos hb]
    refine ((obAppend_appending 0x00#8 ht.room).mono (fun u ⟨hu, hacc', hst'⟩ => ⟨ht.trans hu, hacc'.trans hacc, ?_⟩)
      (fun _ h => h) (fun _ h => h)).after ht
    rw [hst', hst]; simp [stuff, hb]
  · rw [if_neg hb]
    exact ⟨ht, hacc, by rw [hst]; simp [stuff, hb]⟩

/-- Setting the pending bits is an append of nothing. -/
theorem appending_setAcc {s : State} (bits : List Bool) (hs : s.ob.length < obSize) : Appending s { s with acc := bits } :=
  ⟨rfl, List.suffix_refl _, ⟨[], by simp, by simp⟩, hs⟩

/-- Induction over a list of bits, eight at a time. -/
theorem octets_induct {P : List Bool → Prop}
    (full : ∀ b7 b6 b5 b4 b3 b2 b1 b0 rest, P rest → P (b7 :: b6 :: b5 :: b4 :: b3 :: b2 :: b1 :: b0 :: rest))
    (few : ∀ bits, bits.length < 8 → P bits) : ∀ bits, P bits
  | b7 :: b6 :: b5 :: b4 :: b3 :: b2 :: b1 :: b0 :: rest => full _ _ _ _ _ _ _ _ _ (octets_induct full few rest)
  | [] | [_] | [_, _] | [_, _, _] | [_, _, _, _] | [_, _, _, _, _] | [_, _, _, _, _, _] | [_, _, _, _, _, _, _] =>
    few _ (by simp)

theorem drainBits_few {bits : List Bool} (h : bits.length < 8) (s : State) : drainBits bits s = .going { s with acc := bits } := by
  match bits, h with
  | [], _ | [_], _ | [_, _], _ | [_, _, _], _ | [_, _, _, _], _ | [_, _, _, _, _], _ | [_, _, _, _, _, _], _
  | [_, _, _, _, _, _, _], _ => rfl

/-- Everything `drainBits` can do (R270): the bits of the bytes formed and the bits left are the bits it was given. -/
theorem drainBits_ends (bits : List Bool) : ∀ {s : State}, s.ob.length < obSize →
    (drainBits bits s).Ends
      (fun t => Appending s t ∧ ∃ data, bits = data.flatMap byteBits ++ t.acc ∧ t.acc.length < 8 ∧
        t.stream = s.stream ++ stuff data)
      (SinkRaised s) (StaysSilent s) := by
  induction bits using octets_induct with
  | full b7 b6 b5 b4 b3 b2 b1 b0 rest ih =>
    intro s hs
    rw [drainBits]
    have ha := appending_setAcc rest hs
    refine Flow.Ends.bind (((stuffedByte_ends _ ha.room).mono (fun t h => h) (fun _ h => h) (fun _ h => h)).after ha)
      fun t ⟨ht, hacc, hst⟩ => ?_
    have hst0 : (State.stream { s with acc := rest }) = s.stream := rfl
    rw [hst0] at hst
    refine ((ih ht.room).mono (fun u ⟨hu, data, hd, hl, hst'⟩ =>
      ⟨(ha.trans ht).trans hu, BitVec.ofNat 8 (bitsToNat [b7, b6, b5, b4, b3, b2, b1, b0]) :: data, ?_, hl, ?_⟩)
      (fun _ h => h) (fun _ h => h)).after (ha.trans ht)
    · rw [List.flatMap_cons, byteBits_formed, hd]; simp
    · rw [hst', hst, List.append_assoc, ← stuff_append]; rfl
  | few bits h =>
    intro s hs
    rw [drainBits_few h]
    exact ⟨appending_setAcc bits hs, [], by simp, h, by simp [stuff, State.stream]⟩

/-- Everything `appendBits` can do with a length it has a meaning for (R270). -/
theorem appendBits_ends (v : BitVec 16) {n : Nat} (hn : n ≤ 16) {s : State} (hs : s.WriterReady) :
    (appendBits v n s).Ends (fun t => Appending s t ∧ Appended s t (lowBits v n)) (SinkRaised s) (StaysSilent s) := by
  unfold appendBits
  rw [if_neg (by omega)]
  by_cases h0 : n = 0
  · rw [if_pos h0]
    refine ⟨.refl hs.2, [], ?_, hs.1, by simp [stuff]⟩
    subst h0; simp [lowBits]
  · rw [if_neg h0]
    exact (drainBits_ends _ hs.2).mono (fun t ⟨h, data, hd, hl, hst⟩ => ⟨h, data, hd, hl, hst⟩) (fun _ h => h) (fun _ h => h)

theorem Appended.ready {s t : State} {bits : List Bool} (h : Appending s t) (h' : Appended s t bits) : t.WriterReady := by
  obtain ⟨_, _, hl, _⟩ := h'
  exact ⟨hl, h.room⟩

/-- Appends compose. -/
theorem Appended.trans {s t u : State} {xs ys : List Bool} (h : Appended s t xs) (h' : Appended t u ys) :
    Appended s u (xs ++ ys) := by
  obtain ⟨d, hd, _, hst⟩ := h
  obtain ⟨d', hd', hl', hst'⟩ := h'
  refine ⟨d ++ d', ?_, hl', ?_⟩
  · rw [← List.append_assoc, hd, List.append_assoc, hd', List.flatMap_append, List.append_assoc]
  · rw [hst', hst, stuff_append, List.append_assoc]

theorem Appended.nil {s : State} (h : s.acc.length < 8) : Appended s s [] := ⟨[], by simp, h, by simp [stuff]⟩

/-- An append seen from a state with the same bit writer and stream. -/
theorem Appended.congr {s s' t t' : State} {bits : List Bool} (h : Appended s t bits) (hs : s'.acc = s.acc)
    (hs' : s'.stream = s.stream) (ht : t'.acc = t.acc) (ht' : t'.stream = t.stream) : Appended s' t' bits := by
  obtain ⟨d, hd, hl, hst⟩ := h
  exact ⟨d, by rw [hs, ht, hd], by rw [ht]; exact hl, by rw [ht', hs', hst]⟩

/-! ### Appends the sink accepts -/

/-- At most one transfer has been made since `s`; if one was, fewer than `n` bytes are in the buffer. -/
def Sent (s : State) (n : Nat) (t : State) : Prop :=
  (t.sinkLog = s.sinkLog ∧ t.answers = s.answers ∧ t.draws = s.draws) ∨
    (t.ob.length < n ∧ t.answers = s.answers.tail ∧ (s.answers ≠ [] → t.draws = s.draws))

theorem Sent.refl (s : State) : Sent s 0 s := .inl ⟨rfl, rfl, rfl⟩

theorem Sent.mono {s t : State} {n m : Nat} (h : Sent s n t) (hm : n ≤ m) : Sent s m t := by
  rcases h with h | ⟨h, h'⟩
  · exact .inl h
  · exact .inr ⟨by omega, h'⟩

/-- `Sent` looks at the buffer, the answers and the log only. -/
theorem Sent.congr {s t t' : State} {n : Nat} (h : Sent s n t) (h1 : t'.sinkLog = t.sinkLog) (h2 : t'.answers = t.answers)
    (h3 : t'.draws = t.draws) (h4 : t'.ob = t.ob) : Sent s n t' := by
  unfold Sent at *
  rw [h1, h2, h3, h4]; exact h

theorem nextAnswer_congr {s t : State} (h : t.answers = s.answers) (h' : t.draws = s.draws) : t.nextAnswer = s.nextAnswer := by
  unfold State.nextAnswer
  rw [h, h']

/-- An append the sink accepts: with fewer than `obSize` bytes since `s`, at most one transfer is needed. -/
theorem obAppend_accepted (b : Byte) {s t : State} {n : Nat} (hs : s.nextAnswer = .accepted) (h : Sent s n t)
    (ht : t.ob.length < obSize) (hn : n < obSize) :
    ∃ u, obAppend b t = .going u ∧ Sent s (n + 1) u ∧ Appending t u ∧ u.acc = t.acc ∧ u.stream = t.stream ++ [b] := by
  have hends := obAppend_appending b ht
  unfold obAppend at hends ⊢
  simp only at hends ⊢
  by_cases hfull : (t.ob ++ [b]).length = obSize
  · rw [if_pos hfull] at hends ⊢
    rcases h with ⟨hlog, hans, hdr⟩ | ⟨hlen, _, _⟩
    · have ha : State.nextAnswer { t with ob := t.ob ++ [b] } = .accepted := by
        rw [← hs]; exact nextAnswer_congr hans hdr
      rw [flushBuffer_eq, if_neg (by simp), ha] at hends ⊢
      refine ⟨_, rfl, .inr ⟨by simp, by simp [hans], fun hne => by simp [hans, hdr, hne]⟩, hends⟩
    · simp only [List.length_append, List.length_cons, List.length_nil] at hfull
      omega
  · rw [if_neg hfull] at hends ⊢
    refine ⟨_, rfl, ?_, hends⟩
    rcases h with ⟨hlog, hans, hdr⟩ | ⟨hlen, hans, hdr⟩
    · exact .inl ⟨hlog, hans, hdr⟩
    · refine .inr ⟨?_, hans, hdr⟩
      simp only [List.length_append, List.length_cons, List.length_nil]
      omega

theorem rawBytes_accepted (bs : List Byte) : ∀ {s t : State} {n : Nat}, s.nextAnswer = .accepted → Sent s n t →
    t.ob.length < obSize → n + bs.length ≤ obSize →
    ∃ u, rawBytes bs t = .going u ∧ Sent s (n + bs.length) u ∧ Appending t u ∧ u.acc = t.acc ∧ u.stream = t.stream ++ bs := by
  induction bs with
  | nil => intro s t n _ h ht _; exact ⟨t, rfl, h, .refl ht, rfl, by simp⟩
  | cons b bs ih =>
    intro s t n hs h ht hn
    simp only [List.length_cons] at hn
    obtain ⟨u, hu, hsent, happ, hacc, hst⟩ := obAppend_accepted b hs h ht (by omega)
    obtain ⟨v, hv, hsent', happ', hacc', hst'⟩ := ih hs hsent happ.room (by omega)
    refine ⟨v, ?_, ?_, happ.trans happ', hacc'.trans hacc, by rw [hst', hst]; simp⟩
    · simp only [rawBytes, List.map_cons, runAll_cons, hu, Flow.bind_going]; exact hv
    · simp only [List.length_cons]; rwa [show n + (bs.length + 1) = n + 1 + bs.length by omega]

theorem stuffedByte_accepted (b : Byte) {s t : State} {n : Nat} (hs : s.nextAnswer = .accepted) (h : Sent s n t)
    (ht : t.ob.length < obSize) (hn : n + 2 ≤ obSize) :
    ∃ u, stuffedByte b t = .going u ∧ Sent s (n + 2) u := by
  obtain ⟨u, hu, hsent, happ, _, _⟩ := obAppend_accepted b hs h ht (by omega)
  unfold stuffedByte
  rw [hu, Flow.bind_going]
  by_cases hb : b = 0xFF#8
  · obtain ⟨v, hv, hsent', _⟩ := obAppend_accepted 0x00#8 hs hsent happ.room (by omega)
    rw [if_pos hb]
    exact ⟨v, hv, hsent'⟩
  · rw [if_neg hb]
    exact ⟨u, rfl, hsent.mono (by omega)⟩

theorem drainBits_accepted (bits : List Bool) : ∀ {s t : State} {n : Nat}, s.nextAnswer = .accepted → Sent s n t →
    t.ob.length < obSize → n + bits.length / 8 * 2 ≤ obSize →
    ∃ u, drainBits bits t = .going u ∧ Sent s (n + bits.length / 8 * 2) u := by
  induction bits using octets_induct with
  | full b7 b6 b5 b4 b3 b2 b1 b0 rest ih =>
    intro s t n hs h ht hn
    simp only [List.length_cons] at hn
    have h' : Sent s n { t with acc := rest } := h.congr rfl rfl rfl rfl
    obtain ⟨u, hu, hsent⟩ := stuffedByte_accepted (BitVec.ofNat 8 (bitsToNat [b7, b6, b5, b4, b3, b2, b1, b0])) hs h'
      (show (State.ob { t with acc := rest }).length < obSize from ht) (by omega)
    have hroom : u.ob.length < obSize := by
      have := stuffedByte_ends (BitVec.ofNat 8 (bitsToNat [b7, b6, b5, b4, b3, b2, b1, b0]))
        (show (State.ob { t with acc := rest }).length < obSize from ht)
      rw [hu] at this
      exact this.1.room
    obtain ⟨v, hv, hsent'⟩ := ih hs hsent hroom (by omega)
    refine ⟨v, ?_, ?_⟩
    · rw [drainBits, hu, Flow.bind_going, hv]
    · simp only [List.length_cons]
      exact hsent'.mono (by omega)
  | few bits hfew =>
    intro s t n hs h ht hn
    exact ⟨{ t with acc := bits }, drainBits_few hfew t, (h.congr rfl rfl rfl rfl).mono (by omega)⟩

/-- An append of bits that completes: the sink accepts its next transfer, and fewer than `obSize - 4` bytes have joined the
buffer since `s`, so that transfer is the only one. -/
theorem appendBits_accepted (v : BitVec 16) {k : Nat} (hk : k ≤ 16) {s t : State} {n : Nat} (hs : s.nextAnswer = .accepted)
    (h : Sent s n t) (ht : t.WriterReady) (hn : n + 4 ≤ obSize) :
    ∃ u, appendBits v k t = .going u ∧ Sent s (n + 4) u ∧ Appending t u ∧ Appended t u (lowBits v k) := by
  have hends := appendBits_ends v hk ht
  suffices hx : ∃ u, appendBits v k t = .going u ∧ Sent s (n + 4) u by
    obtain ⟨u, hu, hsent⟩ := hx
    rw [hu] at hends
    exact ⟨u, hu, hsent, hends⟩
  unfold appendBits
  rw [if_neg (by omega)]
  by_cases h0 : k = 0
  · rw [if_pos h0]
    exact ⟨t, rfl, h.mono (by omega)⟩
  · rw [if_neg h0]
    have hlen : (t.acc ++ lowBits v k).length / 8 * 2 ≤ 4 := by
      rw [List.length_append, lowBits_length]
      have := ht.1
      omega
    obtain ⟨u, hu, hsent⟩ := drainBits_accepted (t.acc ++ lowBits v k) hs h ht.2 (by omega)
    exact ⟨u, hu, hsent.mono (by omega)⟩

theorem unstuff_cons {b : Byte} {l : List Byte} (h : ¬ (b = 0xFF#8 ∧ l.head? = some 0x00#8)) :
    unstuff (b :: l) = b :: unstuff l := by
  cases l with
  | nil => rfl
  | cons c l => rw [unstuff, if_neg (by simpa using h)]

/-- Stuffing is undone by deleting each 0x00 that follows a 0xFF (R272). -/
theorem unstuff_stuff (data : List Byte) : unstuff (stuff data) = data := by
  induction data with
  | nil => rfl
  | cons b data ih =>
    rw [stuff_cons]
    split
    · rename_i h
      subst h
      simp [unstuff, ih]
    · rename_i h
      rw [List.singleton_append, unstuff_cons (by simp [h]), ih]

end Sys2Proof.Machine
end

