-- ==== Sys2Proof/Laws/Coding.lean ====
section
/-! SUPPORT. What coding can do: everything the Huffman coder, one block and a whole MCU row can answer, the bits they append,
and that they complete when the sink accepts. -/

namespace Sys2Proof.Machine

/-! ### What the operations of an MCU row change -/

/-- Only the bit writer, the sink, the predictors and the transient block state differ. -/
def CodingOnly (s t : State) : Prop :=
  t = { s with
    pred := t.pred, acc := t.acc, ob := t.ob, answers := t.answers, draws := t.draws, sinkLog := t.sinkLog
    blkS := t.blkS, blkP := t.blkP, blkZ := t.blkZ, run := t.run, mcuIndex := t.mcuIndex, blockIndex := t.blockIndex }

theorem CodingOnly.refl (s : State) : CodingOnly s s := rfl

theorem CodingOnly.trans {s t u : State} (h : CodingOnly s t) (h' : CodingOnly t u) : CodingOnly s u := by
  unfold CodingOnly at *
  rw [h'] ; rw [h]

theorem WriterOnly.coding {s t : State} (h : WriterOnly s t) : CodingOnly s t := by
  unfold WriterOnly at h
  unfold CodingOnly
  rw [h]

/-- The fields coding leaves alone. -/
theorem CodingOnly.fields {s t : State} (h : CodingOnly s t) :
    t.cfg = s.cfg ∧ t.ctl = s.ctl ∧ t.rows = s.rows ∧ t.conf = s.conf ∧ t.slb = s.slb ∧ t.rb = s.rb ∧ t.qt = s.qt ∧
      t.huff = s.huff ∧ t.epoch = s.epoch ∧ t.result = s.result ∧ t.err = s.err ∧ t.cfgDim = s.cfgDim ∧
      t.cfgMode = s.cfgMode ∧ t.issue = s.issue ∧ t.inputs = s.inputs ∧ t.hostReads = s.hostReads := by
  rw [h]; simp

/-- What coding keeps from `s` on: only its fields have changed, every transfer was a full buffer, the buffer is not full, and
at most 7 bits are pending if they were. -/
structure Coding (s t : State) : Prop where
  only : CodingOnly s t
  answers : AnswersFrom s t
  sent : FullTransfers s t
  room : t.ob.length < obSize
  pending : s.acc.length < 8 → t.acc.length < 8

theorem Coding.refl {s : State} (h : s.ob.length < obSize) : Coding s s :=
  ⟨rfl, List.suffix_refl _, .refl s, h, fun h => h⟩

theorem Coding.trans {s t u : State} (h : Coding s t) (h' : Coding t u) : Coding s u :=
  ⟨h.only.trans h'.only, List.IsSuffix.trans h'.answers h.answers, h.sent.trans h'.sent, h'.room,
    fun hs => h'.pending (h.pending hs)⟩

/-- A change of the transient state and the predictors alone. -/
theorem Coding.silent {s t : State} (h : CodingOnly s t) (h1 : t.answers = s.answers) (h2 : t.sinkLog = s.sinkLog)
    (h3 : t.ob = s.ob) (h4 : t.acc = s.acc) (hs : s.ob.length < obSize) : Coding s t := by
  refine ⟨h, ?_, ⟨[], by simp [h2], by simp⟩, by rw [h3]; exact hs, by rw [h4]; exact fun h => h⟩
  unfold AnswersFrom
  rw [h1]

/-- A refused transfer in the middle of coding. -/
def CodingRaised (s t : State) : Prop :=
  ∃ u, CodingOnly s u ∧ t = raiseError .sinkWriteFailure u ∧ ∃ sent bs, u.sinkLog = s.sinkLog ++ sent ++ [⟨bs, false⟩] ∧
    (∀ x ∈ sent, x.ok = true ∧ x.bytes.length = obSize) ∧ bs.length = obSize ∧ u.ob = []

theorem SinkRaised.coding {s t : State} (h : SinkRaised s t) : CodingRaised s t := by
  obtain ⟨u, hu, h⟩ := h
  exact ⟨u, hu.coding, h⟩

theorem CodingRaised.after {s t u : State} (hc : CodingOnly s t) (hf : FullTransfers s t) (h : CodingRaised t u) :
    CodingRaised s u := by
  obtain ⟨v, hv, rfl, sent, bs, hlog, hsent, hlen, hob⟩ := h
  obtain ⟨a, ha, ha'⟩ := hf
  refine ⟨v, hc.trans hv, rfl, a ++ sent, bs, by rw [hlog, ha]; simp, fun x hx => ?_, hlen, hob⟩
  rcases List.mem_append.1 hx with hx | hx
  · exact ha' x hx
  · exact hsent x hx

/-! ### An operation that appends at most `n` bytes -/

/-- From `t`, the operation `x` ends in a state of `G` having appended at most `n` bytes, or in a refused transfer that leaves
the predictors in `P`, or stuck on a silent sink; and it completes if the sink accepts its next transfer and fewer than
`obSize` bytes are appended in all. -/
structure Flow.Writes (x : Flow) (t : State) (n : Nat) (P : PerComp Int → Prop) (G : State → Prop) : Prop where
  ends : x.Ends (fun u => Coding t u ∧ G u) (fun u => CodingRaised t u ∧ P u.pred) (StaysSilent t)
  accepted : ∀ s k, s.nextAnswer = .accepted → Sent s k t → k + n ≤ obSize → ∃ u, x = .going u ∧ Sent s (k + n) u

variable {P : PerComp Int → Prop}

theorem Flow.Writes.mono {x : Flow} {t : State} {n m : Nat} {G G' : State → Prop} (h : x.Writes t n P G) (hn : n ≤ m)
    (hG : ∀ u, Coding t u → G u → G' u) : x.Writes t m P G' := by
  refine ⟨h.ends.mono (fun u hu => ⟨hu.1, hG u hu.1 hu.2⟩) (fun _ h => h) (fun _ h => h), fun s k hs hk hb => ?_⟩
  obtain ⟨u, hu, hsent⟩ := h.accepted s k hs hk (by omega)
  exact ⟨u, hu, hsent.mono (by omega)⟩

theorem Flow.Writes.bind {x : Flow} {f : State → Flow} {t : State} {n m : Nat} {G G' : State → Prop}
    (hx : x.Writes t n P G) (hf : ∀ u, Coding t u → G u → (f u).Writes u m P G') : (x.bind f).Writes t (n + m) P G' := by
  refine ⟨Flow.Ends.bind hx.ends fun u ⟨hc, hu⟩ => ?_, fun s k hs hk hb => ?_⟩
  · exact (hf u hc hu).ends.mono (fun v hv => ⟨hc.trans hv.1, hv.2⟩) (fun v hv => ⟨hv.1.after hc.only hc.sent, hv.2⟩)
      (fun e he => he.of_suffix hc.answers)
  · obtain ⟨u, rfl, hsent⟩ := hx.accepted s k hs hk (by omega)
    obtain ⟨hc, hu⟩ := hx.ends
    obtain ⟨v, hv, hsent'⟩ := (hf u hc hu).accepted s (k + n) hs hsent (by omega)
    exact ⟨v, hv, by rwa [← Nat.add_assoc]⟩

/-- A change of state that appends nothing. -/
theorem Flow.Writes.silent {t u : State} {G : State → Prop} (hc : CodingOnly t u) (h1 : u.answers = t.answers)
    (h2 : u.sinkLog = t.sinkLog) (h3 : u.ob = t.ob) (h4 : u.acc = t.acc) (h5 : u.draws = t.draws)
    (ht : t.ob.length < obSize) (hG : G u) : (Flow.going u).Writes t 0 P G :=
  ⟨⟨Coding.silent hc h1 h2 h3 h4 ht, hG⟩, fun _ _ _ hk _ => ⟨u, rfl, hk.congr h2 h1 h5 h3⟩⟩

/-- An operation run from a state that differs in the transient state and the predictors only. -/
theorem Flow.Writes.from {x : Flow} {t t' : State} {n : Nat} {G : State → Prop} (h : x.Writes t' n P G) (hc : CodingOnly t t')
    (h1 : t'.answers = t.answers) (h2 : t'.sinkLog = t.sinkLog) (h3 : t'.ob = t.ob) (h4 : t'.acc = t.acc)
    (h5 : t'.draws = t.draws) (ht : t.ob.length < obSize) : x.Writes t n P G := by
  have hs : Coding t t' := Coding.silent hc h1 h2 h3 h4 ht
  refine ⟨h.ends.mono (fun v hv => ⟨hs.trans hv.1, hv.2⟩) (fun v hv => ⟨hv.1.after hc hs.sent, hv.2⟩)
      (fun e he => he.of_suffix hs.answers), fun s k ha hk hb => ?_⟩
  exact h.accepted s k ha (hk.congr h2 h1 h5 h3) hb

/-- Appending bits, as an operation of at most 4 bytes (R270). -/
theorem appendBits_writes (v : BitVec 16) {n : Nat} (hn : n ≤ 16) {t : State} (ht : t.WriterReady) (hP : P t.pred) :
    (appendBits v n t).Writes t 4 P fun u => WriterOnly t u ∧ Appended t u (lowBits v n) := by
  refine ⟨(appendBits_ends v hn ht).mono (fun u ⟨h, h'⟩ => ⟨⟨h.only.coding, h.answers, h.sent, h.room, fun _ => ?_⟩, h.only, h'⟩)
    (fun u hu => ⟨hu.coding, ?_⟩) (fun _ h => h), fun s k hs hk hb => ?_⟩
  · exact (Appended.ready h h').1
  · obtain ⟨w, hw, rfl, -⟩ := hu
    rw [raiseError_pred, show w.pred = t.pred by rw [hw]]
    exact hP
  · obtain ⟨u, hu, hsent, -⟩ := appendBits_accepted v hn hs hk ht hb
    exact ⟨u, hu, hsent⟩

theorem Coding.ready {s t : State} (h : Coding s t) (hs : s.WriterReady) : t.WriterReady := ⟨h.pending hs.1, h.room⟩

/-! ### Symbols and coefficients -/

theorem emitSymbol_writes (k : HuffClass) (tb : TableId) (sym : Nat) {t : State} (ht : t.WriterReady)
    (hc : t.HasCode k tb sym) (hP : P t.pred) :
    (emitSymbol k tb sym t).Writes t 4 P fun u => WriterOnly t u ∧ Appended t u (codeBits (t.huffCode k tb sym)) := by
  unfold emitSymbol
  simp only
  rw [if_neg (by have := hc.1; omega)]
  exact appendBits_writes _ hc.2 ht hP

theorem WriterOnly.huff {s t : State} (h : WriterOnly s t) : t.huff = s.huff := by rw [h]
theorem WriterOnly.run {s t : State} (h : WriterOnly s t) : t.run = s.run := by rw [h]
theorem WriterOnly.pred {s t : State} (h : WriterOnly s t) : t.pred = s.pred := by rw [h]
theorem WriterOnly.blkZ {s t : State} (h : WriterOnly s t) : t.blkZ = s.blkZ := by rw [h]

theorem huffCode_congr {s t : State} (h : t.huff = s.huff) (k : HuffClass) (tb : TableId) (sym : Nat) :
    t.huffCode k tb sym = s.huffCode k tb sym := by unfold State.huffCode; rw [h]

theorem HasCode.congr {s t : State} (h : t.huff = s.huff) {k : HuffClass} {tb : TableId} {sym : Nat} (hs : s.HasCode k tb sym) :
    t.HasCode k tb sym := by
  unfold State.HasCode at *
  rw [huffCode_congr h]
  exact hs

theorem cat_zero : cat 0 = 0 := rfl

theorem cat_pos {v : Int} (h : v ≠ 0) : 0 < cat v := by unfold cat; rw [if_neg h]; omega

theorem valueBits_zero : valueBits 0 = [] := rfl

/-- The magnitude category bounds the magnitude (R244). -/
theorem natAbs_lt_cat (v : Int) : v.natAbs < 2 ^ cat v := by
  unfold cat
  split
  · rename_i h; subst h; decide
  · rename_i h
    exact (Nat.log2_lt (by omega)).1 (Nat.lt_succ_self _)

/-- The magnitude category is the least such bound (R244). -/
theorem cat_le {v : Int} {n : Nat} (h : v.natAbs < 2 ^ n) : cat v ≤ n := by
  unfold cat
  split
  · omega
  · rename_i hv
    have := (Nat.log2_lt (by omega)).2 h
    omega

/-- The DC difference (R246). -/
theorem codeDiff_writes (tb : TableId) (diff : Int) {t : State} (ht : t.WriterReady) (hm : cat diff ≤ 16)
    (hc : t.HasCode .dc tb (cat diff)) (hP : P t.pred) :
    (codeDiff tb diff t).Writes t 8 P fun u =>
      WriterOnly t u ∧ Appended t u (dcBits ((t.huff.get .dc).get tb) diff) := by
  unfold codeDiff
  simp only
  refine Flow.Writes.bind (n := 4) (m := 4) (emitSymbol_writes .dc tb _ ht hc hP) fun u hcu ⟨hw, ha⟩ => ?_
  have hu := hcu.ready ht
  split
  · refine (appendBits_writes _ hm hu (by rw [hw.pred]; exact hP)).mono (Nat.le_refl _) fun v _ ⟨hw', ha'⟩ => ?_
    exact ⟨hw.trans hw', ha.trans ha'⟩
  · rename_i h0
    have hd : diff = 0 := by
      by_contra hne
      exact h0 (cat_pos hne)
    subst hd
    refine (Flow.Writes.silent (G := fun v => WriterOnly t v ∧ Appended t v _) (CodingOnly.refl u) rfl rfl rfl rfl rfl hu.2
      ⟨hw, ?_⟩).mono (by omega) fun v _ h => h
    rw [dcBits, valueBits_zero, List.append_nil]
    exact ha

/-- Only the run counter and the bit writer differ. -/
def RunOnly (s t : State) : Prop :=
  t = { s with run := t.run, acc := t.acc, ob := t.ob, answers := t.answers, draws := t.draws, sinkLog := t.sinkLog }

theorem RunOnly.refl (s : State) : RunOnly s s := rfl

theorem RunOnly.trans {s t u : State} (h : RunOnly s t) (h' : RunOnly t u) : RunOnly s u := by
  unfold RunOnly at *
  rw [h'] ; rw [h]

theorem WriterOnly.runOnly {s t : State} (h : WriterOnly s t) : RunOnly s t := by
  unfold WriterOnly at h
  unfold RunOnly
  rw [h]

theorem RunOnly.coding {s t : State} (h : RunOnly s t) : CodingOnly s t := by
  unfold RunOnly at h
  unfold CodingOnly
  rw [h]

theorem RunOnly.huff {s t : State} (h : RunOnly s t) : t.huff = s.huff := by rw [h]
theorem RunOnly.pred {s t : State} (h : RunOnly s t) : t.pred = s.pred := by rw [h]

/-- `Appended` looks at the pending bits and the stream only. -/
theorem Appended.setRun {s t : State} {bits : List Bool} (h : Appended s t bits) (n : Nat) :
    Appended s { t with run := n } bits := h.congr rfl rfl rfl rfl

/-- The ZRLs before a coefficient (R247). -/
theorem zrls_writes (tb : TableId) (n : Nat) : ∀ {t : State}, t.WriterReady → (0 < n → t.HasCode .ac tb 0xF0) → P t.pred →
    (runAll (List.replicate n (codeZrl tb)) t).Writes t (4 * n) P fun u =>
      RunOnly t u ∧ u.run = t.run - 16 * n ∧
        Appended t u (List.replicate n (codeBits (t.huffCode .ac tb 0xF0))).flatten := by
  induction n with
  | zero =>
    intro t ht _ _
    exact Flow.Writes.silent (CodingOnly.refl t) rfl rfl rfl rfl rfl ht.2 ⟨rfl, by omega, Appended.nil ht.1⟩
  | succ n ih =>
    intro t ht hn hP
    have hc := hn (by omega)
    rw [List.replicate_succ, runAll_cons]
    have h1 : (codeZrl tb t).Writes t 4 P fun u => RunOnly t u ∧ u.run = t.run - 16 ∧
        Appended t u (codeBits (t.huffCode .ac tb 0xF0)) := by
      unfold codeZrl
      refine Flow.Writes.bind (n := 4) (m := 0) (emitSymbol_writes .ac tb _ ht hc hP) fun u hcu ⟨hw, ha⟩ => ?_
      refine Flow.Writes.silent rfl rfl rfl rfl rfl rfl hcu.room ⟨?_, ?_, ha.setRun _⟩
      · exact hw.runOnly.trans (u := { u with run := u.run - 16 }) rfl
      · simp [hw.run]
    rw [show 4 * (n + 1) = 4 + 4 * n by omega]
    refine Flow.Writes.bind h1 fun u hcu ⟨hr, hrun, ha⟩ => ?_
    refine (ih (hcu.ready ht) (fun _ => HasCode.congr hr.huff hc) (by rw [hr.pred]; exact hP)).mono (Nat.le_refl _)
      fun v _ ⟨hr', hrun', ha'⟩ => ⟨hr.trans hr', by omega, ?_⟩
    rw [huffCode_congr hr.huff] at ha'
    rw [List.replicate_succ, List.flatten_cons]
    exact ha.trans ha'

/-- The symbols ENC_AC can form have codes (R218, R240). -/
def AcCodes (t : State) (tb : TableId) : Prop :=
  ∀ sym, sym < 256 → sym = 0x00 ∨ sym = 0xF0 ∨ (1 ≤ sym % 16 ∧ sym % 16 ≤ 10) → t.HasCode .ac tb sym

theorem AcCodes.congr {s t : State} (h : t.huff = s.huff) {tb : TableId} (hs : AcCodes s tb) : AcCodes t tb :=
  fun sym h1 h2 => HasCode.congr h (hs sym h1 h2)

theorem shift_or (r m : Nat) (hm : m < 16) : r <<< 4 ||| m = r * 16 + m := by
  rw [Nat.shiftLeft_eq, show 2 ^ 4 = 16 from rfl, Nat.mul_comm, ← Nat.two_pow_add_eq_or_of_lt (i := 4) (by simpa using hm)]

/-- One AC coefficient (R247): a zero lengthens the run; another is sent with the zeros before it, if the symbols it forms
have codes. -/
theorem codeAc_sends (tb : TableId) {v : Int} (hv : cat v ≤ 16) {t : State} (ht : t.WriterReady)
    (hz : v ≠ 0 → 0 < t.run / 16 → t.HasCode .ac tb 0xF0) (hs : v ≠ 0 → t.HasCode .ac tb ((t.run % 16) <<< 4 ||| cat v))
    (hP : P t.pred) :
    (codeAc tb v t).Writes t (if v = 0 then 0 else 4 * (t.run / 16) + 8) P fun u => RunOnly t u ∧
      u.run = (if v = 0 then t.run + 1 else 0) ∧
      Appended t u (if v = 0 then [] else
        (List.replicate (t.run / 16) (codeBits (t.huffCode .ac tb 0xF0))).flatten ++
          codeBits (t.huffCode .ac tb ((t.run % 16) <<< 4 ||| cat v)) ++ valueBits v) := by
  unfold codeAc
  by_cases h0 : v = 0
  · simp only [h0, if_true]
    exact Flow.Writes.silent rfl rfl rfl rfl rfl rfl ht.2 ⟨rfl, rfl, (Appended.nil ht.1).setRun _⟩
  · simp only [h0, if_false]
    rw [show 4 * (t.run / 16) + 8 = 4 * (t.run / 16) + (4 + (4 + 0)) by omega]
    refine Flow.Writes.bind (zrls_writes tb _ ht (hz h0) hP) fun u hcu ⟨hr, hrun, ha⟩ => ?_
    have hrun' : u.run = t.run % 16 := by omega
    have hu := hcu.ready ht
    have hcode : u.HasCode .ac tb (u.run <<< 4 ||| cat v) := by
      rw [hrun']; exact HasCode.congr hr.huff (hs h0)
    refine Flow.Writes.bind (emitSymbol_writes .ac tb _ hu hcode (by rw [hr.pred]; exact hP)) fun w hcw ⟨hw, haw⟩ => ?_
    rw [hrun', huffCode_congr hr.huff] at haw
    have hwr := hcw.ready hu
    refine Flow.Writes.bind (appendBits_writes (vbits v (cat v)) hv hwr (by rw [hw.pred, hr.pred]; exact hP))
      fun x hcx ⟨hx, hax⟩ => ?_
    refine Flow.Writes.silent rfl rfl rfl rfl rfl rfl hcx.room ⟨?_, rfl, ?_⟩
    · exact ((hr.trans hw.runOnly).trans hx.runOnly).trans (u := { x with run := 0 }) rfl
    · have := ((ha.trans haw).trans hax).setRun 0
      exact this

/-- One AC coefficient of a block of the sampler, with tables that code all of its symbols (R247, R218). -/
theorem codeAc_writes (tb : TableId) {v : Int} (hv : v.natAbs ≤ 1023) {t : State} (ht : t.WriterReady) (hc : AcCodes t tb)
    (hP : P t.pred) :
    (codeAc tb v t).Writes t (if v = 0 then 0 else 4 * (t.run / 16) + 8) P fun u => RunOnly t u ∧
      u.run = (if v = 0 then t.run + 1 else 0) ∧
      Appended t u (if v = 0 then [] else
        (List.replicate (t.run / 16) (codeBits (t.huffCode .ac tb 0xF0))).flatten ++
          codeBits (t.huffCode .ac tb (t.run % 16 * 16 + cat v)) ++ valueBits v) := by
  have hm : cat v ≤ 10 := cat_le (by omega)
  have hsym := shift_or (t.run % 16) (cat v) (by omega)
  rw [← hsym]
  refine codeAc_sends tb (by omega) ht (fun _ _ => hc 0xF0 (by omega) (by omega)) (fun h0 => ?_) hP
  have := cat_pos h0
  exact hc _ (by omega) (by omega)

theorem acBits_cons (table : HuffTable) (run : Nat) (v : Int) (vs : List Int) :
    acBits table run (v :: vs) = (if v = 0 then [] else
      (List.replicate (run / 16) (codeBits (table.symbol 0xF0))).flatten ++
        codeBits (table.symbol (run % 16 * 16 + cat v)) ++ valueBits v) ++
      acBits table (if v = 0 then run + 1 else 0) vs := by
  rw [acBits]
  split <;> simp

/-- The AC coefficients and the end of the block (R247). -/
theorem codeAcs_writes (tb : TableId) (vs : List Int) : ∀ {t : State}, (∀ v ∈ vs, v.natAbs ≤ 1023) → t.WriterReady →
    AcCodes t tb → P t.pred →
    ((runAll (vs.map (codeAc tb)) t).bind (codeEob tb)).Writes t (8 * vs.length + (t.run + vs.length) / 16 * 4 + 4) P fun u =>
      RunOnly t u ∧ Appended t u (acBits ((t.huff.get .ac).get tb) t.run vs) := by
  induction vs with
  | nil =>
    intro t _ ht hc hP
    simp only [List.map_nil, runAll_nil, Flow.bind_going, codeEob, acBits]
    split
    · exact (emitSymbol_writes .ac tb _ ht (hc 0 (by omega) (by omega)) hP).mono (by omega)
        fun u _ ⟨hw, ha⟩ => ⟨hw.runOnly, ha⟩
    · exact (Flow.Writes.silent (CodingOnly.refl t) rfl rfl rfl rfl rfl ht.2 ⟨rfl, Appended.nil ht.1⟩).mono (by omega)
        fun _ _ h => h
  | cons v vs ih =>
    intro t hvs ht hc hP
    simp only [List.map_cons, runAll_cons, Flow.bind_assoc]
    refine (Flow.Writes.bind (codeAc_writes tb (hvs v (by simp)) ht hc hP) fun u hcu ⟨hr, hrun, ha⟩ => ?_).mono (n :=
      (if v = 0 then 0 else 4 * (t.run / 16) + 8) +
        (8 * vs.length + ((if v = 0 then t.run + 1 else 0) + vs.length) / 16 * 4 + 4)) ?_ fun _ _ h => h
    · rw [← hrun]
      refine (ih (fun x hx => hvs x (by simp [hx])) (hcu.ready ht) (hc.congr hr.huff) (by rw [hr.pred]; exact hP)).mono
        (Nat.le_refl _) fun w _ ⟨hr', ha'⟩ => ⟨hr.trans hr', ?_⟩
      rw [hr.huff, hrun] at ha'
      rw [acBits_cons]
      exact ha.trans ha'
    · simp only [List.length_cons]
      split <;> omega

theorem mem_drop_of_block {z : Block} {p : Int → Prop} (h : ∀ k : Fin 64, k ≠ 0 → p z[k]) : ∀ v ∈ z.toList.drop 1, p v := by
  intro v hv
  obtain ⟨i, hi, rfl⟩ := List.getElem_of_mem hv
  simp only [List.length_drop, Vector.length_toList] at hi
  have := h ⟨i + 1, by omega⟩ (by intro h; have := congrArg Fin.val h; simp at this)
  simpa [Nat.add_comm] using this

/-- ENC_AC (R247). -/
theorem uopEncAc_writes (tb : TableId) {t : State} (hz : ∀ k : Fin 64, k ≠ 0 → (t.blkZ[k]).natAbs ≤ 1023)
    (ht : t.WriterReady) (hc : AcCodes t tb) (hP : P t.pred) :
    (uopEncAc tb t).Writes t 520 P fun u =>
      RunOnly t u ∧ Appended t u (acBits ((t.huff.get .ac).get tb) 0 (t.blkZ.toList.drop 1)) := by
  unfold uopEncAc
  have h := codeAcs_writes (P := P) tb (t.blkZ.toList.drop 1) (t := { t with run := 0 })
    (mem_drop_of_block (p := fun v => v.natAbs ≤ 1023) hz) ht (AcCodes.congr rfl hc) hP
  have hl : (t.blkZ.toList.drop 1).length = 63 := by simp
  rw [hl] at h
  refine (Flow.Writes.from (t := t) h rfl rfl rfl rfl rfl rfl ht.2).mono (by simp) fun u _ ⟨hr, ha⟩ => ⟨?_, ?_⟩
  · exact RunOnly.trans (t := { t with run := 0 }) rfl hr
  · exact ha.congr rfl rfl rfl rfl

/-! ### A symbol without a code (R248) -/

theorem emitSymbol_no_code {k : HuffClass} {tb : TableId} {sym : Nat} {t : State} (h : (t.huffCode k tb sym).len = 0) :
    emitSymbol k tb sym t = .fault .undefinedSymbol := if_pos h

/-- Where ENC_AC reaches a symbol without a code, whatever it appended before, it faults (R248): the sink accepts its next
transfer, so no refused transfer ends it first. -/
theorem codeAcs_faults (tb : TableId) (vs : List Int) : ∀ {s t : State} {k : Nat}, (∀ v ∈ vs, cat v ≤ 16) →
    (∀ sym, (t.huffCode .ac tb sym).len ≤ 16) → t.WriterReady → s.nextAnswer = .accepted → Sent s k t →
    k + (8 * vs.length + (t.run + vs.length) / 16 * 4) ≤ obSize →
    (∃ sym ∈ acSymbols t.run vs, (t.huffCode .ac tb sym).len = 0) →
    (runAll (vs.map (codeAc tb)) t).bind (codeEob tb) = .fault .undefinedSymbol := by
  induction vs with
  | nil =>
    intro s t k _ _ _ _ _ _ ⟨sym, hsym, h⟩
    rw [acSymbols] at hsym
    split at hsym
    · rename_i hr
      obtain rfl := List.mem_singleton.1 hsym
      rw [List.map_nil, runAll_nil, Flow.bind_going, codeEob, if_pos hr, emitSymbol_no_code h]
    · cases hsym
  | cons v vs ih =>
    intro s t k hv hl ht hs hk hb ⟨sym, hsym, h⟩
    rw [List.length_cons] at hb
    rw [List.map_cons, runAll_cons, Flow.bind_assoc]
    -- past a coefficient whose symbols have codes
    have next (hz : v ≠ 0 → 0 < t.run / 16 → t.HasCode .ac tb 0xF0)
        (hc : v ≠ 0 → t.HasCode .ac tb ((t.run % 16) <<< 4 ||| cat v))
        (hrest : sym ∈ acSymbols (if v = 0 then t.run + 1 else 0) vs) :
        ((codeAc tb v t).bind fun u => (runAll (vs.map (codeAc tb)) u).bind (codeEob tb)) = .fault .undefinedSymbol := by
      have hw := codeAc_sends (P := fun _ => True) tb (hv v (by simp)) ht hz hc trivial
      obtain ⟨u, hu, hsent⟩ := hw.accepted s k hs hk (by split <;> omega)
      have hends := hw.ends
      rw [hu] at hends ⊢
      obtain ⟨hcu, hr, hrun, -⟩ := hends
      rw [Flow.bind_going]
      refine ih (fun x hx => hv x (by simp [hx])) (fun sym => by rw [huffCode_congr hr.huff]; exact hl sym) (hcu.ready ht) hs
        hsent ?_ ⟨sym, by rwa [hrun], by rwa [huffCode_congr hr.huff]⟩
      rw [hrun]
      split <;> omega
    rw [acSymbols] at hsym
    by_cases h0 : v = 0
    · rw [if_pos h0] at hsym
      exact next (absurd h0) (absurd h0) (by rwa [if_pos h0])
    · rw [if_neg h0] at hsym
      by_cases hz : 0 < t.run / 16 ∧ (t.huffCode .ac tb 0xF0).len = 0
      · -- the first ZRL has no code
        obtain ⟨n, hn⟩ := Nat.exists_eq_succ_of_ne_zero (Nat.pos_iff_ne_zero.1 hz.1)
        unfold codeAc codeZrl
        rw [if_neg h0, hn, List.replicate_succ, runAll_cons, emitSymbol_no_code hz.2]
        rfl
      · have hzrl : 0 < t.run / 16 → t.HasCode .ac tb 0xF0 := fun hp => ⟨by
          have := mt (And.intro hp) hz
          omega, hl _⟩
        by_cases hc : (t.huffCode .ac tb ((t.run % 16) <<< 4 ||| cat v)).len = 0
        · -- the run/size symbol has no code
          have hw := zrls_writes (P := fun _ => True) tb (t.run / 16) ht hzrl trivial
          obtain ⟨u, hu, -⟩ := hw.accepted s k hs hk (by omega)
          have hends := hw.ends
          rw [hu] at hends
          obtain ⟨-, hr, hrun, -⟩ := hends
          have hrun' : u.run = t.run % 16 := by omega
          unfold codeAc
          rw [if_neg h0, hu, Flow.bind_going]
          simp only
          rw [hrun', emitSymbol_no_code (by rw [huffCode_congr hr.huff]; exact hc)]
          rfl
        · refine next (fun _ => hzrl) (fun _ => ⟨by omega, hl _⟩) ?_
          rw [if_neg h0]
          rcases List.mem_append.1 hsym with hm | hm
          · obtain ⟨hn, rfl⟩ := List.mem_replicate.1 hm
            exact absurd ⟨Nat.pos_of_ne_zero hn, h⟩ hz
          · rcases List.mem_cons.1 hm with rfl | hm
            · exact absurd h hc
            · exact hm

/-- ENC_AC at a symbol without a code (R248). -/
theorem uopEncAc_faults (tb : TableId) {t : State} (hz : ∀ k : Fin 64, k ≠ 0 → cat t.blkZ[k] ≤ 16) (ht : t.WriterReady)
    (hl : ∀ sym, (t.huffCode .ac tb sym).len ≤ 16) (hs : t.nextAnswer = .accepted)
    (h : ∃ sym ∈ acSymbols 0 (t.blkZ.toList.drop 1), (t.huffCode .ac tb sym).len = 0) :
    uopEncAc tb t = .fault .undefinedSymbol :=
  codeAcs_faults tb (t.blkZ.toList.drop 1) (s := { t with run := 0 }) (t := { t with run := 0 }) (k := 0)
    (mem_drop_of_block (p := fun v => cat v ≤ 16) hz) hl ht hs (Sent.refl _) (by simp [obSize]) h

/-- ENC_DC (R246). -/
theorem uopEncDc_writes (c : Comp) (tb : TableId) {t : State} (hm : cat (t.blkZ[0] - t.pred.get c) ≤ 16)
    (ht : t.WriterReady) (hc : t.HasCode .dc tb (cat (t.blkZ[0] - t.pred.get c))) (hP : P (t.pred.set c t.blkZ[0])) :
    (uopEncDc c tb t).Writes t 8 P fun u =>
      WriterOnly { t with pred := t.pred.set c t.blkZ[0] } u ∧
        Appended t u (dcBits ((t.huff.get .dc).get tb) (t.blkZ[0] - t.pred.get c)) := by
  unfold uopEncDc
  have h := codeDiff_writes (P := P) tb (t.blkZ[0] - t.pred.get c) (t := { t with pred := t.pred.set c t.blkZ[0] }) ht hm
    (HasCode.congr rfl hc) hP
  exact (Flow.Writes.from (t := t) h rfl rfl rfl rfl rfl rfl ht.2).mono (Nat.le_refl _)
    fun u _ ⟨hw, ha⟩ => ⟨hw, ha.congr rfl rfl rfl rfl⟩

end Sys2Proof.Machine
end

