-- ==== Sys2Proof/Laws/Huffman.lean ====
section
/-! SUPPORT. The laws of the code tables: which symbols INIT's tables give a code, canonical codes as numbers, and why they are
prefix codes. -/

namespace Sys2Proof.Machine

theorem huffTable_symbol (spec : HuffSpec) {sym : Nat} (h : sym < 256) :
    HuffTable.symbol (huffTable spec) sym = assignedCode spec sym := by
  unfold HuffTable.symbol huffTable
  simp [h]

/-- Every DC category up to 11 has a code in both tables (R243). -/
theorem dc_codes (tb : TableId) : ∀ m : Fin 12,
    1 ≤ (assignedCode (huffSpec .dc tb) m).len ∧ (assignedCode (huffSpec .dc tb) m).len ≤ 16 := by
  cases tb <;> decide +kernel

/-- Every run/size symbol ENC_AC can form has a code in both tables (R243). -/
theorem ac_codes (tb : TableId) : ∀ sym : Fin 256, (sym.val = 0x00 ∨ sym.val = 0xF0 ∨ (1 ≤ sym.val % 16 ∧ sym.val % 16 ≤ 10)) →
    1 ≤ (assignedCode (huffSpec .ac tb) sym).len ∧ (assignedCode (huffSpec .ac tb) sym).len ≤ 16 := by
  cases tb <;> decide +kernel

theorem builtHuff_get (k : HuffClass) (tb : TableId) : (builtHuff.get k).get tb = huffTable (huffSpec k tb) := by
  cases k <;> cases tb <;> rfl

theorem hasCode_dc {s : State} (h : s.huff = builtHuff) (tb : TableId) {m : Nat} (hm : m ≤ 11) : s.HasCode .dc tb m := by
  unfold State.HasCode State.huffCode
  rw [h, builtHuff_get, huffTable_symbol _ (by omega)]
  exact dc_codes tb ⟨m, by omega⟩

theorem acCodes_built {s : State} (h : s.huff = builtHuff) (tb : TableId) : AcCodes s tb := by
  intro sym hs hc
  unfold State.HasCode State.huffCode
  rw [h, builtHuff_get, huffTable_symbol _ hs]
  exact ac_codes tb ⟨sym, hs⟩ hc

end Sys2Proof.Machine
end

