-- ==== Sys2Proof/Laws/Memory.lean ====
section
/-! SUPPORT. The laws of memory: a byte written is the byte read, every other byte is as before, and every operation keeps
the canonical form and its bound. -/

namespace Sys2Proof.Machine

namespace Memory

@[simp] theorem read_write (m : Memory) (a b : Nat) (v : Byte) :
    Memory.read (Memory.write m a v) b = if b = a then some v else Memory.read m b := by
  induction m with
  | nil => simp [write, read, eq_comm]
  | cons p rest ih =>
    obtain ⟨k, u⟩ := p
    by_cases h1 : a < k
    · simp [write, h1, read, eq_comm]
    · by_cases h2 : a = k
      · subst h2
        by_cases h3 : b = a
        · simp [write, read, h3]
        · simp [write, read, h3, Ne.symm h3]
      · rw [write, if_neg h1, if_neg h2, read, read, ih]
        by_cases h3 : b = a
        · subst h3; simp [Ne.symm h2]
        · simp [h3]

/-- A bound on every listed address survives a write inside it. -/
theorem write_bound {m : Memory} {n a : Nat} (v : Byte) (hm : ∀ p ∈ m, p.1 < n) (ha : a < n) :
    ∀ p ∈ Memory.write m a v, p.1 < n := by
  induction m with
  | nil => simp [write]; exact ha
  | cons q rest ih =>
    obtain ⟨k, u⟩ := q
    have hk : k < n := hm (k, u) (by simp)
    have hr : ∀ p ∈ rest, p.1 < n := fun p hp => hm p (by simp [hp])
    unfold write
    split
    · intro p hp
      rcases List.mem_cons.1 hp with rfl | hp
      · exact ha
      · exact hm p hp
    · split
      · intro p hp
        rcases List.mem_cons.1 hp with rfl | hp
        · exact ha
        · exact hr p hp
      · intro p hp
        rcases List.mem_cons.1 hp with rfl | hp
        · exact hk
        · exact ih hr p hp

/-- An address below every listed one stays below after a write above it. -/
theorem write_above {m : Memory} {k a : Nat} (v : Byte) (hm : ∀ p ∈ m, k < p.1) (ha : k < a) :
    ∀ p ∈ Memory.write m a v, k < p.1 := by
  induction m with
  | nil => simp [write]; exact ha
  | cons q rest ih =>
    obtain ⟨l, u⟩ := q
    have hr : ∀ p ∈ rest, k < p.1 := fun p hp => hm p (by simp [hp])
    unfold write
    split
    · intro p hp
      rcases List.mem_cons.1 hp with rfl | hp
      · exact ha
      · exact hm p hp
    · split
      · intro p hp
        rcases List.mem_cons.1 hp with rfl | hp
        · exact ha
        · exact hr p hp
      · intro p hp
        rcases List.mem_cons.1 hp with rfl | hp
        · exact hm _ (by simp)
        · exact ih hr p hp

theorem write_wf {m : Memory} (a : Nat) (v : Byte) (h : Memory.wf m) : Memory.wf (Memory.write m a v) := by
  induction m with
  | nil => simp [write, wf]
  | cons q rest ih =>
    obtain ⟨k, u⟩ := q
    have ⟨hk, hr⟩ := List.pairwise_cons.1 h
    unfold write
    split
    · rename_i hlt
      refine List.pairwise_cons.2 ⟨fun p hp => ?_, h⟩
      rcases List.mem_cons.1 hp with rfl | hp
      · exact hlt
      · exact Nat.lt_trans hlt (hk p hp)
    · split
      · rename_i heq
        subst heq
        exact List.pairwise_cons.2 ⟨hk, hr⟩
      · exact List.pairwise_cons.2 ⟨write_above v hk (by omega), ih hr⟩

theorem writeRange_wf (bs : List Byte) : ∀ {m : Memory} (a : Nat), Memory.wf m → Memory.wf (Memory.writeRange m a bs) := by
  induction bs with
  | nil => intro m a h; exact h
  | cons b bs ih => intro m a h; exact ih (a + 1) (write_wf a b h)

theorem writeRange_bound (bs : List Byte) : ∀ {m : Memory} {n a : Nat}, (∀ p ∈ m, p.1 < n) → a + bs.length ≤ n →
    ∀ p ∈ Memory.writeRange m a bs, p.1 < n := by
  induction bs with
  | nil => intro m n a h _; exact h
  | cons b bs ih =>
    intro m n a h ha
    simp only [List.length_cons] at ha
    exact ih (write_bound b h (by omega)) (by omega)

/-- Reading after a range is written: the bytes written, and elsewhere what was there. -/
theorem read_writeRange (bs : List Byte) : ∀ (m : Memory) (a x : Nat),
    Memory.read (Memory.writeRange m a bs) x =
      if a ≤ x ∧ x < a + bs.length then bs[x - a]? else Memory.read m x := by
  induction bs with
  | nil => intro m a x; simp [writeRange]
  | cons b bs ih =>
    intro m a x
    rw [writeRange, ih, read_write]
    by_cases h : x = a
    · subst h; simp
    · by_cases h2 : a + 1 ≤ x ∧ x < a + 1 + bs.length
      · have e : x - a = (x - (a + 1)) + 1 := by omega
        rw [if_pos h2, if_pos (by simp only [List.length_cons]; omega), e, List.getElem?_cons_succ]
      · rw [if_neg h2, if_neg h, if_neg (by simp only [List.length_cons]; omega)]

/-- What a range read answers: every byte, if each has been written. -/
theorem readRange_eq_some {m : Memory} (n : Nat) : ∀ (a : Nat), (∀ j, j < n → (Memory.read m (a + j)).isSome) →
    Memory.readRange m a n = some ((List.range n).map fun j => (Memory.read m (a + j)).getD 0#8) := by
  induction n with
  | zero => intro a _; rfl
  | succ n ih =>
    intro a h
    have h0 := h 0 (by omega)
    obtain ⟨b, hb⟩ := Option.isSome_iff_exists.1 h0
    have hr := ih (a + 1) fun j hj => by
      have := h (j + 1) (by omega)
      rwa [show a + 1 + j = a + (j + 1) by omega]
    simp only [Nat.add_zero] at hb
    rw [readRange, hb, hr, List.range_succ_eq_map]
    simp [hb, Function.comp_def, Nat.add_assoc, Nat.add_comm 1]

/-- A range read that answers found every byte written. -/
theorem readRange_isSome {m : Memory} (n : Nat) : ∀ {a : Nat} {bs : List Byte}, Memory.readRange m a n = some bs →
    bs.length = n ∧ ∀ j, j < n → (Memory.read m (a + j)).isSome := by
  induction n with
  | zero => intro a bs h; simp [readRange] at h; subst h; simp
  | succ n ih =>
    intro a bs h
    rw [readRange] at h
    split at h
    · rename_i b bs' hb hr
      obtain ⟨hl, hs⟩ := ih hr
      cases h
      refine ⟨by simp [hl], fun j hj => ?_⟩
      cases j with
      | zero => simp [hb]
      | succ j =>
        have := hs j (by omega)
        rwa [show a + 1 + j = a + (j + 1) by omega] at this
    · cases h

end Memory

end Sys2Proof.Machine
end

