-- ==== Sys2Proof/Laws/RowBuffer.lean ====
section
/-! SUPPORT. The laws of the row buffer: what a row write changes, and everything the colour converter and the two padding
operations can do. -/

namespace Sys2Proof.Machine

theorem row_writeRow (s : State) (c d : Comp) (r r' x : Nat) (bs : List Byte) :
    (s.writeRow c r x bs).row d r' =
      if d = c ∧ r' = r ∧ r < 16 then (s.row c r).writeRange x bs else s.row d r' := by
  unfold State.row State.writeRow
  simp only [PerComp.get_set]
  by_cases hd : d = c
  · subst hd
    by_cases hr : r' = r
    · subst hr
      by_cases h16 : r' < 16
      · simp [h16, State.row]
      · simp [h16]
    · have : r ≠ r' := fun h => hr h.symm
      simp [Vector.getElem?_setIfInBounds_ne this, hr]
  · simp [hd]

/-- A row write sets the samples it names and no other. -/
theorem stored_writeRow (s : State) (c d : Comp) (r r' x0 x : Nat) (bs : List Byte) :
    (s.writeRow c r x0 bs).stored d r' x =
      if d = c ∧ r' = r ∧ r < 16 ∧ x0 ≤ x ∧ x < x0 + bs.length then bs[x - x0]? else s.stored d r' x := by
  unfold State.stored
  rw [row_writeRow]
  by_cases h : d = c ∧ r' = r ∧ r < 16
  · obtain ⟨rfl, rfl, h16⟩ := h
    rw [if_pos ⟨rfl, rfl, h16⟩, Memory.read_writeRange]
    simp [h16]
  · rw [if_neg h, if_neg]
    rintro ⟨h1, h2, h3, -⟩
    exact h ⟨h1, h2, h3⟩

theorem sample_eq (s : State) (c : Comp) (r x : Nat) :
    s.sample c r x = (s.stored c r x).getD (Config.unwrittenSample s.epoch (compIndex c) r x) := rfl

/-- Only the row buffer differs. -/
def RbOnly (s t : State) : Prop := t = { s with rb := t.rb }

theorem RbOnly.refl (s : State) : RbOnly s s := rfl

theorem RbOnly.trans {s t u : State} (h : RbOnly s t) (h' : RbOnly t u) : RbOnly s u := by
  unfold RbOnly at *
  rw [h'] ; rw [h]

theorem rbOnly_writeRow (s : State) (c : Comp) (r x : Nat) (bs : List Byte) : RbOnly s (s.writeRow c r x bs) := rfl

/-- Writing one row in each of several components. -/
theorem stored_foldl_writeRow (f : Comp → List Byte) (r x0 : Nat) (cs : List Comp) : ∀ (s : State),
    RbOnly s (cs.foldl (fun t c => t.writeRow c r x0 (f c)) s) ∧
    (cs.Nodup → ∀ d r' x, (cs.foldl (fun t c => t.writeRow c r x0 (f c)) s).stored d r' x =
      if d ∈ cs ∧ r' = r ∧ r < 16 ∧ x0 ≤ x ∧ x < x0 + (f d).length then (f d)[x - x0]? else s.stored d r' x) := by
  induction cs with
  | nil => intro s; exact ⟨rfl, fun _ d r' x => by simp⟩
  | cons c cs ih =>
    intro s
    obtain ⟨h1, h2⟩ := ih (s.writeRow c r x0 (f c))
    refine ⟨(rbOnly_writeRow s c r x0 (f c)).trans h1, fun hn d r' x => ?_⟩
    obtain ⟨hc, hn⟩ := List.nodup_cons.1 hn
    rw [List.foldl_cons, h2 hn, stored_writeRow]
    by_cases hd : d = c
    · subst hd; simp [hc]
    · simp [hd]

/-- Row writes of several components, given as a list of pairs. -/
theorem foldl_writeRow_map (f : Comp → List Byte) (r : Nat) (cs : List Comp) (s : State) :
    (cs.map fun c => (c, f c)).foldl (fun s p => s.writeRow p.1 r 0 p.2) s =
      cs.foldl (fun t c => t.writeRow c r 0 (f c)) s := by
  induction cs generalizing s with
  | nil => rfl
  | cons c cs ih => simp only [List.map_cons, List.foldl_cons]; exact ih _

theorem comps_nodup (ss : Subsamp) : ss.comps.Nodup := by cases ss <;> decide

theorem hasSamples_iff (s : State) (r n : Nat) : s.hasSamples r n = true ↔ r < 16 ∧ n ≤ s.cfg.maxPaddedWidth := by
  unfold State.hasSamples
  rw [Bool.and_eq_true, decide_eq_true_iff, decide_eq_true_iff, show maxMcuH = 16 from rfl]

/-! ### The source scanline -/

theorem sourceBytes_eq {s : State} {n : Nat} (h : s.SourceWritten n) :
    s.sourceBytes n = some ((List.range n).map fun j => (s.slb.read j).getD 0#8) := by
  unfold State.sourceBytes
  rw [Memory.readRange_eq_some n 0 (by simpa [State.SourceWritten] using h)]
  simp

theorem sourceBytes_none {s : State} {n : Nat} (h : ¬ s.SourceWritten n) : s.sourceBytes n = none := by
  unfold State.sourceBytes
  cases hr : Memory.readRange s.slb 0 n with
  | none => rfl
  | some bs => exact (h (by simpa [State.SourceWritten] using (Memory.readRange_isSome n hr).2)).elim

theorem sourceWritten_of_bytes {s : State} {n : Nat} {bs : List Byte} (h : s.sourceBytes n = some bs) : s.SourceWritten n := by
  by_contra hn
  rw [sourceBytes_none hn] at h
  cases h

theorem rgbPixels_map (f : Nat → Byte) (n : Nat) : ∀ a : Nat, rgbPixels ((List.range' a (3 * n)).map f) =
    (List.range n).map fun x => (f (a + 3 * x), f (a + 3 * x + 1), f (a + 3 * x + 2)) := by
  induction n with
  | zero => intro a; rfl
  | succ n ih =>
    intro a
    rw [show 3 * (n + 1) = 3 * n + 1 + 1 + 1 by omega, List.range'_succ, List.range'_succ, List.range'_succ]
    simp only [List.map_cons, rgbPixels]
    rw [ih (a + 1 + 1 + 1), List.range_succ_eq_map]
    simp only [List.map_cons, List.map_map, Nat.mul_zero, Nat.add_zero]
    congr 1
    apply List.map_congr_left
    intro x _
    have h : a + 1 + 1 + 1 + 3 * x = a + 3 * (x + 1) := by omega
    simp only [Function.comp_apply, Nat.succ_eq_add_one]
    rw [h]

/-- The pixels of a written scanline. -/
theorem rgbPixels_source (s : State) (n : Nat) :
    rgbPixels ((List.range (3 * n)).map fun j => (s.slb.read j).getD 0#8) =
      (List.range n).map fun x =>
        ((s.slb.read (3 * x)).getD 0#8, (s.slb.read (3 * x + 1)).getD 0#8, (s.slb.read (3 * x + 2)).getD 0#8) := by
  rw [List.range_eq_range', rgbPixels_map]
  simp

/-! ### Converted samples -/

theorem lumaOf_toNat (r g b : Byte) :
    (lumaOf (r, g, b)).toNat = (r.toNat * 19595 + g.toNat * 38470 + b.toNat * 7471 + 32768) / 65536 := by
  have hr := r.isLt; have hg := g.isLt; have hb := b.isLt
  have h : asr ((r.toNat : Int) * 19595 + (g.toNat : Int) * 38470 + (b.toNat : Int) * 7471 + 32768) 16 =
      (((r.toNat * 19595 + g.toNat * 38470 + b.toNat * 7471 + 32768) / 65536 : Nat) : Int) := by
    unfold asr; push_cast; rfl
  simp only [lumaOf, h, BitVec.ofInt_natCast, BitVec.toNat_ofNat]
  omega

theorem sat8_toNat (v : Int) : ((sat8 v).toNat : Int) = max 0 (min 255 v) := by
  simp only [sat8, clamp, BitVec.toNat_ofInt]
  split
  · simp; omega
  · split
    · simp; omega
    · have : (v % 256).toNat = v.toNat := by omega
      simp only [Nat.reducePow, Nat.cast_ofNat, this]; omega

theorem cbOf_toNat (r g b : Byte) :
    ((cbOf (r, g, b)).toNat : Int) =
      max 0 (min 255 (128 + ((r.toNat : Int) * (-11059) + g.toNat * (-21709) + b.toNat * 32768 + 32768) / 65536)) := by
  simp only [cbOf, sat8_toNat, asr]
  norm_num

theorem crOf_toNat (r g b : Byte) :
    ((crOf (r, g, b)).toNat : Int) =
      max 0 (min 255 (128 + ((r.toNat : Int) * 32768 + g.toNat * (-27439) + b.toNat * (-5329) + 32768) / 65536)) := by
  simp only [crOf, sat8_toNat, asr]
  norm_num

/-! ### What the conversions do -/

/-- Everything a conversion can do: `f` gives the samples of each component of `cs`, from column 0 on. -/
theorem convertRow_eq (k : Nat) (cs : List Comp) (f : List Byte → Comp → List Byte) (r : Nat) (s : State) :
    convertRow k (fun bytes => cs.map fun c => (c, f bytes c)) r s =
      if s.hasSamples r s.conf.w.toNat then
        match s.sourceBytes (k * s.conf.w.toNat) with
        | none => .fault .slbByteNeverWritten
        | some bytes => .going (cs.foldl (fun t c => t.writeRow c r 0 (f bytes c)) s)
      else .fault .outsideRowBuffer := by
  unfold convertRow
  split
  · cases s.sourceBytes (k * s.conf.w.toNat) with
    | none => rfl
    | some bytes => simp only; rw [← foldl_writeRow_map]
  · rfl

/-- The components a conversion writes and the samples it gives each. -/
def convSamples (ch : Channels) (bytes : List Byte) : Comp → List Byte
  | .y => match ch with
    | .one => bytes
    | .three => (rgbPixels bytes).map lumaOf
  | .cb => match ch with
    | .one => bytes.map fun _ => 128#8
    | .three => (rgbPixels bytes).map cbOf
  | .cr => match ch with
    | .one => bytes.map fun _ => 128#8
    | .three => (rgbPixels bytes).map crOf

theorem uopConvRgbY_eq (r : Nat) : uopConvRgbY r = convertRow 3 (fun b => [Comp.y].map fun c => (c, convSamples .three b c)) r := rfl
theorem uopConvRgbYcc_eq (r : Nat) :
    uopConvRgbYcc r = convertRow 3 (fun b => [Comp.y, .cb, .cr].map fun c => (c, convSamples .three b c)) r := rfl
theorem uopConvGrayY_eq (r : Nat) : uopConvGrayY r = convertRow 1 (fun b => [Comp.y].map fun c => (c, convSamples .one b c)) r := rfl
theorem uopConvGrayYcc_eq (r : Nat) :
    uopConvGrayYcc r = convertRow 1 (fun b => [Comp.y, .cb, .cr].map fun c => (c, convSamples .one b c)) r := rfl

/-- FEED's conversion, as one conversion of the components in use (R154). -/
theorem convertScanline_eq (r : Nat) (s : State) :
    convertScanline r s =
      convertRow s.conf.ch.bytes (fun b => s.conf.ss.comps.map fun c => (c, convSamples s.conf.ch b c)) r s := by
  unfold convertScanline
  cases hc : s.conf.ch <;> cases hs : s.conf.ss <;> rfl

/-- The samples of a written scanline: one for each pixel. -/
theorem convSamples_source (s : State) (ch : Channels) (n : Nat) (c : Comp) :
    (convSamples ch ((List.range (ch.bytes * n)).map fun j => (s.slb.read j).getD 0#8) c).length = n ∧
    ∀ x, x < n → ∃ b, (convSamples ch ((List.range (ch.bytes * n)).map fun j => (s.slb.read j).getD 0#8) c)[x]? = some b ∧
      (b.toNat : Int) = State.converted { s with conf := { s.conf with ch := ch } } c x := by
  cases ch with
  | one =>
    have h1 : Channels.bytes .one * n = n := by simp [Channels.bytes]
    rw [h1]
    refine ⟨by cases c <;> simp [convSamples], fun x hx => ?_⟩
    cases c
    · exact ⟨(s.slb.read x).getD 0#8, by simp [convSamples, hx], by simp [State.converted, State.source]⟩
    · exact ⟨128#8, by simp [convSamples, hx], by simp [State.converted]⟩
    · exact ⟨128#8, by simp [convSamples, hx], by simp [State.converted]⟩
  | three =>
    have h3 : Channels.bytes .three * n = 3 * n := rfl
    rw [h3]
    unfold convSamples
    rw [rgbPixels_source]
    refine ⟨by cases c <;> simp, fun x hx => ?_⟩
    cases c
    · refine ⟨_, by simp [hx]; rfl, ?_⟩
      rw [lumaOf_toNat]; simp [State.converted, State.source]
    · refine ⟨_, by simp [hx]; rfl, ?_⟩
      rw [cbOf_toNat]; simp [State.converted, State.source]
    · refine ⟨_, by simp [hx]; rfl, ?_⟩
      rw [crOf_toNat]; simp [State.converted, State.source]

theorem stored_converted {s : State} {cs : List Comp} (hn : cs.Nodup) {r : Nat} (hr : r < 16) (ch : Channels) :
    let t := cs.foldl (fun t c => t.writeRow c r 0
      (convSamples ch ((List.range (ch.bytes * s.conf.w.toNat)).map fun j => (s.slb.read j).getD 0#8) c)) s
    RbOnly s t ∧ ∀ c r' x,
      if c ∈ cs ∧ r' = r ∧ x < s.conf.w.toNat then
        (t.stored c r' x).map (fun b => (b.toNat : Int)) =
          some (State.converted { s with conf := { s.conf with ch := ch } } c x)
      else t.stored c r' x = s.stored c r' x := by
  intro t
  obtain ⟨h1, h2⟩ := stored_foldl_writeRow
    (fun c => convSamples ch ((List.range (ch.bytes * s.conf.w.toNat)).map fun j => (s.slb.read j).getD 0#8) c) r 0 cs s
  refine ⟨h1, fun c r' x => ?_⟩
  have hl := (convSamples_source s ch s.conf.w.toNat c).1
  have := h2 hn c r' x
  rw [hl] at this
  by_cases hc : c ∈ cs ∧ r' = r ∧ x < s.conf.w.toNat
  · obtain ⟨hc, rfl, hx⟩ := hc
    rw [if_pos ⟨hc, rfl, hx⟩]
    obtain ⟨b, hb, hv⟩ := (convSamples_source s ch s.conf.w.toNat c).2 x hx
    have : t.stored c r' x = some b := by
      rw [show t.stored c r' x = _ from this, if_pos ⟨hc, rfl, hr, by omega, by omega⟩]; simpa using hb
    rw [this]; simp [hv]
  · rw [if_neg hc, show t.stored c r' x = _ from this, if_neg]
    rintro ⟨h, h', -, -, h''⟩
    exact hc ⟨h, h', by omega⟩

/-- A conversion that completes (R150 to R154). -/
theorem convertRow_completes (cs : List Comp) (hn : cs.Nodup) (ch : Channels) {r : Nat} (hr : r < 16) {s : State}
    (hw : s.conf.w.toNat ≤ s.cfg.maxPaddedWidth) (hs : s.SourceWritten (ch.bytes * s.conf.w.toNat)) :
    ∃ t, convertRow ch.bytes (fun b => cs.map fun c => (c, convSamples ch b c)) r s = .going t ∧ RbOnly s t ∧ ∀ c r' x,
      if c ∈ cs ∧ r' = r ∧ x < s.conf.w.toNat then
        (t.stored c r' x).map (fun b => (b.toNat : Int)) =
          some (State.converted { s with conf := { s.conf with ch := ch } } c x)
      else t.stored c r' x = s.stored c r' x := by
  rw [convertRow_eq, if_pos ((hasSamples_iff _ _ _).2 ⟨hr, hw⟩), sourceBytes_eq hs]
  exact ⟨_, rfl, stored_converted hn hr ch⟩

/-- Everything a conversion can do, completing or not. -/
theorem convertRow_ends (cs : List Comp) (ch : Channels) (r : Nat) (s : State) :
    (convertRow ch.bytes (fun b => cs.map fun c => (c, convSamples ch b c)) r s).Ends
      (fun t => RbOnly s t ∧ r < 16 ∧ s.conf.w.toNat ≤ s.cfg.maxPaddedWidth ∧ s.SourceWritten (ch.bytes * s.conf.w.toNat) ∧
        t = cs.foldl (fun t c => t.writeRow c r 0
          (convSamples ch ((List.range (ch.bytes * s.conf.w.toNat)).map fun j => (s.slb.read j).getD 0#8) c)) s)
      (fun _ => False)
      (fun f => (f = .slbByteNeverWritten ∧ ¬ s.SourceWritten (ch.bytes * s.conf.w.toNat)) ∨
        (f = .outsideRowBuffer ∧ ¬ (r < 16 ∧ s.conf.w.toNat ≤ s.cfg.maxPaddedWidth))) := by
  rw [convertRow_eq]
  by_cases h : s.hasSamples r s.conf.w.toNat
  · rw [if_pos h]
    rw [hasSamples_iff] at h
    by_cases hs : s.SourceWritten (ch.bytes * s.conf.w.toNat)
    · rw [sourceBytes_eq hs]
      exact ⟨(stored_foldl_writeRow _ r 0 cs s).1, h.1, h.2, hs, rfl⟩
    · rw [sourceBytes_none hs]; exact .inl ⟨rfl, hs⟩
  · rw [if_neg h]
    rw [hasSamples_iff] at h
    exact .inr ⟨rfl, h⟩

/-! ### Padding -/

/-- PAD_RIGHT that completes (R155). -/
theorem uopPadRight_completes {r : Nat} (hr : r < 16) {s : State} (hw : s.conf.wpad ≤ s.cfg.maxPaddedWidth) :
    ∃ t, uopPadRight r s = .going t ∧ RbOnly s t ∧ ∀ c r' x, t.stored c r' x =
      if c ∈ s.conf.ss.comps ∧ r' = r ∧ s.conf.w.toNat ≤ x ∧ x < s.conf.wpad
      then some (s.sample c r (s.conf.w.toNat - 1)) else s.stored c r' x := by
  unfold uopPadRight
  simp only
  rw [if_pos ((hasSamples_iff _ _ _).2 ⟨hr, hw⟩)]
  obtain ⟨h1, h2⟩ := stored_foldl_writeRow
    (fun c => List.replicate (s.conf.wpad - s.conf.w.toNat) (s.sample c r (s.conf.w.toNat - 1))) r s.conf.w.toNat
    s.conf.ss.comps s
  refine ⟨_, rfl, h1, fun c r' x => ?_⟩
  rw [h2 (comps_nodup _)]
  simp only [List.length_replicate, hr, true_and]
  by_cases hx : s.conf.w.toNat ≤ x ∧ x < s.conf.wpad
  · have h3 : s.conf.w.toNat ≤ x ∧ x < s.conf.w.toNat + (s.conf.wpad - s.conf.w.toNat) := by omega
    by_cases hc : c ∈ s.conf.ss.comps ∧ r' = r
    · rw [if_pos ⟨hc.1, hc.2, h3⟩, if_pos ⟨hc.1, hc.2, hx⟩, List.getElem?_replicate, if_pos (by omega)]
    · rw [if_neg (fun h => hc ⟨h.1, h.2.1⟩), if_neg (fun h => hc ⟨h.1, h.2.1⟩)]
  · rw [if_neg (fun h => hx (by omega)), if_neg (fun h => hx h.2.2)]

/-- PAD_BOTTOM that completes (R359). -/
theorem uopPadBottom_completes {r : Nat} (hr : r < 16) {s : State} (hw : s.conf.wpad ≤ s.cfg.maxPaddedWidth) :
    ∃ t, uopPadBottom r s = .going t ∧ RbOnly s t ∧ ∀ c r' x, t.stored c r' x =
      if c ∈ s.conf.ss.comps ∧ r' = r ∧ x < s.conf.wpad then some (s.lastRowSample c x) else s.stored c r' x := by
  unfold uopPadBottom
  rw [if_pos ((hasSamples_iff _ _ _).2 ⟨hr, hw⟩)]
  obtain ⟨h1, h2⟩ := stored_foldl_writeRow (fun c => (List.range s.conf.wpad).map (s.lastRowSample c)) r 0 s.conf.ss.comps s
  refine ⟨_, rfl, h1, fun c r' x => ?_⟩
  rw [h2 (comps_nodup _)]
  simp only [List.length_map, List.length_range, hr, true_and, Nat.zero_add, Nat.zero_le, Nat.sub_zero]
  by_cases hc : c ∈ s.conf.ss.comps ∧ r' = r ∧ x < s.conf.wpad
  · rw [if_pos hc, if_pos hc]; simp [hc.2.2]
  · rw [if_neg hc, if_neg hc]

theorem lastRowSample_eq (s : State) (c : Comp) (x : Nat) (h : 1 ≤ s.rows) :
    s.lastRowSample c x = s.sample c (s.rows - 1) x := by
  unfold State.lastRowSample
  obtain ⟨n, hn⟩ : ∃ n, s.rows = n + 1 := ⟨s.rows - 1, by omega⟩
  rw [hn]; rfl

theorem mcuW_pos (ss : Subsamp) : 0 < ss.mcuW := by cases ss <;> decide

theorem mcuH_le (ss : Subsamp) : ss.mcuH ≤ 16 := by cases ss <;> decide

/-- The padded width is at least the width, and a multiple of the MCU width. -/
theorem width_le_wpad (c : Conf) : c.w.toNat ≤ c.wpad := by
  unfold Conf.wpad paddedWidth
  have h := mcuW_pos c.ss
  have := Nat.div_add_mod (c.w.toNat + c.ss.mcuW - 1) c.ss.mcuW
  have := Nat.mod_lt (c.w.toNat + c.ss.mcuW - 1) h
  omega

theorem wpad_eq (c : Conf) : c.wpad = c.ss.mcuW * c.nmcux := by
  unfold Conf.nmcux Conf.wpad paddedWidth
  rw [Nat.mul_div_cancel_left _ (mcuW_pos c.ss)]

/-- The conversion and the padding of a FEED together (R150 to R155). -/
theorem feedRow_completes {s : State} (hr : s.rows < 16) (hw : s.conf.wpad ≤ s.cfg.maxPaddedWidth)
    (hs : s.SourceWritten (s.conf.ch.bytes * s.conf.w.toNat)) :
    ∃ t, runAll [convertScanline s.rows, uopPadRight s.rows] s = .going t ∧ RbOnly s t ∧ RowBuffered s t := by
  have hle := width_le_wpad s.conf
  obtain ⟨t, ht, hrb, hst⟩ := convertRow_completes s.conf.ss.comps (comps_nodup _) s.conf.ch hr (by omega) hs
  obtain ⟨u, hu, hrb', hst'⟩ := uopPadRight_completes (s := t) hr (by rw [hrb]; exact hw)
  refine ⟨u, ?_, hrb.trans hrb', fun c r x => ?_⟩
  · simp only [runAll_cons, convertScanline_eq, ht, Flow.bind_going, hu, runAll_nil]
  · have e1 : t.conf = s.conf := by rw [hrb]
    have hcv : ∀ c x, State.converted { s with conf := { s.conf with ch := s.conf.ch } } c x = s.converted c x := fun _ _ => rfl
    rw [hst' c r x, e1]
    by_cases hx : c ∈ s.conf.ss.comps ∧ r = s.rows ∧ x < s.conf.wpad
    · obtain ⟨hc, rfl, hx⟩ := hx
      rw [if_pos (⟨hc, rfl, hx⟩ : c ∈ s.conf.ss.comps ∧ s.rows = s.rows ∧ x < s.conf.wpad)]
      by_cases hxw : x < s.conf.w.toNat
      · rw [if_neg (by omega)]
        have := hst c s.rows x
        rw [if_pos ⟨hc, rfl, hxw⟩, hcv] at this
        rw [this, Nat.min_eq_left (by omega)]
      · rw [if_pos ⟨hc, rfl, by omega, hx⟩]
        have hw0 : 0 < s.conf.w.toNat := by
          by_contra h0
          have : s.conf.w.toNat = 0 := by omega
          unfold Conf.wpad paddedWidth at hx
          rw [this, Nat.div_eq_of_lt (by have := mcuW_pos s.conf.ss; omega)] at hx
          omega
        have := hst c s.rows (s.conf.w.toNat - 1)
        rw [if_pos ⟨hc, rfl, by omega⟩, hcv] at this
        rw [Nat.min_eq_right (by omega), sample_eq]
        cases hb : t.stored c s.rows (s.conf.w.toNat - 1) with
        | none => rw [hb] at this; cases this
        | some b => rw [hb] at this; simpa using this
    · rw [if_neg (fun h => hx ⟨h.1, h.2.1, h.2.2.2⟩), if_neg hx]
      have := hst c r x
      rw [if_neg (fun h => hx ⟨h.1, h.2.1, by omega⟩)] at this
      rw [this]

end Sys2Proof.Machine
end

