-- ==== Sys2Proof/Laws/McuRow.lean ====
section
/-! SUPPORT. What coding a block, an MCU and a whole MCU row can do (R352, R353). -/

namespace Sys2Proof.Machine

/-! ### Operations that take at most `n` of the sink's answers -/

/-- From `t`, the operation `x` ends in a state of `G`, in a refused transfer, or stuck on a silent sink; and it completes if the
sink's next `n` answers accept, leaving the later ones. -/
structure Flow.Takes (x : Flow) (t : State) (n : Nat) (P : PerComp Int → Prop) (G : State → Prop) : Prop where
  ends : x.Ends (fun u => Coding t u ∧ G u) (fun u => CodingRaised t u ∧ P u.pred) (StaysSilent t)
  accepted : ∀ m, t.SinkAccepts (n + m) → ∃ u, x = .going u ∧ u.SinkAccepts m ∧ u.draws = t.draws

variable {P : PerComp Int → Prop}

theorem SinkAccepts.mono {s : State} {n m : Nat} (h : s.SinkAccepts n) (hm : m ≤ n) : s.SinkAccepts m := by
  refine ⟨Nat.le_trans hm h.1, fun a ha => h.2 a ?_⟩
  exact (List.take_prefix_take_left hm).subset ha

theorem SinkAccepts.next {s : State} {n : Nat} (h : s.SinkAccepts (1 + n)) :
    s.nextAnswer = .accepted ∧ s.answers ≠ [] ∧ ∀ t : State, t.answers = s.answers.tail → t.SinkAccepts n := by
  obtain ⟨h1, h2⟩ := h
  cases ha : s.answers with
  | nil => rw [ha] at h1; simp at h1
  | cons a rest =>
    rw [ha] at h1 h2
    refine ⟨?_, by simp, fun t ht => ?_⟩
    · unfold State.nextAnswer
      rw [ha]
      exact h2 a (by rw [Nat.add_comm]; simp)
    · rw [List.tail_cons] at ht
      refine ⟨?_, fun b hb => h2 b ?_⟩
      · rw [ht]; simp only [List.length_cons] at h1; omega
      · rw [ht] at hb
        rw [Nat.add_comm 1 n, List.take_succ_cons]
        exact List.mem_cons_of_mem _ hb

theorem SinkAccepts.congr {s t : State} {n : Nat} (h : s.SinkAccepts n) (ht : t.answers = s.answers) : t.SinkAccepts n := by
  unfold State.SinkAccepts at *
  rw [ht]; exact h

theorem Flow.Writes.takes {x : Flow} {t : State} {n : Nat} {G : State → Prop} (h : x.Writes t n P G) (hn : n ≤ obSize) :
    x.Takes t 1 P G := by
  refine ⟨h.ends, fun m hm => ?_⟩
  obtain ⟨ha, hne, htail⟩ := SinkAccepts.next hm
  obtain ⟨u, hu, hsent⟩ := h.accepted t 0 ha (Sent.refl t) (by omega)
  refine ⟨u, hu, ?_⟩
  rcases hsent with ⟨-, h2, h3⟩ | ⟨-, h2, h3⟩
  · exact ⟨SinkAccepts.mono (SinkAccepts.congr hm h2) (by omega), h3⟩
  · exact ⟨htail u h2, h3 hne⟩

theorem Flow.Takes.mono {x : Flow} {t : State} {n m : Nat} {G G' : State → Prop} (h : x.Takes t n P G) (hn : n ≤ m)
    (hG : ∀ u, Coding t u → G u → G' u) : x.Takes t m P G' :=
  ⟨h.ends.mono (fun u hu => ⟨hu.1, hG u hu.1 hu.2⟩) (fun _ h => h) (fun _ h => h),
    fun k hk => h.accepted k (SinkAccepts.mono hk (by omega))⟩

theorem Flow.Takes.bind {x : Flow} {f : State → Flow} {t : State} {n m : Nat} {G G' : State → Prop}
    (hx : x.Takes t n P G) (hf : ∀ u, Coding t u → G u → (f u).Takes u m P G') : (x.bind f).Takes t (n + m) P G' := by
  refine ⟨Flow.Ends.bind hx.ends fun u ⟨hc, hu⟩ => ?_, fun k hk => ?_⟩
  · exact (hf u hc hu).ends.mono (fun v hv => ⟨hc.trans hv.1, hv.2⟩) (fun v hv => ⟨hv.1.after hc.only hc.sent, hv.2⟩)
      (fun e he => he.of_suffix hc.answers)
  · obtain ⟨u, rfl, hacc, hd⟩ := hx.accepted (m + k) (by rwa [← Nat.add_assoc])
    obtain ⟨hc, hu⟩ := hx.ends
    obtain ⟨v, hv, hacc', hd'⟩ := (hf u hc hu).accepted k hacc
    exact ⟨v, hv, hacc', hd'.trans hd⟩

theorem Flow.Takes.done {t : State} {G : State → Prop} (ht : t.ob.length < obSize) (hG : G t) :
    (Flow.going t).Takes t 0 P G :=
  ⟨⟨Coding.refl ht, hG⟩, fun m hm => ⟨t, rfl, by rwa [Nat.zero_add] at hm, rfl⟩⟩

/-! ### One block -/

/-- A state agrees with `s` in all that a block's coefficients depend on. -/
theorem coefBlock_congr {s t : State} (h : CodingOnly s t) (b : BlockLoad) : t.coefBlock b = s.coefBlock b := by
  obtain ⟨h1, -, -, -, -, h2, h3, -, h4, -⟩ := h.fields
  have hs : ∀ c r x, t.sample c r x = s.sample c r x := by
    intro c r x
    unfold State.sample State.row
    rw [h2, h4]
  have hb : t.sampleBlock b = s.sampleBlock b := by
    cases b <;> simp only [State.sampleBlock] <;> congr 1 <;> funext i j <;>
      simp only [fullSample, pairAverage, quadAverage, State.sampleInt, hs, h1]
  unfold State.coefBlock
  rw [hb, h3]

theorem predAfter_congr {s t : State} (h : CodingOnly s t) (bs : List BlockLoad) : ∀ p, predAfter t p bs = predAfter s p bs := by
  unfold predAfter
  simp only [coefBlock_congr h, implies_true]

theorem blocksBits_congr {s t : State} (h : CodingOnly s t) (bs : List BlockLoad) :
    ∀ p, blocksBits t p bs = blocksBits s p bs := by
  obtain ⟨-, -, -, -, -, -, -, h1, -⟩ := h.fields
  induction bs with
  | nil => intro p; rfl
  | cons b bs ih => intro p; simp only [blocksBits, coefBlock_congr h, h1, ih]

theorem blocksBits_append (s : State) (xs ys : List BlockLoad) : ∀ p,
    blocksBits s p (xs ++ ys) = blocksBits s p xs ++ blocksBits s (predAfter s p xs) ys := by
  induction xs with
  | nil => intro p; rfl
  | cons b bs ih =>
    intro p
    simp only [List.cons_append, blocksBits, ih, predAfter, List.foldl_cons, List.append_assoc]

theorem predAfter_append (s : State) (xs ys : List BlockLoad) (p : PerComp Int) :
    predAfter s p (xs ++ ys) = predAfter s (predAfter s p xs) ys := by
  unfold predAfter
  rw [List.foldl_append]

/-- The samples a block needs are in the row buffer. -/
def BlockLoad.inside (cfg : Config) : BlockLoad → Prop
  | .full _ br bc => 8 * br + 7 < 16 ∧ 8 * bc + 8 ≤ cfg.maxPaddedWidth
  | .h2v1 _ mx => 16 * mx + 16 ≤ cfg.maxPaddedWidth
  | .h2v2 _ mx => 16 * mx + 16 ≤ cfg.maxPaddedWidth

theorem load_run {s : State} {b : BlockLoad} (h : b.inside s.cfg) : b.run s = .going { s with blkS := s.sampleBlock b } := by
  cases b with
  | full c br bc =>
    simp only [BlockLoad.run, uopLoadFull]
    rw [if_pos ((hasSamples_iff _ _ _).2 h)]
    rfl
  | h2v1 c mx =>
    simp only [BlockLoad.run, uopLoadH2v1]
    rw [if_pos ((hasSamples_iff _ _ _).2 ⟨by omega, h⟩)]
    rfl
  | h2v2 c mx =>
    simp only [BlockLoad.run, uopLoadH2v2]
    rw [if_pos ((hasSamples_iff _ _ _).2 ⟨by omega, h⟩)]
    rfl

/-- The predictors are in range (R54). -/
def predsInRange (p : PerComp Int) : Prop := ∀ c, dcInRange (p.get c)

theorem predsInRange_set {p : PerComp Int} (h : predsInRange p) (c : Comp) {v : Int} (hv : dcInRange v) :
    predsInRange (p.set c v) := by
  intro d
  rw [PerComp.get_set]
  split
  · exact hv
  · exact h d

theorem coefBlock_range {s : State} (h : s.CodingReady) (b : BlockLoad) :
    dcInRange (s.coefBlock b)[0] ∧ ∀ k : Fin 64, k ≠ 0 → ((s.coefBlock b)[k]).natAbs ≤ 1022 :=
  coefBlock_bounds (sampleBlock_inBox h.bias b) (h.quant _)

theorem predAfter_inRange {s : State} (h : s.CodingReady) (bs : List BlockLoad) : ∀ {p}, predsInRange p →
    predsInRange (predAfter s p bs) := by
  induction bs with
  | nil => intro p hp; exact hp
  | cons b bs ih => intro p hp; exact ih (predsInRange_set hp _ (coefBlock_range h b).1)

/-- Coding keeps a row codable. -/
theorem State.CodingReady.after {s t : State} (h : s.CodingReady) (hc : Coding s t) (hp : predsInRange t.pred) : t.CodingReady := by
  obtain ⟨h1, -, -, h2, -, -, h3, h4, -⟩ := hc.only.fields
  exact ⟨by rw [h1, h2]; exact h.width, by rw [h1]; exact h.bias, by rw [h3]; exact h.quant, by rw [h4]; exact h.huff, hp,
    hc.ready h.writer⟩

theorem cat_diff_le {a b : Int} (ha : dcInRange a) (hb : dcInRange b) : cat (a - b) ≤ 11 := by
  unfold dcInRange at *
  exact cat_le (by omega)

theorem sampleBlock_counters (t : State) (b : BlockLoad) (mx i : Nat) :
    State.sampleBlock { t with mcuIndex := mx, blockIndex := i } b = t.sampleBlock b := by cases b <;> rfl

/-- Coding a block, after its load, transform and quantization. -/
theorem codeBlock_eq {t : State} {b : BlockLoad} (hb : b.inside t.cfg) (mx i : Nat) :
    ∃ t0 : State, t0 = { t with
      mcuIndex := mx, blockIndex := i, blkS := t0.blkS, blkP := t0.blkP, blkZ := t.coefBlock b } ∧
      codeBlock mx (b, i) t = (uopEncDc b.comp (htid b.comp) t0).bind (runAll [uopEncAc (htid b.comp)]) := by
  unfold codeBlock
  simp only [runAll_cons]
  rw [load_run (s := { t with mcuIndex := mx, blockIndex := i }) hb, sampleBlock_counters]
  unfold State.coefBlock uopFdct uopQuantZz
  simp only [runAll_cons, Flow.bind_going]
  generalize forwardDct (t.sampleBlock b) = p
  exact ⟨_, rfl, rfl⟩

/-- Coding a coefficient block `z` that is in `Z` (R246, R247). -/
theorem codeZ_writes {t t0 : State} (ht : t.CodingReady) {z : Block} {mx i : Nat}
    (h0 : t0 = { t with mcuIndex := mx, blockIndex := i, blkS := t0.blkS, blkP := t0.blkP, blkZ := z })
    (hz0 : dcInRange z[0]) (hz : ∀ k : Fin 64, k ≠ 0 → (z[k]).natAbs ≤ 1022) (c : Comp) (tb : TableId) :
    ((uopEncDc c tb t0).bind (runAll [uopEncAc tb])).Writes t 528 predsInRange fun u =>
      Appended t u (dcBits ((t.huff.get .dc).get tb) (z[0] - t.pred.get c) ++
        acBits ((t.huff.get .ac).get tb) 0 (z.toList.drop 1)) ∧ u.pred = t.pred.set c z[0] := by
  have hset : predsInRange (t.pred.set c z[0]) := predsInRange_set ht.pred _ hz0
  have e1 : t0.blkZ = z := by rw [h0]
  have e2 : t0.pred = t.pred := by rw [h0]
  have e3 : t0.huff = t.huff := by rw [h0]
  have e4 : t0.acc = t.acc := by rw [h0]
  have e5 : t0.ob = t.ob := by rw [h0]
  have e6 : t0.stream = t.stream := by rw [h0]; rfl
  have hw0 : t0.WriterReady := ⟨by rw [e4]; exact ht.writer.1, by rw [e5]; exact ht.writer.2⟩
  have hcat : cat (z[0] - t.pred.get c) ≤ 11 := cat_diff_le hz0 (ht.pred c)
  have hdc := uopEncDc_writes (P := predsInRange) c tb (t := t0) (by rw [e1, e2]; omega) hw0
    (by rw [e1, e2]; exact hasCode_dc (by rw [e3]; exact ht.huff) _ hcat) (by rw [e1, e2]; exact hset)
  rw [e1, e2, e3] at hdc
  have hwr : ((uopEncDc c tb t0).bind (runAll [uopEncAc tb])).Writes t0 (8 + (520 + 0)) predsInRange fun u =>
      Appended t u (dcBits ((t.huff.get .dc).get tb) (z[0] - t.pred.get c) ++
        acBits ((t.huff.get .ac).get tb) 0 (z.toList.drop 1)) ∧ u.pred = t.pred.set c z[0] := by
    refine Flow.Writes.bind hdc fun u hcu ⟨hw, ha⟩ => ?_
    have hz' : u.blkZ = z := by rw [hw.blkZ, ← e1]
    have hh' : u.huff = t.huff := by rw [hw.huff, ← e3]
    have hp' : u.pred = t.pred.set c z[0] := by rw [hw.pred]
    have hac := uopEncAc_writes (P := predsInRange) tb (t := u)
      (fun k hk => by rw [hz']; exact Nat.le_trans (hz k hk) (by decide)) (hcu.ready hw0)
      (acCodes_built (by rw [hh']; exact ht.huff) _) (by rw [hp']; exact hset)
    rw [hz', hh'] at hac
    rw [runAll_cons]
    refine Flow.Writes.bind hac fun v hcv ⟨hr, ha'⟩ =>
      Flow.Writes.silent (CodingOnly.refl v) rfl rfl rfl rfl rfl hcv.room ⟨?_, by rw [hr.pred, hp']⟩
    exact (ha.congr (s' := t) e4.symm e6.symm rfl rfl).trans ha'
  refine Flow.Writes.from hwr ?_ ?_ ?_ e5 e4 ?_ ht.writer.2
  all_goals rw [h0]
  rfl

/-- One block, loaded, transformed, quantized and coded (R249, R352). -/
theorem codeBlock_takes {t : State} (ht : t.CodingReady) {b : BlockLoad} (hb : b.inside t.cfg) (mx i : Nat) :
    (codeBlock mx (b, i) t).Takes t 1 predsInRange fun u =>
      Appended t u (blocksBits t t.pred [b]) ∧ u.pred = predAfter t t.pred [b] := by
  have hz := coefBlock_range ht b
  obtain ⟨t0, h0, hrun⟩ := codeBlock_eq hb mx i
  rw [hrun]
  have h := Flow.Writes.takes (codeZ_writes ht h0 hz.1 hz.2 b.comp (htid b.comp)) (by decide)
  have e : blocksBits t t.pred [b] = dcBits ((t.huff.get .dc).get (htid b.comp)) ((t.coefBlock b)[0] - t.pred.get b.comp) ++
      acBits ((t.huff.get .ac).get (htid b.comp)) 0 ((t.coefBlock b).toList.drop 1) := by
    rw [blocksBits, blocksBits, List.append_nil]
  rw [e]
  exact h

/-! ### An MCU and a row -/

/-- Blocks coded one after another. -/
theorem blocks_takes (mx : Nat) (bs : List (BlockLoad × Nat)) : ∀ {t : State}, t.CodingReady →
    (∀ b ∈ bs, b.1.inside t.cfg) →
    (runAll (bs.map (codeBlock mx)) t).Takes t bs.length predsInRange fun u =>
      Appended t u (blocksBits t t.pred (bs.map (·.1))) ∧ u.pred = predAfter t t.pred (bs.map (·.1)) := by
  induction bs with
  | nil => intro t ht _; exact Flow.Takes.done ht.writer.2 ⟨Appended.nil ht.writer.1, rfl⟩
  | cons b bs ih =>
    intro t ht hb
    simp only [List.map_cons, runAll_cons, List.length_cons]
    rw [Nat.add_comm]
    refine Flow.Takes.bind (codeBlock_takes ht (hb b (by simp)) mx b.2) fun u hc ⟨ha, hp⟩ => ?_
    have hpr : predsInRange u.pred := by rw [hp]; exact predAfter_inRange ht [b.1] ht.pred
    have hcfg : u.cfg = t.cfg := hc.only.fields.1
    refine (ih (ht.after hc hpr) (fun x hx => by rw [hcfg]; exact hb x (by simp [hx]))).mono (Nat.le_refl _)
      fun v _ ⟨ha', hp'⟩ => ?_
    rw [blocksBits_congr hc.only, hp] at ha'
    rw [predAfter_congr hc.only, hp] at hp'
    refine ⟨?_, ?_⟩
    · have := ha.trans ha'
      rwa [← blocksBits_append] at this
    · rw [hp', ← predAfter_append]; rfl

theorem blockOrder_inside (c : Conf) {cfg : Config} (h : c.wpad ≤ cfg.maxPaddedWidth) {mx : Nat} (hmx : mx < c.nmcux) :
    ∀ b ∈ blockOrder c.ss mx, b.inside cfg := by
  have hw := wpad_eq c
  have h2 : c.ss.mcuW * (mx + 1) ≤ c.ss.mcuW * c.nmcux := Nat.mul_le_mul_left _ hmx
  intro b hb
  cases hs : c.ss <;> rw [hs] at hb hw h2 <;> simp only [blockOrder, Subsamp.mcuW, List.mem_cons, List.not_mem_nil, or_false] at hb hw h2
  · subst hb; simp only [BlockLoad.inside]; omega
  · rcases hb with rfl | rfl | rfl <;> simp only [BlockLoad.inside] <;> omega
  · rcases hb with rfl | rfl | rfl | rfl <;> simp only [BlockLoad.inside] <;> omega
  · rcases hb with rfl | rfl | rfl | rfl | rfl | rfl <;> simp only [BlockLoad.inside] <;> omega

/-- MCUs coded one after another. -/
theorem mcus_takes (mxs : List Nat) : ∀ {t : State}, t.CodingReady → (∀ mx ∈ mxs, mx < t.conf.nmcux) →
    (runAll (mxs.map codeMcu) t).Takes t (mxs.flatMap (blockOrder t.conf.ss)).length predsInRange fun u =>
      Appended t u (blocksBits t t.pred (mxs.flatMap (blockOrder t.conf.ss))) ∧
        u.pred = predAfter t t.pred (mxs.flatMap (blockOrder t.conf.ss)) := by
  induction mxs with
  | nil => intro t ht _; exact Flow.Takes.done ht.writer.2 ⟨Appended.nil ht.writer.1, rfl⟩
  | cons mx mxs ih =>
    intro t ht hmx
    simp only [List.map_cons, runAll_cons, List.flatMap_cons, List.length_append]
    have h1 : (codeMcu mx t).Takes t (blockOrder t.conf.ss mx).length predsInRange fun u =>
        Appended t u (blocksBits t t.pred (blockOrder t.conf.ss mx)) ∧ u.pred = predAfter t t.pred (blockOrder t.conf.ss mx) := by
      unfold codeMcu
      have := blocks_takes mx (blockOrder t.conf.ss mx).zipIdx ht fun b hb =>
        blockOrder_inside t.conf ht.width (hmx mx (by simp)) b.1 (List.fst_mem_of_mem_zipIdx hb)
      simpa using this
    refine Flow.Takes.bind h1 fun u hc ⟨ha, hp⟩ => ?_
    have hpr : predsInRange u.pred := by rw [hp]; exact predAfter_inRange ht _ ht.pred
    have hconf : u.conf = t.conf := hc.only.fields.2.2.2.1
    have h2 := ih (ht.after hc hpr) (fun x hx => by rw [hconf]; exact hmx x (by simp [hx]))
    rw [hconf] at h2
    refine h2.mono (Nat.le_refl _) fun v _ ⟨ha', hp'⟩ => ?_
    rw [blocksBits_congr hc.only, hp] at ha'
    rw [predAfter_congr hc.only, hp] at hp'
    refine ⟨?_, ?_⟩
    · have := ha.trans ha'
      rwa [← blocksBits_append] at this
    · rw [hp', ← predAfter_append]

/-- PROCESS_MCU_ROW of a codable row (R352). -/
theorem uopProcessMcuRow_takes {t : State} (ht : t.CodingReady) :
    (uopProcessMcuRow t).Takes t t.conf.rowLoads.length predsInRange fun u =>
      Appended t u (blocksBits t t.pred t.conf.rowLoads) ∧ u.pred = predAfter t t.pred t.conf.rowLoads :=
  mcus_takes (List.range t.conf.nmcux) ht fun _ hmx => List.mem_range.1 hmx

end Sys2Proof.Machine
end

