-- ==== Sys2Proof/Laws/Control.lean ====
section
/-! SUPPORT. What every operation can do, whatever the state: the rule from which the frames, the bounds on transfers and the
invariants follow; and what the host commands are made of. -/

namespace Sys2Proof.Machine

/-! ### Coding from any state -/

/-- Coding with nothing known of the tables: it may also fault. -/
def Flow.Codes (x : Flow) (s : State) : Prop := x.Ends (Coding s) (CodingRaised s) fun _ => True

theorem Flow.Codes.bind {x : Flow} {f : State → Flow} {s : State} (hx : x.Codes s) (hf : ∀ t, Coding s t → (f t).Codes t) :
    (x.bind f).Codes s :=
  Flow.Ends.bind hx fun t ht => (hf t ht).mono (fun _ h => ht.trans h) (fun _ h => h.after ht.only ht.sent) (fun _ _ => trivial)

theorem Flow.Codes.after {x : Flow} {s t : State} (h : x.Codes t) (ht : Coding s t) : x.Codes s :=
  h.mono (fun _ h => ht.trans h) (fun _ h => h.after ht.only ht.sent) (fun _ _ => trivial)

theorem runAll_codes {ops : List (State → Flow)} (h : ∀ op ∈ ops, ∀ t, t.ob.length < obSize → (op t).Codes t) :
    ∀ {s : State}, s.ob.length < obSize → (runAll ops s).Codes s := by
  induction ops with
  | nil => intro s hs; exact Coding.refl hs
  | cons op ops ih =>
    intro s hs
    exact Flow.Codes.bind (h op (by simp) s hs) fun t ht => ih (fun o ho => h o (by simp [ho])) ht.room

theorem appendBits_codes (v : BitVec 16) (n : Nat) {s : State} (hs : s.ob.length < obSize) : (appendBits v n s).Codes s := by
  unfold appendBits
  split
  · trivial
  · split
    · exact Coding.refl hs
    · exact (drainBits_ends _ hs).mono
        (fun t ⟨h, _, _, hl, _⟩ => ⟨h.only.coding, h.answers, h.sent, h.room, fun _ => hl⟩) (fun _ h => h.coding)
        (fun _ _ => trivial)

theorem emitSymbol_codes (k : HuffClass) (tb : TableId) (sym : Nat) {s : State} (hs : s.ob.length < obSize) :
    (emitSymbol k tb sym s).Codes s := by
  unfold emitSymbol
  simp only
  split
  · trivial
  · exact appendBits_codes _ _ hs

/-- A change of the transient state and the predictors. -/
theorem codes_silent {s t : State} (h : CodingOnly s t) (h1 : t.answers = s.answers) (h2 : t.sinkLog = s.sinkLog)
    (h3 : t.ob = s.ob) (h4 : t.acc = s.acc) (hs : s.ob.length < obSize) : (Flow.going t).Codes s :=
  Coding.silent h h1 h2 h3 h4 hs

theorem uopEncDc_codes (c : Comp) (tb : TableId) {s : State} (hs : s.ob.length < obSize) : (uopEncDc c tb s).Codes s := by
  unfold uopEncDc codeDiff
  refine Flow.Codes.after (t := { s with pred := s.pred.set c s.blkZ[0] }) ?_ (Coding.silent rfl rfl rfl rfl rfl hs)
  refine Flow.Codes.bind (emitSymbol_codes _ _ _ hs) fun t ht => ?_
  split
  · exact appendBits_codes _ _ ht.room
  · exact Coding.refl ht.room

theorem codeAc_codes (tb : TableId) (v : Int) {s : State} (hs : s.ob.length < obSize) : (codeAc tb v s).Codes s := by
  unfold codeAc
  split
  · exact codes_silent rfl rfl rfl rfl rfl hs
  · refine Flow.Codes.bind (runAll_codes (fun op hop t ht => ?_) hs) fun t ht => ?_
    · rw [(List.mem_replicate.1 hop).2]
      unfold codeZrl
      exact Flow.Codes.bind (emitSymbol_codes _ _ _ ht) fun u hu => codes_silent rfl rfl rfl rfl rfl hu.room
    · refine Flow.Codes.bind (emitSymbol_codes _ _ _ ht.room) fun u hu => ?_
      exact Flow.Codes.bind (appendBits_codes _ _ hu.room) fun w hw => codes_silent rfl rfl rfl rfl rfl hw.room

theorem uopEncAc_codes (tb : TableId) {s : State} (hs : s.ob.length < obSize) : (uopEncAc tb s).Codes s := by
  unfold uopEncAc
  refine Flow.Codes.after (t := { s with run := 0 }) ?_ (Coding.silent rfl rfl rfl rfl rfl hs)
  refine Flow.Codes.bind (runAll_codes (fun op hop t ht => ?_) hs) fun t ht => ?_
  · obtain ⟨v, -, rfl⟩ := List.mem_map.1 hop
    exact codeAc_codes tb v ht
  · unfold codeEob
    split
    · exact emitSymbol_codes _ _ _ ht.room
    · exact Coding.refl ht.room

theorem load_codes (b : BlockLoad) {s : State} (hs : s.ob.length < obSize) : (b.run s).Codes s := by
  cases b with
  | full c br bc =>
    simp only [BlockLoad.run, uopLoadFull]
    split
    · exact codes_silent rfl rfl rfl rfl rfl hs
    · trivial
  | h2v1 c mx =>
    simp only [BlockLoad.run, uopLoadH2v1]
    split
    · exact codes_silent rfl rfl rfl rfl rfl hs
    · trivial
  | h2v2 c mx =>
    simp only [BlockLoad.run, uopLoadH2v2]
    split
    · exact codes_silent rfl rfl rfl rfl rfl hs
    · trivial

theorem uopFdct_codes {s : State} (hs : s.ob.length < obSize) : (uopFdct s).Codes s := codes_silent rfl rfl rfl rfl rfl hs

theorem uopQuantZz_codes (tb : TableId) {s : State} (hs : s.ob.length < obSize) : (uopQuantZz tb s).Codes s :=
  codes_silent rfl rfl rfl rfl rfl hs

theorem codeBlock_codes (mx : Nat) (b : BlockLoad × Nat) {s : State} (hs : s.ob.length < obSize) : (codeBlock mx b s).Codes s := by
  unfold codeBlock
  refine Flow.Codes.after (t := { s with mcuIndex := mx, blockIndex := b.2 }) ?_ (Coding.silent rfl rfl rfl rfl rfl hs)
  refine runAll_codes (fun op hop t ht => ?_) hs
  simp only [List.mem_cons, List.not_mem_nil, or_false] at hop
  rcases hop with rfl | rfl | rfl | rfl | rfl
  · exact load_codes _ ht
  · exact uopFdct_codes ht
  · exact uopQuantZz_codes _ ht
  · exact uopEncDc_codes _ _ ht
  · exact uopEncAc_codes _ ht

/-- PROCESS_MCU_ROW from any state. -/
theorem uopProcessMcuRow_codes {s : State} (hs : s.ob.length < obSize) : (uopProcessMcuRow s).Codes s := by
  unfold uopProcessMcuRow
  refine runAll_codes (fun op hop t ht => ?_) hs
  obtain ⟨mx, -, rfl⟩ := List.mem_map.1 hop
  unfold codeMcu
  refine runAll_codes (fun op hop u hu => ?_) ht
  obtain ⟨b, -, rfl⟩ := List.mem_map.1 hop
  exact codeBlock_codes mx b hu

/-! ### Flush and raw bytes -/

/-- A flush that empties the buffer: at most one transfer, of what was in it (R276). -/
theorem flushBuffer_ends (s : State) :
    (flushBuffer s).Ends
      (fun t => WriterOnly s t ∧ t.acc = s.acc ∧ t.ob = [] ∧ AnswersFrom s t ∧ t.stream = s.stream ∧
        t.sinkLog = s.sinkLog ++ (if s.ob = [] then [] else [⟨s.ob, true⟩]))
      (fun t => ∃ u, WriterOnly s u ∧ t = raiseError .sinkWriteFailure u ∧ u.ob = [] ∧ s.ob ≠ [] ∧ u.acc = s.acc ∧
        u.sinkLog = s.sinkLog ++ [⟨s.ob, false⟩])
      (StaysSilent s) := by
  rw [flushBuffer_eq]
  split
  · rename_i h
    exact ⟨rfl, rfl, h, List.suffix_refl _, rfl, by simp⟩
  · rename_i h
    cases ha : s.nextAnswer with
    | accepted =>
      refine ⟨?_, by simp, rfl, answersFrom_logTransfer s s.ob true, by simp [State.stream], by simp⟩
      unfold WriterOnly State.logTransfer State.consumeAnswer; cases h : s.answers <;> simp
    | rejected =>
      refine ⟨{ s.logTransfer s.ob false with ob := [] }, ?_, rfl, rfl, h, by simp, by simp⟩
      unfold WriterOnly State.logTransfer State.consumeAnswer; cases h : s.answers <;> simp
    | silent => exact ⟨rfl, fun h => nextAnswer_silent ha h⟩

theorem rawBytes_codes (bs : List Byte) {s : State} (hs : s.ob.length < obSize) : (rawBytes bs s).Codes s :=
  (rawBytes_ends bs hs).mono
    (fun t ⟨h, h', _⟩ => ⟨h.only.coding, h.answers, h.sent, h.room, fun hp => by rw [h']; exact hp⟩) (fun _ h => h.coding)
    (fun _ _ => trivial)

/-! ### FEED and FINISH, taken apart -/

theorem runAll_two (a b : State → Flow) (s : State) : runAll [a, b] s = (a s).bind b := by
  simp only [runAll_cons]
  congr 1
  funext t
  rw [runAll_cons]
  cases b t <;> rfl

/-- FEED in a state that accepts it: buffer the row, then code the MCU row if it is complete (R350). -/
theorem cmdFeed_eq {s : State} (h : s.ctl.rejects = none) :
    cmdFeed s = (runAll [convertScanline s.rows, uopPadRight s.rows] s).bind fun t =>
      (finishRow { t with rows := s.rows + 1, ctl := .accumulating }).bind fun u => .going u.succeed := by
  unfold cmdFeed
  rw [h, runAll_two]
  simp only [runAll_cons, Flow.bind_assoc]
  rfl

/-- FINISH in a state that accepts it (R358). -/
theorem cmdFinish_eq {s : State} (h : s.ctl.rejects = none) :
    cmdFinish s = (finishPartialRow s).bind fun a => (uopPadFinal a).bind fun b => (flushBuffer b).bind fun c =>
      (uopEmitEoi c).bind fun d => (flushBuffer d).bind fun e => .going (State.succeed { e with ctl := .finalized }) := by
  unfold cmdFinish
  rw [h]
  rfl

theorem rejects_none {s : State} (h : s.ctl = .configured ∨ s.ctl = .accumulating) : s.ctl.rejects = none := by
  rcases h with h | h <;> rw [h] <;> rfl

end Sys2Proof.Machine
end

