-- ==== Sys2Proof/Laws/Encoding.lean ====
section
/-! SUPPORT. The laws of the word formats: the fields of an encoded word are the fields it was made of, and a word is made of its
fields. -/

namespace Sys2Proof

namespace Encode

theorem bits_eq {n : Nat} {a b : BitVec n} (h : ∀ i, i < n → a.getLsbD i = b.getLsbD i) : a = b :=
  BitVec.eq_of_getLsbD_eq h

theorem u1_fields (op : BitVec 8) (c : BitVec 2) (k t : BitVec 1) (r : BitVec 4) (x : BitVec 16) :
    Decode.fields (u1 op c k t r x) = ⟨op, c, k, t, r, x⟩ := by
  unfold Decode.fields u1
  congr 1
  all_goals
    apply bits_eq
    intro i hi
    simp only [BitVec.getLsbD_extractLsb', BitVec.getLsbD_append, hi, decide_true, Bool.true_and]
    repeat (split <;> try omega)
    all_goals (congr 1; omega)

theorem bare_fields (op : BitVec 8) : (bare op).extractLsb' 24 8 = op ∧ (bare op).extractLsb' 0 24 = 0#24 := by
  unfold bare
  constructor
  all_goals
    apply bits_eq
    intro i hi
    simp only [BitVec.getLsbD_extractLsb', BitVec.getLsbD_append, hi, decide_true, Bool.true_and]
    repeat (split <;> try omega)
    all_goals first | rfl | (congr 1; omega)

theorem u2_fields (l : BitVec 5) (v : BitVec 16) :
    (u2 l v).extractLsb' 24 8 = 0x8D#8 ∧ (u2 l v).extractLsb' 21 3 = 0#3 ∧ (u2 l v).extractLsb' 16 5 = l ∧
      (u2 l v).extractLsb' 0 16 = v := by
  unfold u2
  refine ⟨?_, ?_, ?_, ?_⟩
  all_goals
    apply bits_eq
    intro i hi
    simp only [BitVec.getLsbD_extractLsb', BitVec.getLsbD_append, hi, decide_true, Bool.true_and]
    repeat (split <;> try omega)
    all_goals (congr 1; omega)

theorem u3_fields (b : BitVec 8) :
    (u3 b).extractLsb' 24 8 = 0x90#8 ∧ (u3 b).extractLsb' 8 16 = 0#16 ∧ (u3 b).extractLsb' 0 8 = b := by
  unfold u3
  refine ⟨?_, ?_, ?_⟩
  all_goals
    apply bits_eq
    intro i hi
    simp only [BitVec.getLsbD_extractLsb', BitVec.getLsbD_append, hi, decide_true, Bool.true_and]
    repeat (split <;> try omega)
    all_goals (congr 1; omega)

/-- A word is made of the fields of format U1. -/
theorem u1_of_fields (w : Word) :
    u1 (w.extractLsb' 24 8) (w.extractLsb' 22 2) (w.extractLsb' 21 1) (w.extractLsb' 20 1) (w.extractLsb' 16 4)
      (w.extractLsb' 0 16) = w := by
  unfold u1
  apply bits_eq
  intro i hi
  simp only [BitVec.getLsbD_extractLsb', BitVec.getLsbD_append]
  split_ifs
  all_goals
    rw [decide_eq_true (by omega), Bool.true_and]
    congr 1
    omega

theorem bare_of_fields {w : Word} (h : w.extractLsb' 0 24 = 0#24) : bare (w.extractLsb' 24 8) = w := by
  unfold bare
  apply bits_eq
  intro i hi
  rw [← h]
  simp only [BitVec.getLsbD_extractLsb', BitVec.getLsbD_append]
  split
  · rename_i h1; simp [h1]
  · rename_i h1
    rw [decide_eq_true (by omega), Bool.true_and]
    congr 1
    omega

theorem u2_of_fields {w : Word} (h : w.extractLsb' 24 8 = 0x8D#8) (h' : w.extractLsb' 21 3 = 0#3) :
    u2 (w.extractLsb' 16 5) (w.extractLsb' 0 16) = w := by
  unfold u2
  rw [← h, ← h']
  apply bits_eq
  intro i hi
  simp only [BitVec.getLsbD_extractLsb', BitVec.getLsbD_append]
  split_ifs
  all_goals
    rw [decide_eq_true (by omega), Bool.true_and]
    congr 1
    omega

theorem u3_of_fields {w : Word} (h : w.extractLsb' 24 8 = 0x90#8) (h' : w.extractLsb' 8 16 = 0#16) :
    u3 (w.extractLsb' 0 8) = w := by
  unfold u3
  rw [← h, ← h']
  apply bits_eq
  intro i hi
  simp only [BitVec.getLsbD_extractLsb', BitVec.getLsbD_append]
  split_ifs
  all_goals
    rw [decide_eq_true (by omega), Bool.true_and]
    congr 1
    omega

end Encode

theorem Decode.comp?_comp (c : Comp) : Decode.comp? (Encode.comp c) = some c := by cases c <;> rfl
theorem Decode.huffClass_huffClass (k : HuffClass) : Decode.huffClass (Encode.huffClass k) = k := by cases k <;> rfl
theorem Decode.tableId_tableId (t : TableId) : Decode.tableId (Encode.tableId t) = t := by cases t <;> rfl

theorem Encode.huffClass_huffClass : ∀ k : BitVec 1, Encode.huffClass (Decode.huffClass k) = k := by decide
theorem Encode.tableId_tableId : ∀ t : BitVec 1, Encode.tableId (Decode.tableId t) = t := by decide
theorem Encode.comp_of_comp? : ∀ (c : BitVec 2) (d : Comp), Decode.comp? c = some d → Encode.comp d = c := by decide +revert

/-! ### What a decoded word is, format by format -/

namespace Decode

theorem whenZero_ok {b : Bool} {i j : Instr} (h : whenZero b i = .ok j) : b = true ∧ j = i := by
  unfold whenZero at h
  split at h
  · cases h; exact ⟨‹_›, rfl⟩
  · cases h

theorem withComp_ok {b : Bool} {c : BitVec 2} {f : Comp → Instr} {j : Instr} (h : withComp b c f = .ok j) :
    ∃ d, Encode.comp d = c ∧ b = true ∧ j = f d := by
  unfold withComp at h
  split at h
  · cases h
  · rename_i d hd
    exact ⟨d, Encode.comp_of_comp? _ _ hd, whenZero_ok h⟩

variable {w : Word} {op : BitVec 8} {j : Instr}

theorem bare_ok {i : Instr} (ho : w.extractLsb' 24 8 = op) (h : bare w i = .ok j) : j = i ∧ Encode.bare op = w := by
  obtain ⟨h1, h2⟩ := whenZero_ok h
  subst ho
  exact ⟨h2, Encode.bare_of_fields (of_decide_eq_true h1)⟩

/-- A word of format U1, from what its unused fields are. -/
theorem u1_ok {c : BitVec 2} {k t : BitVec 1} {r : BitVec 4} {x : BitVec 16} (ho : w.extractLsb' 24 8 = op)
    (hc : w.extractLsb' 22 2 = c) (hk : w.extractLsb' 21 1 = k) (ht : w.extractLsb' 20 1 = t)
    (hr : w.extractLsb' 16 4 = r) (hx : w.extractLsb' 0 16 = x) : Encode.u1 op c k t r x = w := by
  subst ho hc hk ht hr hx
  exact Encode.u1_of_fields w

theorem rowOnly_ok {i : BitVec 4 → Instr} (ho : w.extractLsb' 24 8 = op) (h : rowOnly (fields w) i = .ok j) :
    ∃ r, j = i r ∧ Encode.u1 op 0 0 0 r 0 = w := by
  obtain ⟨h1, h2⟩ := whenZero_ok h
  simp only [fields, Bool.and_eq_true] at h1
  exact ⟨_, h2, u1_ok ho (of_decide_eq_true h1.1.1.1) (of_decide_eq_true h1.1.1.2) (of_decide_eq_true h1.1.2) rfl
    (of_decide_eq_true h1.2)⟩

theorem tableOnly_ok {i : TableId → Instr} (ho : w.extractLsb' 24 8 = op) (h : tableOnly (fields w) i = .ok j) :
    ∃ t, j = i t ∧ Encode.u1 op 0 0 (Encode.tableId t) 0 0 = w := by
  obtain ⟨h1, h2⟩ := whenZero_ok h
  simp only [fields, Bool.and_eq_true] at h1
  exact ⟨_, h2, u1_ok ho (of_decide_eq_true h1.1.1.1) (of_decide_eq_true h1.1.1.2) (Encode.tableId_tableId _).symm
    (of_decide_eq_true h1.1.2) (of_decide_eq_true h1.2)⟩

theorem classTable_ok {i : HuffClass → TableId → Instr} (ho : w.extractLsb' 24 8 = op)
    (h : classTable (fields w) i = .ok j) :
    ∃ k t, j = i k t ∧ Encode.u1 op 0 (Encode.huffClass k) (Encode.tableId t) 0 0 = w := by
  obtain ⟨h1, h2⟩ := whenZero_ok h
  simp only [fields, Bool.and_eq_true] at h1
  exact ⟨_, _, h2, u1_ok ho (of_decide_eq_true h1.1.1) (Encode.huffClass_huffClass _).symm
    (Encode.tableId_tableId _).symm (of_decide_eq_true h1.1.2) (of_decide_eq_true h1.2)⟩

theorem bitAppend_ok (ho : w.extractLsb' 24 8 = 0x8D#8) (h : bitAppend w = .ok j) :
    ∃ l v, l.toNat ≤ 16 ∧ j = .putBits l v ∧ Encode.u2 l v = w := by
  unfold bitAppend at h
  simp only at h
  split at h
  · cases h
  · obtain ⟨h1, h2⟩ := whenZero_ok h
    exact ⟨_, _, by omega, h2, Encode.u2_of_fields ho (of_decide_eq_true h1)⟩

theorem byteAppend_ok (ho : w.extractLsb' 24 8 = 0x90#8) (h : byteAppend w = .ok j) :
    ∃ b, j = .outByte b ∧ Encode.u3 b = w := by
  obtain ⟨h1, h2⟩ := whenZero_ok h
  exact ⟨_, h2, Encode.u3_of_fields ho (of_decide_eq_true h1)⟩

/-- The opcode of a word, from its number. -/
theorem opcode_eq {n : Nat} (h : (w.extractLsb' 24 8).toNat = n) : w.extractLsb' 24 8 = BitVec.ofNat 8 n := by
  rw [← h, BitVec.ofNat_toNat, BitVec.setWidth_eq]

end Decode

end Sys2Proof
end

