-- ==== Sys2Proof/Laws/Image.lean ====
section
/-! SUPPORT. The end of an image: the padding, the last flush and the EOI that FINISH makes, and the rows it pads, when the sink
accepts; and that the bits of an MCU row do not depend on the controller state. -/

namespace Sys2Proof.Machine

/-- A flush whose transfer, if it makes one, the sink accepts. -/
theorem flushBuffer_accepted {s : State} {n : Nat} (h : s.SinkAccepts (n + 1)) :
    ∃ t, flushBuffer s = .going t ∧ t.SinkAccepts n ∧ t.draws = s.draws ∧ WriterOnly s t ∧ t.acc = s.acc ∧ t.ob = [] ∧
      t.stream = s.stream ∧ t.sinkLog = s.sinkLog ++ (if s.ob = [] then [] else [⟨s.ob, true⟩]) := by
  obtain ⟨ha, hne, hnext⟩ := SinkAccepts.next (n := n) (by rwa [Nat.add_comm])
  have he := flushBuffer_ends s
  rw [flushBuffer_eq] at he ⊢
  by_cases h0 : s.ob = []
  · rw [if_pos h0]
    exact ⟨s, rfl, SinkAccepts.mono h (by omega), rfl, rfl, rfl, h0, rfl, by simp [h0]⟩
  · rw [if_neg h0, ha] at he ⊢
    obtain ⟨a, as, has⟩ : ∃ a as, s.answers = a :: as := List.exists_cons_of_ne_nil hne
    refine ⟨_, rfl, hnext _ ?_, ?_, he.1, he.2.1, he.2.2.1, he.2.2.2.2.1, by simp [h0]⟩ <;>
      simp [State.logTransfer, State.consumeAnswer, has]

theorem flatMap_byteBits_length (data : List Byte) : (data.flatMap byteBits).length = 8 * data.length := by
  induction data with
  | nil => rfl
  | cons b bs ih =>
    simp only [List.flatMap_cons, List.length_append, List.length_cons, ih]
    have : (byteBits b).length = 8 := by simp [byteBits]
    omega

/-- Seven 1 bits after fewer than 8 pending ones pad them to a byte boundary (R278). -/
theorem pad_to_byte {bits : List Bool} (h : bits.length < 8) {data : List Byte} {rest : List Bool} (hr : rest.length < 8)
    (e : bits ++ List.replicate 7 true = data.flatMap byteBits ++ rest) :
    bits ++ List.replicate ((8 - bits.length) % 8) true = data.flatMap byteBits := by
  have hl := congrArg List.length e
  simp only [List.length_append, List.length_replicate, flatMap_byteBits_length] at hl
  have split : bits ++ List.replicate 7 true =
      (bits ++ List.replicate ((8 - bits.length) % 8) true) ++ List.replicate (7 - (8 - bits.length) % 8) true := by
    rw [List.append_assoc, List.replicate_append_replicate]
    congr 2
    omega
  rw [split] at e
  refine (List.append_inj e ?_).1
  simp only [List.length_append, List.length_replicate, flatMap_byteBits_length]
  omega

/-- What FINISH does after the last MCU row (R358, R362), when the sink accepts its next three transfers. -/
theorem endImage_completes {s : State} (hs : s.WriterReady) (ha : s.SinkAccepts 3) :
    ∃ t data,
      ((uopPadFinal s).bind fun b => (flushBuffer b).bind fun c => (uopEmitEoi c).bind fun d => (flushBuffer d).bind fun e =>
        .going (State.succeed { e with ctl := .finalized })) = .going t ∧
      s.acc ++ List.replicate ((8 - s.acc.length) % 8) true = data.flatMap byteBits ∧
      t.stream = s.stream ++ stuff data ++ [0xFF#8, 0xD9#8] ∧
      t.sinkLog.getLast? = some ⟨[0xFF#8, 0xD9#8], true⟩ ∧ t.ob = [] ∧ t.draws = s.draws ∧
      t = { s with
        ctl := .finalized, result := true, err := .none, acc := t.acc, ob := t.ob, answers := t.answers, draws := t.draws
        sinkLog := t.sinkLog } := by
  obtain ⟨hn, hne, hnext⟩ := SinkAccepts.next (n := 2) ha
  obtain ⟨a, ea, hsent, h1, data, hdata, hlen, hst⟩ :=
    appendBits_accepted 0x7F#16 (k := 7) (by decide) hn (Sent.refl s) hs (by decide)
  have haa : a.SinkAccepts 2 ∧ a.draws = s.draws := by
    rcases hsent with ⟨-, h, h'⟩ | ⟨-, h, h'⟩
    · exact ⟨SinkAccepts.congr (SinkAccepts.mono ha (by omega)) h, h'⟩
    · exact ⟨hnext _ h, h' hne⟩
  obtain ⟨c, ec, hcs, hcd, hcw, -, hcob, hcst, -⟩ := flushBuffer_accepted haa.1
  have ed : uopEmitEoi c = .going { c with ob := eoiBytes } := by
    simp only [uopEmitEoi, rawBytes, eoiBytes, marker, List.map_cons, List.map_nil, runAll_cons, obAppend, hcob]
    rfl
  obtain ⟨e, ee, -, hed, hew, -, heob, hest, helog⟩ := flushBuffer_accepted (s := { c with ob := eoiBytes }) (n := 0) hcs
  have e7 : lowBits 0x7F#16 7 = List.replicate 7 true := by decide
  rw [e7] at hdata
  refine ⟨State.succeed { e with ctl := .finalized }, data, ?_, pad_to_byte hs.1 hlen hdata, ?_, ?_, heob, ?_, ?_⟩
  · unfold uopPadFinal
    rw [ea, Flow.bind_going, ec, Flow.bind_going, ed, Flow.bind_going, ee, Flow.bind_going]
  · show e.stream = _
    have : State.stream { c with ob := eoiBytes } = c.stream ++ eoiBytes := by unfold State.stream; rw [hcob]; simp
    rw [hest, this, hcst, hst]; rfl
  · show e.sinkLog.getLast? = _
    rw [helog, if_neg (by simp [eoiBytes, marker])]
    simp [eoiBytes, marker]
  · exact hed.trans (hcd.trans haa.2)
  · have hw := h1.only.trans hcw
    unfold WriterOnly at hw hew
    rw [hew, hw]
    rfl

/-! ### What the bits of an MCU row depend on -/

/-- The row buffer, the tables and the parameters are the same. -/
structure SameRow (s s' : State) : Prop where
  cfg : s'.cfg = s.cfg
  rb : s'.rb = s.rb
  qt : s'.qt = s.qt
  huff : s'.huff = s.huff
  epoch : s'.epoch = s.epoch

theorem coefBlock_sameRow {s s' : State} (h : SameRow s s') (b : BlockLoad) : s'.coefBlock b = s.coefBlock b := by
  have hs : ∀ c r x, s'.sampleInt c r x = s.sampleInt c r x := by
    intro c r x
    unfold State.sampleInt State.sample State.row
    rw [h.rb, h.epoch]
  have hb : s'.sampleBlock b = s.sampleBlock b := by
    cases b <;> simp only [State.sampleBlock] <;> congr 1 <;> funext i j <;>
      simp only [fullSample, pairAverage, quadAverage, hs, h.cfg]
  unfold State.coefBlock
  rw [hb, h.qt]

theorem predAfter_sameRow {s s' : State} (h : SameRow s s') (p : PerComp Int) (bs : List BlockLoad) :
    predAfter s' p bs = predAfter s p bs := by
  simp only [predAfter, coefBlock_sameRow h]

theorem blocksBits_sameRow {s s' : State} (h : SameRow s s') (bs : List BlockLoad) :
    ∀ p, blocksBits s' p bs = blocksBits s p bs := by
  induction bs with
  | nil => intro p; rfl
  | cons b bs ih => intro p; simp only [blocksBits, coefBlock_sameRow h, h.huff, ih]

/-! ### The rows FINISH pads -/

theorem padRows_completes (n : Nat) : ∀ {s : State} {r : Nat}, 1 ≤ s.rows → s.rows ≤ r → r + n ≤ 16 →
    s.conf.wpad ≤ s.cfg.maxPaddedWidth →
    ∃ t, runAll ((List.range' r n).map uopPadBottom) s = .going t ∧ RbOnly s t ∧ ∀ c r' x, t.stored c r' x =
      if c ∈ s.conf.ss.comps ∧ r ≤ r' ∧ r' < r + n ∧ x < s.conf.wpad then some (s.sample c (s.rows - 1) x)
      else s.stored c r' x := by
  induction n with
  | zero => intro s r _ _ _ _; exact ⟨s, rfl, rfl, fun c r' x => by rw [if_neg (by omega)]⟩
  | succ n ih =>
    intro s r h1 hr hn hw
    obtain ⟨t, ht, hrb, hst⟩ := uopPadBottom_completes (r := r) (by omega) hw
    have e : t.rows = s.rows ∧ t.conf = s.conf ∧ t.cfg = s.cfg ∧ t.epoch = s.epoch := by
      unfold RbOnly at hrb; rw [hrb]; exact ⟨rfl, rfl, rfl, rfl⟩
    obtain ⟨u, hu, hrb', hst'⟩ := ih (s := t) (r := r + 1) (by rw [e.1]; exact h1) (by rw [e.1]; omega) (by omega)
      (by rw [e.2.1, e.2.2.1]; exact hw)
    refine ⟨u, ?_, hrb.trans hrb', fun c r' x => ?_⟩
    · rw [List.range'_succ, List.map_cons, runAll_cons, ht, Flow.bind_going, hu]
    · have hlast : t.sample c (s.rows - 1) x = s.sample c (s.rows - 1) x := by
        rw [sample_eq, sample_eq, e.2.2.2, hst, if_neg (by omega)]
      rw [hst', e.1, e.2.1, hlast, hst, lastRowSample_eq _ _ _ h1]
      by_cases hc : c ∈ s.conf.ss.comps ∧ x < s.conf.wpad
      · by_cases h2 : r' = r
        · rw [if_neg (by omega), if_pos ⟨hc.1, h2, hc.2⟩, if_pos ⟨hc.1, by omega, by omega, hc.2⟩]
        · by_cases h3 : r + 1 ≤ r' ∧ r' < r + 1 + n
          · rw [if_pos ⟨hc.1, h3.1, h3.2, hc.2⟩, if_pos ⟨hc.1, by omega, by omega, hc.2⟩]
          · rw [if_neg (by omega), if_neg (by omega), if_neg (by omega)]
      · rw [if_neg (by tauto), if_neg (by tauto), if_neg (by tauto)]

end Sys2Proof.Machine
end

