-- ==== Sys2Proof/Laws/Init.lean ====
section
/-! SUPPORT. INIT as one equation: what its checks answer, and the state its table builds, header and flush lead to. -/

namespace Sys2Proof.Machine

/-- Raw bytes that do not fill the output buffer make no transfer. -/
theorem rawBytes_small (bs : List Byte) : ∀ {s : State}, s.ob.length + bs.length < obSize →
    rawBytes bs s = .going { s with ob := s.ob ++ bs } := by
  induction bs with
  | nil => intro s _; simp [rawBytes]
  | cons b bs ih =>
    intro s h
    simp only [List.length_cons] at h
    have hb : obAppend b s = .going { s with ob := s.ob ++ [b] } := by
      unfold obAppend
      simp only [List.length_append, List.length_singleton]
      rw [if_neg (by omega)]
    have := ih (s := { s with ob := s.ob ++ [b] }) (by simp; omega)
    unfold rawBytes at this ⊢
    rw [List.map_cons, runAll_cons, hb, Flow.bind_going, this]
    simp

/-- Raw bytes in two parts. -/
theorem rawBytes_append (bs bs' : List Byte) (s : State) :
    rawBytes (bs ++ bs') s = (rawBytes bs s).bind (rawBytes bs') := by
  unfold rawBytes
  rw [List.map_append, runAll_append]

/-- The quantization tables INIT builds. -/
def builtQt (c : Conf) : PerTable (Vector Byte 64) :=
  ⟨quantTable c.q.toNat c.nocd .luma, quantTable c.q.toNat c.nocd .chroma⟩

/-- The six table builds (R340). -/
theorem tableOps_eq (s : State) : runAll tableOps s = .going { s with qt := builtQt s.conf, huff := builtHuff } := rfl

theorem dqtBytes_length (t : TableId) (q : Vector Byte 64) : (dqtBytes t q).length = 69 := by
  simp [dqtBytes, marker, be16]

theorem headerBytes_length (c : Conf) : (headerBytes c).length = if c.ss = .grayscale then 328 else 623 := by
  have hd : ∀ k t, (dhtBytes k t).length = if k = .dc then 33 else 183 := by intro k t; cases k <;> cases t <;> decide +kernel
  have hs : (sof0Bytes c).length = if c.ss = .grayscale then 13 else 19 := by
    simp only [sof0Bytes, marker, be16, Subsamp.ncomp, List.length_append, List.length_cons, List.length_nil,
      List.length_flatMap]
    cases c.ss <;> rfl
  have ho : (sosBytes c.ss).length = if c.ss = .grayscale then 10 else 14 := by cases c.ss <;> rfl
  have h1 : soiBytes.length = 2 := rfl
  have h2 : app0Bytes.length = 18 := rfl
  unfold headerBytes
  cases hc : c.ss <;> rw [hc] at hs ho <;>
    simp [hd, hs, ho, h1, h2, dqtBytes_length, Subsamp.ncomp, Subsamp.comps]

/-- The header operations append the header (R310, R340). -/
theorem headerOps_eq {c : Conf} {s : State} (hc : s.conf = c) (hq : s.qt = builtQt c) (ho : s.ob = []) :
    runAll (headerOps c.ss) s = .going { s with ob := headerBytes c } := by
  have hl := headerBytes_length c
  have h : runAll (headerOps c.ss) s = rawBytes (headerBytes c) s := by
    have step : ∀ (ops : List (State → Flow)) (bs bs' : List Byte) (op : State → Flow),
        (∀ t : State, t.conf = c → t.qt = builtQt c → op t = rawBytes bs t) →
        (∀ t : State, t.conf = c → t.qt = builtQt c → t.ob.length + bs'.length < obSize → runAll ops t = rawBytes bs' t) →
        ∀ t : State, t.conf = c → t.qt = builtQt c → t.ob.length + (bs ++ bs').length < obSize →
          runAll (op :: ops) t = rawBytes (bs ++ bs') t := by
      intro ops bs bs' op h1 h2 t ht hq hlen
      simp only [List.length_append] at hlen
      rw [runAll_cons, h1 t ht hq, rawBytes_append, rawBytes_small bs (by omega), Flow.bind_going, Flow.bind_going]
      exact h2 { t with ob := t.ob ++ bs } ht hq (by simp only [List.length_append]; omega)
    have hlen : s.ob.length + (headerBytes c).length < obSize := by
      rw [ho, hl]; split <;> decide
    have e : headerOps c.ss = (if c.ss.ncomp = 3 then
        [uopEmitSoi, uopEmitApp0, uopEmitDqt .luma, uopEmitDqt .chroma, uopEmitSof0, uopEmitDht .dc .luma,
          uopEmitDht .ac .luma, uopEmitDht .dc .chroma, uopEmitDht .ac .chroma, uopEmitSos]
      else [uopEmitSoi, uopEmitApp0, uopEmitDqt .luma, uopEmitSof0, uopEmitDht .dc .luma, uopEmitDht .ac .luma,
          uopEmitSos]) := by
      cases c.ss <;> rfl
    rw [e]
    have last : ∀ t : State, t.conf = c → t.qt = builtQt c → t.ob.length + (sosBytes c.ss).length < obSize →
        runAll [uopEmitSos] t = rawBytes (sosBytes c.ss) t := by
      intro t ht _ hlt
      rw [runAll_cons]
      unfold uopEmitSos
      rw [ht, rawBytes_small _ hlt]; rfl
    have hsof : ∀ t : State, t.conf = c → t.qt = builtQt c → uopEmitSof0 t = rawBytes (sof0Bytes c) t := by
      intro t ht _; unfold uopEmitSof0; rw [ht]
    have hdqt : ∀ tb, ∀ t : State, t.conf = c → t.qt = builtQt c →
        uopEmitDqt tb t = rawBytes (dqtBytes tb (quantTable c.q.toNat c.nocd tb)) t := by
      intro tb t _ hq; unfold uopEmitDqt; rw [hq]; cases tb <;> rfl
    have hsoi : ∀ t : State, t.conf = c → t.qt = builtQt c → uopEmitSoi t = rawBytes soiBytes t := fun _ _ _ => rfl
    have happ : ∀ t : State, t.conf = c → t.qt = builtQt c → uopEmitApp0 t = rawBytes app0Bytes t := fun _ _ _ => rfl
    have hdht : ∀ k tb, ∀ t : State, t.conf = c → t.qt = builtQt c → uopEmitDht k tb t = rawBytes (dhtBytes k tb) t :=
      fun _ _ _ _ _ => rfl
    unfold headerBytes at hlen ⊢
    split
    · rename_i h3
      rw [if_pos h3] at hlen
      simp only [List.append_assoc] at hlen ⊢
      exact step _ _ _ _ hsoi (step _ _ _ _ happ (step _ _ _ _ (hdqt .luma) (step _ _ _ _ (hdqt .chroma)
        (step _ _ _ _ hsof (step _ _ _ _ (hdht .dc .luma) (step _ _ _ _ (hdht .ac .luma) (step _ _ _ _ (hdht .dc .chroma)
          (step _ _ _ _ (hdht .ac .chroma) last)))))))) s hc hq hlen
    · rename_i h3
      rw [if_neg h3] at hlen
      simp only [List.append_assoc] at hlen ⊢
      exact step _ _ _ _ hsoi (step _ _ _ _ happ (step _ _ _ _ (hdqt .luma) (step _ _ _ _ hsof
        (step _ _ _ _ (hdht .dc .luma) (step _ _ _ _ (hdht .ac .luma) last))))) s hc hq hlen
  rw [h, rawBytes_small _ (by rw [ho, hl]; split <;> decide), ho, List.nil_append]

/-- The state INIT has built when it flushes the header. -/
def State.headerBuffered (s : State) (c : Conf) : State :=
  { s with conf := c, pred := ⟨0, 0, 0⟩, qt := builtQt c, huff := builtHuff, ob := headerBytes c }

/-- INIT after a configuration that passed its checks (R340, R345). -/
theorem initImage_eq {c : Conf} {s : State} (ho : s.ob = []) :
    initImage c s = (flushBuffer (s.headerBuffered c)).bind fun t => .going (State.succeed { t with ctl := .configured }) := by
  have hh := headerOps_eq (c := c) (s := { s with conf := c, pred := ⟨0, 0, 0⟩, qt := builtQt c, huff := builtHuff }) rfl rfl ho
  have hr : ∀ t, runAll [flushBuffer] t = flushBuffer t := by
    intro t
    rw [runAll_cons]
    cases flushBuffer t <;> rfl
  unfold initImage
  rw [runAll_append, runAll_append, tableOps_eq, Flow.bind_going, hh, Flow.bind_going, hr]
  rfl

/-- The checks pass (R341). -/
theorem validate_ok {s : State} {ch : Channels} (hw : 1 ≤ s.cfgWidth.toNat) (hh : 1 ≤ s.cfgHeight.toNat)
    (hc : s.cfgChannels.toNat = ch.bytes) (hq : 1 ≤ s.cfgQuality.toNat) (hq' : s.cfgQuality.toNat ≤ 100)
    (hp : paddedWidth s.cfgWidth.toNat s.cfgSubsamp ≤ s.cfg.maxPaddedWidth) :
    validate s = .ok ⟨s.cfgWidth, s.cfgHeight, ch, s.cfgQuality, s.cfgSubsamp, s.cfgNocd⟩ := by
  have hw' : s.cfgWidth ≠ 0#16 := by intro h; rw [h] at hw; exact absurd hw (by decide)
  have hh' : s.cfgHeight ≠ 0#16 := by intro h; rw [h] at hh; exact absurd hh (by decide)
  have hch : channelsOf s.cfgChannels = some ch := by
    unfold channelsOf
    rw [hc]
    cases ch <;> rfl
  unfold validate
  rw [if_neg hw', if_neg hh', hch]
  simp only
  rw [if_neg (by omega), if_neg (by omega)]

/-- What the checks let through (R341). -/
theorem validate_cases {s : State} {c : Conf} (h : validate s = .ok c) :
    1 ≤ s.cfgWidth.toNat ∧ 1 ≤ s.cfgHeight.toNat ∧ s.cfgChannels.toNat = c.ch.bytes ∧ 1 ≤ s.cfgQuality.toNat ∧
      s.cfgQuality.toNat ≤ 100 ∧ paddedWidth s.cfgWidth.toNat s.cfgSubsamp ≤ s.cfg.maxPaddedWidth ∧
      c = ⟨s.cfgWidth, s.cfgHeight, c.ch, s.cfgQuality, s.cfgSubsamp, s.cfgNocd⟩ := by
  have pos : ∀ v : BitVec 16, v ≠ 0#16 → 1 ≤ v.toNat := by
    intro v hv
    by_contra hc
    exact hv (BitVec.eq_of_toNat_eq (by simp; omega))
  unfold validate at h
  split at h
  · cases h
  rename_i hw
  split at h
  · cases h
  rename_i hh
  split at h
  · cases h
  rename_i ch hch
  split at h
  · cases h
  rename_i hq
  split at h
  · cases h
  rename_i hp
  cases h
  refine ⟨pos _ hw, pos _ hh, ?_, by omega, by omega, by omega, rfl⟩
  unfold channelsOf at hch
  simp only
  split at hch
  · cases hch; assumption
  · cases hch; assumption
  · cases hch

/-- What the checks turn away raises an error of its own, not a sink failure (R341). -/
theorem validate_error {s : State} {e : ErrCode} (h : validate s = .error e) :
    e = .invalidParameters ∨ e = .allocationFailure := by
  unfold validate at h
  repeat' split at h
  all_goals cases h
  all_goals simp

end Sys2Proof.Machine
end

