-- ==== Sys2Proof/Laws/Frame.lean ====
section
/-! SUPPORT. The frame of every operation, with no condition on the state: what it can change when it goes on, and what a
refused transfer adds. And that no operation but INIT reads the configuration registers. -/

namespace Sys2Proof.Machine

/-- A relation that holds of no change and of one change after another. -/
structure Steady (A : State → State → Prop) : Prop where
  refl : ∀ s, A s s
  trans : ∀ s t u, A s t → A t u → A s u

theorem steady_writer : Steady WriterOnly := ⟨WriterOnly.refl, fun _ _ _ => WriterOnly.trans⟩
theorem steady_run : Steady RunOnly := ⟨RunOnly.refl, fun _ _ _ => RunOnly.trans⟩
theorem steady_coding : Steady CodingOnly := ⟨CodingOnly.refl, fun _ _ _ => CodingOnly.trans⟩

/-- A refused transfer, from a state related to `s` by `A`. -/
def FrameRaised (A : State → State → Prop) (s t : State) : Prop :=
  ∃ u, A s u ∧ t = raiseError .sinkWriteFailure u ∧ ∃ bytes, u.sinkLog.getLast? = some ⟨bytes, false⟩

/-- However `x` ends from `s`, the relation `A` holds, but for what a refused transfer reports. -/
def Flow.Frame (A : State → State → Prop) (s : State) (x : Flow) : Prop := x.Ends (A s) (FrameRaised A s) fun _ => True

theorem Flow.Frame.mono {A B : State → State → Prop} (h : ∀ s t, A s t → B s t) {s : State} {x : Flow} (hx : x.Frame A s) :
    x.Frame B s :=
  Flow.Ends.mono hx (h s) (fun _ ⟨u, hu, hr⟩ => ⟨u, h s u hu, hr⟩) fun _ h => h

theorem Flow.Frame.bind {A : State → State → Prop} (ht : Steady A) {s : State} {x : Flow}
    {f : State → Flow} (hx : x.Frame A s) (hf : ∀ t, (f t).Frame A t) : (x.bind f).Frame A s :=
  Flow.Ends.bind hx fun t hst =>
    Flow.Ends.mono (hf t) (fun _ h => ht.trans _ _ _ hst h) (fun _ ⟨u, hu, hr⟩ => ⟨u, ht.trans _ _ _ hst hu, hr⟩) fun _ h => h

theorem runAll_frame {A : State → State → Prop} (ht : Steady A)
    {ops : List (State → Flow)} (h : ∀ op ∈ ops, ∀ t, (op t).Frame A t) : ∀ s, (runAll ops s).Frame A s := by
  induction ops with
  | nil => intro s; exact ht.refl s
  | cons op ops ih =>
    intro s
    exact (h op (by simp) s).bind ht fun t => ih (fun o ho => h o (by simp [ho])) t

/-! ### The writer and coding -/

theorem flushBuffer_frame (s : State) : (flushBuffer s).Frame WriterOnly s := by
  refine Flow.Ends.mono (flushBuffer_ends s) (fun t h => h.1) (fun t ⟨u, h, hr, _, _, _, hl⟩ => ⟨u, h, hr, s.ob, ?_⟩) fun _ _ => trivial
  rw [hl]
  simp

theorem obAppend_frame (b : Byte) (s : State) : (obAppend b s).Frame WriterOnly s := by
  unfold obAppend
  simp only
  split
  · have h := flushBuffer_frame { s with ob := s.ob ++ [b] }
    exact Flow.Ends.mono h (fun t h => WriterOnly.trans (t := { s with ob := s.ob ++ [b] }) rfl h)
      (fun t ⟨u, h, hr⟩ => ⟨u, WriterOnly.trans (t := { s with ob := s.ob ++ [b] }) rfl h, hr⟩) fun _ h => h
  · rfl

theorem rawBytes_frame (bs : List Byte) (s : State) : (rawBytes bs s).Frame WriterOnly s := by
  refine runAll_frame steady_writer ?_ s
  intro op hop t
  obtain ⟨b, -, rfl⟩ := List.mem_map.1 hop
  exact obAppend_frame b t

theorem stuffedByte_frame (b : Byte) (s : State) : (stuffedByte b s).Frame WriterOnly s :=
  (obAppend_frame b s).bind steady_writer fun t => by
    split
    · exact obAppend_frame _ t
    · rfl

theorem drainBits_frame (bits : List Bool) : ∀ s, (drainBits bits s).Frame WriterOnly s := by
  induction bits using octets_induct with
  | full b7 b6 b5 b4 b3 b2 b1 b0 rest ih =>
    intro s
    refine Flow.Frame.bind steady_writer (s := s) ?_ ih
    have h := stuffedByte_frame (BitVec.ofNat 8 (bitsToNat [b7, b6, b5, b4, b3, b2, b1, b0])) { s with acc := rest }
    exact Flow.Ends.mono h (fun t h => WriterOnly.trans (t := { s with acc := rest }) rfl h)
      (fun t ⟨u, h, hr⟩ => ⟨u, WriterOnly.trans (t := { s with acc := rest }) rfl h, hr⟩) fun _ h => h
  | few bits h =>
    intro s
    rw [drainBits_few h]
    rfl

theorem appendBits_frame (v : BitVec 16) (n : Nat) (s : State) : (appendBits v n s).Frame WriterOnly s := by
  unfold appendBits
  split
  · trivial
  · split
    · rfl
    · exact drainBits_frame _ s

theorem emitSymbol_frame (k : HuffClass) (tb : TableId) (sym : Nat) (s : State) : (emitSymbol k tb sym s).Frame WriterOnly s := by
  unfold emitSymbol
  simp only
  split
  · trivial
  · exact appendBits_frame _ _ s

/-- An operation that starts from a state coding may lead to. -/
theorem Flow.Frame.from {s t : State} {x : Flow} (h : CodingOnly s t) (hx : x.Frame CodingOnly t) : x.Frame CodingOnly s :=
  Flow.Ends.mono hx (fun _ hu => h.trans hu) (fun _ ⟨u, hu, hr⟩ => ⟨u, h.trans hu, hr⟩) fun _ h => h

theorem Flow.Frame.writer {s : State} {x : Flow} (hx : x.Frame WriterOnly s) : x.Frame CodingOnly s :=
  hx.mono fun _ _ => WriterOnly.coding

/-- What ENC_DC may change besides the predictors. -/
theorem codeDiff_frame (tb : TableId) (diff : Int) (s : State) : (codeDiff tb diff s).Frame WriterOnly s := by
  unfold codeDiff
  simp only
  refine (emitSymbol_frame _ _ _ s).bind steady_writer fun t => ?_
  split
  · exact appendBits_frame _ _ t
  · rfl

theorem uopEncDc_frame (c : Comp) (tb : TableId) (s : State) : (uopEncDc c tb s).Frame CodingOnly s :=
  Flow.Frame.from (t := { s with pred := s.pred.set c s.blkZ[0] }) rfl (codeDiff_frame _ _ _).writer

theorem codeAc_frame (tb : TableId) (v : Int) (s : State) : (codeAc tb v s).Frame RunOnly s := by
  have lift : ∀ {t : State} {x : Flow}, x.Frame WriterOnly t → x.Frame RunOnly t := fun h => h.mono fun _ _ => WriterOnly.runOnly
  unfold codeAc
  split
  · rfl
  · refine Flow.Frame.bind steady_run (runAll_frame steady_run ?_ s) fun t => ?_
    · intro op hop t
      rw [List.eq_of_mem_replicate hop]
      unfold codeZrl
      exact (lift (emitSymbol_frame _ _ _ t)).bind steady_run fun _ => rfl
    · exact (lift (emitSymbol_frame _ _ _ t)).bind steady_run fun u =>
        (lift (appendBits_frame _ _ u)).bind steady_run fun _ => rfl

/-- ENC_AC changes the run counter and the bit writer alone. -/
theorem uopEncAc_frame (tb : TableId) (s : State) : (uopEncAc tb s).Frame RunOnly s := by
  unfold uopEncAc
  refine Flow.Frame.bind steady_run ?_ fun t => ?_
  · have h := runAll_frame steady_run (ops := (s.blkZ.toList.drop 1).map (codeAc tb)) (by
      intro op hop t
      obtain ⟨v, -, rfl⟩ := List.mem_map.1 hop
      exact codeAc_frame tb v t) { s with run := 0 }
    exact Flow.Ends.mono h (fun t h => RunOnly.trans (t := { s with run := 0 }) rfl h)
      (fun t ⟨u, h, hr⟩ => ⟨u, RunOnly.trans (t := { s with run := 0 }) rfl h, hr⟩) fun _ h => h
  · unfold codeEob
    split
    · exact (emitSymbol_frame _ _ _ t).mono fun _ _ => WriterOnly.runOnly
    · rfl

theorem load_frame (b : BlockLoad) (s : State) : (b.run s).Frame CodingOnly s := by
  cases b with
  | full c r x =>
    simp only [BlockLoad.run, uopLoadFull]
    split
    · rfl
    · trivial
  | h2v1 c x =>
    simp only [BlockLoad.run, uopLoadH2v1]
    split
    · rfl
    · trivial
  | h2v2 c x =>
    simp only [BlockLoad.run, uopLoadH2v2]
    split
    · rfl
    · trivial

theorem codeBlock_frame (mx : Nat) (b : BlockLoad × Nat) (s : State) : (codeBlock mx b s).Frame CodingOnly s := by
  refine Flow.Frame.from (t := { s with mcuIndex := mx, blockIndex := b.2 }) rfl ?_
  refine runAll_frame steady_coding ?_ _
  intro op hop t
  simp only [List.mem_cons, List.not_mem_nil, or_false] at hop
  rcases hop with rfl | rfl | rfl | rfl | rfl
  · exact load_frame _ t
  · rfl
  · rfl
  · exact uopEncDc_frame _ _ t
  · exact (uopEncAc_frame _ t).mono fun _ _ => RunOnly.coding

theorem uopProcessMcuRow_frame (s : State) : (uopProcessMcuRow s).Frame CodingOnly s := by
  refine runAll_frame steady_coding ?_ s
  intro op hop t
  obtain ⟨mx, -, rfl⟩ := List.mem_map.1 hop
  refine runAll_frame steady_coding ?_ t
  intro op hop t
  obtain ⟨b, -, rfl⟩ := List.mem_map.1 hop
  exact codeBlock_frame mx b t

/-! ### The row buffer -/

/-- Every row in canonical form and inside the row buffer (R50). -/
def RowsCanonical (s : State) : Prop :=
  ∀ c r, (s.row c r).wf ∧ ∀ p ∈ s.row c r, p.1 < s.cfg.maxPaddedWidth

/-- Only the row buffer differs, and it stays canonical. -/
def RowsKept (s t : State) : Prop := RbOnly s t ∧ (RowsCanonical s → RowsCanonical t)

theorem steady_rows : Steady RowsKept :=
  ⟨fun _ => ⟨rfl, fun h => h⟩, fun _ _ _ h h' => ⟨h.1.trans h'.1, fun hs => h'.2 (h.2 hs)⟩⟩

theorem writeRow_kept (c : Comp) (r x0 : Nat) {bs : List Byte} {s : State} (h : x0 + bs.length ≤ s.cfg.maxPaddedWidth) :
    RowsKept s (s.writeRow c r x0 bs) := by
  refine ⟨rfl, fun hs d r' => ?_⟩
  rw [row_writeRow]
  split
  · exact ⟨Memory.writeRange_wf bs x0 (hs c r).1, Memory.writeRange_bound bs (hs c r).2 h⟩
  · exact hs d r'

theorem foldl_writeRow_kept (f : Comp → List Byte) (r x0 n : Nat) (hf : ∀ c, (f c).length ≤ n) (cs : List Comp) : ∀ (s : State),
    x0 + n ≤ s.cfg.maxPaddedWidth → RowsKept s (cs.foldl (fun t c => t.writeRow c r x0 (f c)) s) := by
  induction cs with
  | nil => intro s _; exact steady_rows.refl s
  | cons c cs ih =>
    intro s h
    have := hf c
    exact steady_rows.trans _ _ _ (writeRow_kept c r x0 (by omega)) (ih (s.writeRow c r x0 (f c)) h)

/-- An operation that changes only the row buffer and raises nothing. -/
def Flow.Rows (x : Flow) (s : State) : Prop := x.Ends (RowsKept s) (fun _ => False) fun _ => True

theorem convertRow_rows (cs : List Comp) (ch : Channels) (r : Nat) (s : State) :
    (convertRow ch.bytes (fun b => cs.map fun c => (c, convSamples ch b c)) r s).Rows s := by
  refine Flow.Ends.mono (convertRow_ends cs ch r s) (fun t h => ?_) (fun _ h => h) fun _ _ => trivial
  obtain ⟨-, -, hw, -, rfl⟩ := h
  exact foldl_writeRow_kept _ r 0 s.conf.w.toNat (fun c => Nat.le_of_eq (convSamples_source s ch s.conf.w.toNat c).1) cs s
    (by omega)

theorem convertScanline_rows (r : Nat) (s : State) : (convertScanline r s).Rows s := by
  rw [convertScanline_eq]
  exact convertRow_rows _ _ r s

theorem uopPadRight_rows (r : Nat) (s : State) : (uopPadRight r s).Rows s := by
  unfold uopPadRight
  simp only
  split
  · rename_i h
    have hw := ((hasSamples_iff _ _ _).1 h).2
    have := width_le_wpad s.conf
    exact foldl_writeRow_kept (fun c => List.replicate (s.conf.wpad - s.conf.w.toNat) (s.sample c r (s.conf.w.toNat - 1)))
      r s.conf.w.toNat (s.conf.wpad - s.conf.w.toNat) (fun c => by simp) s.conf.ss.comps s (by omega)
  · trivial

theorem uopPadBottom_rows (r : Nat) (s : State) : (uopPadBottom r s).Rows s := by
  unfold uopPadBottom
  split
  · rename_i h
    have hw := ((hasSamples_iff _ _ _).1 h).2
    exact foldl_writeRow_kept (fun c => (List.range s.conf.wpad).map (s.lastRowSample c)) r 0 s.conf.wpad (fun c => by simp)
      s.conf.ss.comps s (by omega)
  · trivial

theorem runAll_rows {ops : List (State → Flow)} (h : ∀ op ∈ ops, ∀ t, (op t).Rows t) : ∀ s, (runAll ops s).Rows s := by
  induction ops with
  | nil => intro s; exact steady_rows.refl s
  | cons op ops ih =>
    intro s
    exact Flow.Ends.bind (h op (by simp) s) fun t hst =>
      Flow.Ends.mono (ih (fun o ho => h o (by simp [ho])) t) (fun _ h => steady_rows.trans _ _ _ hst h) (fun _ h => h) fun _ h => h

/-! ### The buffers -/

/-- An operation that leaves an output buffer that is not full, and at most 7 pending bits if there were no more, unless it
raises an error, which leaves an empty buffer (R55, R56). -/
def Flow.Buffers (x : Flow) (s : State) : Prop :=
  x.Ends (fun t => t.ob.length < obSize ∧ (s.acc.length < 8 → t.acc.length < 8)) (fun t => t.ob = []) fun _ => True

theorem Flow.Codes.buffers {x : Flow} {s : State} (h : x.Codes s) : x.Buffers s :=
  Flow.Ends.mono h (fun _ h => ⟨h.room, h.pending⟩) (fun _ ⟨u, _, hr, _, _, _, _, _, ho⟩ => by rw [hr]; exact ho) fun _ h => h

theorem flushBuffer_buffers (s : State) : (flushBuffer s).Buffers s :=
  Flow.Ends.mono (flushBuffer_ends s) (fun _ h => ⟨by rw [h.2.2.1]; decide, by rw [h.2.1]; exact fun h => h⟩)
    (fun _ ⟨_, _, hr, ho, _⟩ => by rw [hr]; exact ho) fun _ _ => trivial

theorem obAppend_codes (b : Byte) {s : State} (hs : s.ob.length < obSize) : (obAppend b s).Codes s := by
  have h := rawBytes_codes [b] hs
  have e : rawBytes [b] s = obAppend b s := by
    simp only [rawBytes, List.map_cons, List.map_nil, runAll_cons]
    cases obAppend b s <;> rfl
  rwa [e] at h

/-! ### Every unit operation -/

/-- Everything a unit operation can change: those that code or write bytes change coding state alone, and the predictors only in
ENC_DC and PROCESS_MCU_ROW; the conversions and paddings change rows alone; a table build changes its table alone. -/
theorem uop_cases (i : Instr) (hi : i.isHostCommand = false) (s : State) :
    (∃ x : Flow, exec i s = x.toOutcome ∧ x.Frame CodingOnly s ∧ 
        (s.ob.length < obSize → x.Buffers s) ∧
        (i ≠ .processMcuRow → (∀ c u, i ≠ .encDc c u) → x.Frame (fun s t => t.pred = s.pred) s)) ∨
    (∃ x : Flow, exec i s = x.toOutcome ∧ x.Rows s ∧ ∃ r, i = .convRgbY r ∨ i = .convRgbYcc r ∨ i = .convGrayY r ∨ i = .convGrayYcc r ∨
      i = .padRight r ∨ i = .padBottom r) ∨
    (∃ k, i = .buildQt k) ∨ (∃ k u, i = .buildHt k u) := by
  have wr : ∀ {x : Flow}, x.Frame WriterOnly s → (s.ob.length < obSize → x.Buffers s) → x.Frame CodingOnly s ∧
      (s.ob.length < obSize → x.Buffers s) ∧
      (i ≠ .processMcuRow → (∀ c u, i ≠ .encDc c u) → x.Frame (fun s t => t.pred = s.pred) s) :=
    fun h hb => ⟨h.writer, hb, fun _ _ => h.mono fun _ _ => WriterOnly.pred⟩
  have raw : ∀ bs, s.ob.length < obSize → (rawBytes bs s).Buffers s := fun bs h => (rawBytes_codes bs h).buffers
  have few : ∀ v n, s.ob.length < obSize → (appendBits v n s).Buffers s := fun v n h => (appendBits_codes v n h).buffers
  cases i with
  | nop => cases hi
  | init => cases hi
  | feed => cases hi
  | finish => cases hi
  | deinit => cases hi
  | convRgbY r => exact .inr (.inl ⟨_, rfl, by rw [uopConvRgbY_eq]; exact convertRow_rows _ .three _ _, r, by simp⟩)
  | convRgbYcc r => exact .inr (.inl ⟨_, rfl, by rw [uopConvRgbYcc_eq]; exact convertRow_rows _ .three _ _, r, by simp⟩)
  | convGrayY r => exact .inr (.inl ⟨_, rfl, by rw [uopConvGrayY_eq]; exact convertRow_rows _ .one _ _, r, by simp⟩)
  | convGrayYcc r => exact .inr (.inl ⟨_, rfl, by rw [uopConvGrayYcc_eq]; exact convertRow_rows _ .one _ _, r, by simp⟩)
  | padRight r => exact .inr (.inl ⟨_, rfl, uopPadRight_rows _ _, r, by simp⟩)
  | padBottom r => exact .inr (.inl ⟨_, rfl, uopPadBottom_rows _ _, r, by simp⟩)
  | loadFull c r x => 
    refine .inl ⟨_, rfl, load_frame (.full c r.toNat x.toNat) s, fun h => (load_codes (.full c r.toNat x.toNat) h).buffers, fun _ _ => ?_⟩
    unfold uopLoadFull; split
    · rfl
    · trivial
  | loadH2v1 c x => 
    refine .inl ⟨_, rfl, load_frame (.h2v1 c x.toNat) s, fun h => (load_codes (.h2v1 c x.toNat) h).buffers, fun _ _ => ?_⟩
    unfold uopLoadH2v1; split
    · rfl
    · trivial
  | loadH2v2 c x =>
    refine .inl ⟨_, rfl, load_frame (.h2v2 c x.toNat) s, fun h => (load_codes (.h2v2 c x.toNat) h).buffers, fun _ _ => ?_⟩
    unfold uopLoadH2v2; split
    · rfl
    · trivial
  | fdct => exact .inl ⟨uopFdct s, rfl, rfl, fun h => (uopFdct_codes h).buffers, fun _ _ => rfl⟩
  | quantZz t => exact .inl ⟨uopQuantZz t s, rfl, rfl, fun h => (uopQuantZz_codes t h).buffers, fun _ _ => rfl⟩
  | encDc c t => exact .inl ⟨_, rfl, uopEncDc_frame c t s, fun h => (uopEncDc_codes c t h).buffers, fun _ h => (h c t rfl).elim⟩
  | encAc t => exact .inl ⟨_, rfl, (uopEncAc_frame t s).mono fun _ _ => RunOnly.coding,
      fun h => (uopEncAc_codes t h).buffers, fun _ _ => (uopEncAc_frame t s).mono fun _ _ => RunOnly.pred⟩
  | putBits l v => exact .inl ⟨_, rfl, wr (appendBits_frame _ _ s) (few _ _)⟩
  | padFinal => exact .inl ⟨_, rfl, wr (appendBits_frame _ _ s) (few _ _)⟩
  | flush => exact .inl ⟨_, rfl, wr (flushBuffer_frame s) fun _ => flushBuffer_buffers s⟩
  | outByte b => exact .inl ⟨_, rfl, wr (obAppend_frame b s) fun h => (obAppend_codes b h).buffers⟩
  | buildQt t => exact .inr (.inr (.inl ⟨t, rfl⟩))
  | buildHt k t => exact .inr (.inr (.inr ⟨k, t, rfl⟩))
  | emitSoi => exact .inl ⟨_, rfl, wr (rawBytes_frame _ s) (raw _)⟩
  | emitApp0 => exact .inl ⟨_, rfl, wr (rawBytes_frame _ s) (raw _)⟩
  | emitDqt t => exact .inl ⟨_, rfl, wr (rawBytes_frame _ s) (raw _)⟩
  | emitSof0 => exact .inl ⟨_, rfl, wr (rawBytes_frame _ s) (raw _)⟩
  | emitDht k t => exact .inl ⟨_, rfl, wr (rawBytes_frame _ s) (raw _)⟩
  | emitSos => exact .inl ⟨_, rfl, wr (rawBytes_frame _ s) (raw _)⟩
  | emitEoi => exact .inl ⟨_, rfl, wr (rawBytes_frame _ s) (raw _)⟩
  | processMcuRow => exact .inl ⟨_, rfl, uopProcessMcuRow_frame s, fun h => (uopProcessMcuRow_codes h).buffers, fun h _ => (h rfl).elim⟩

end Sys2Proof.Machine
end

