-- ==== Sys2Proof/Laws/PerInstr.lean ====
section
/-! SUPPORT. Statements made per instruction. Family `CommandWord`: the top bit of an instruction's word tells the host commands
from the unit operations (R121, R122, R126, R127). -/

namespace Sys2Proof.Laws.CommandWord

/-- Bit 31 of the word is 0 exactly for the host commands. -/
def Statement (i : Instr) : Prop := (encode i).msb = !i.isHostCommand

theorem bare_msb (op : BitVec 8) : (Encode.bare op).msb = op.msb := by
  unfold Encode.bare
  rw [BitVec.msb_append]
  rfl

theorem u1_msb (op : BitVec 8) (c : BitVec 2) (k t : BitVec 1) (r : BitVec 4) (x : BitVec 16) :
    (Encode.u1 op c k t r x).msb = op.msb := by
  unfold Encode.u1
  simp only [BitVec.msb_append]
  rfl

theorem nop : Statement .nop := bare_msb _
theorem init : Statement .init := bare_msb _
theorem feed : Statement .feed := bare_msb _
theorem finish : Statement .finish := bare_msb _
theorem deinit : Statement .deinit := bare_msb _
theorem convRgbY (r : BitVec 4) : Statement (.convRgbY r) := u1_msb _ _ _ _ _ _
theorem convRgbYcc (r : BitVec 4) : Statement (.convRgbYcc r) := u1_msb _ _ _ _ _ _
theorem convGrayY (r : BitVec 4) : Statement (.convGrayY r) := u1_msb _ _ _ _ _ _
theorem convGrayYcc (r : BitVec 4) : Statement (.convGrayYcc r) := u1_msb _ _ _ _ _ _
theorem padRight (r : BitVec 4) : Statement (.padRight r) := u1_msb _ _ _ _ _ _
theorem padBottom (r : BitVec 4) : Statement (.padBottom r) := u1_msb _ _ _ _ _ _
theorem loadFull (c : Comp) (r : BitVec 4) (x : BitVec 16) : Statement (.loadFull c r x) := u1_msb _ _ _ _ _ _
theorem loadH2v1 (c : Comp) (x : BitVec 16) : Statement (.loadH2v1 c x) := u1_msb _ _ _ _ _ _
theorem loadH2v2 (c : Comp) (x : BitVec 16) : Statement (.loadH2v2 c x) := u1_msb _ _ _ _ _ _
theorem fdct : Statement .fdct := bare_msb _
theorem quantZz (t : TableId) : Statement (.quantZz t) := u1_msb _ _ _ _ _ _
theorem encDc (c : Comp) (t : TableId) : Statement (.encDc c t) := u1_msb _ _ _ _ _ _
theorem encAc (t : TableId) : Statement (.encAc t) := u1_msb _ _ _ _ _ _
theorem putBits (l : BitVec 5) (v : BitVec 16) : Statement (.putBits l v) := by
  unfold Statement encode Encode.u2
  simp only [BitVec.msb_append]
  rfl
theorem padFinal : Statement .padFinal := bare_msb _
theorem flush : Statement .flush := bare_msb _
theorem outByte (b : Byte) : Statement (.outByte b) := by
  unfold Statement encode Encode.u3
  simp only [BitVec.msb_append]
  rfl
theorem buildQt (t : TableId) : Statement (.buildQt t) := u1_msb _ _ _ _ _ _
theorem buildHt (k : HuffClass) (t : TableId) : Statement (.buildHt k t) := u1_msb _ _ _ _ _ _
theorem emitSoi : Statement .emitSoi := bare_msb _
theorem emitApp0 : Statement .emitApp0 := bare_msb _
theorem emitDqt (t : TableId) : Statement (.emitDqt t) := u1_msb _ _ _ _ _ _
theorem emitSof0 : Statement .emitSof0 := bare_msb _
theorem emitDht (k : HuffClass) (t : TableId) : Statement (.emitDht k t) := u1_msb _ _ _ _ _ _
theorem emitSos : Statement .emitSos := bare_msb _
theorem emitEoi : Statement .emitEoi := bare_msb _
theorem processMcuRow : Statement .processMcuRow := bare_msb _

end Sys2Proof.Laws.CommandWord
end

