-- ==== Sys2Proof/Tests/Slice0.lean ====
section
/-! SUPPORT. Tests. The expected results are the spec's: the words are written out from the formats of 30_encoding.md, the values
are those of 95_test_vectors.md (each test names its vector) or hand calculation from the rule it names. After them, for every
statement with hypotheses, a concrete state and operands that meet them. -/

namespace Sys2Proof.Tests

open Sys2Proof Sys2Proof.Machine

-- One theorem after another: elaborating these in parallel takes more memory than the check allows.
set_option Elab.async false

/-! ### Well-formed terms -/

/-- The one check: a PUT_BITS length above 16 is ill-formed (R123). -/
theorem test_illformed_length : Instr.wellFormed (.putBits 17#5 0#16) = false ∧ Instr.wellFormed (.putBits 31#5 0#16) = false ∧
    Instr.wellFormed (.putBits 16#5 0#16) = true := by decide

/-! ### Decoding: each constructor, from a word written out from its format -/

/-- Format H (R121, R126): OP in [31:24], zeros below. -/
theorem test_decode_commands :
    decode 0b00000000000000000000000000000000#32 = .ok .nop ∧ decode 0b00000001000000000000000000000000#32 = .ok .init ∧
    decode 0b00000010000000000000000000000000#32 = .ok .feed ∧ decode 0b00000011000000000000000000000000#32 = .ok .finish ∧
    decode 0b00000100000000000000000000000000#32 = .ok .deinit := ⟨rfl, rfl, rfl, rfl, rfl⟩

/-- Format U1 with R in [19:16] (R122, R127): the words of P1, P2 and P4. -/
theorem test_decode_rows :
    decode 0x80030000#32 = .ok (.convRgbY 3#4) ∧ decode 0x81070000#32 = .ok (.convRgbYcc 7#4) ∧
    decode 0x82050000#32 = .ok (.convGrayY 5#4) ∧ decode 0x830F0000#32 = .ok (.convGrayYcc 15#4) ∧
    decode 0x84010000#32 = .ok (.padRight 1#4) ∧ decode 0x850F0000#32 = .ok (.padBottom 15#4) := ⟨rfl, rfl, rfl, rfl, rfl, rfl⟩

/-- Format U1 with C in [23:22], R in [19:16], X in [15:0] (R122): 0x86 | C=2 | R=1 | X=0x1234, and the chroma loads. -/
theorem test_decode_loads :
    decode 0b10000110100000010001001000110100#32 = .ok (.loadFull .cr 1#4 0x1234#16) ∧
    decode 0b10000111010000001000000000000001#32 = .ok (.loadH2v1 .cb 0x8001#16) ∧
    decode 0b10001000100000000000000000000010#32 = .ok (.loadH2v2 .cr 2#16) := ⟨rfl, rfl, rfl⟩

/-- Format U1 with T in [20], and C or K (R122): the words of P1 and P2. -/
theorem test_decode_transform_and_coding :
    decode 0x89000000#32 = .ok .fdct ∧ decode 0x8A100000#32 = .ok (.quantZz .chroma) ∧
    decode 0b10001011010100000000000000000000#32 = .ok (.encDc .cb .chroma) ∧ decode 0x8C000000#32 = .ok (.encAc .luma) :=
  ⟨rfl, rfl, rfl, rfl⟩

/-- Formats U2 and U3 (R123, R124): `PUT_BITS L=7 V=0x7B` of P2, a 16-bit append, and the other writer operations. -/
theorem test_decode_writer :
    decode 0x8D07007B#32 = .ok (.putBits 7#5 0x007B#16) ∧ decode 0b10001101000100001111111111111111#32 = .ok (.putBits 16#5 0xFFFF#16) ∧
    decode 0x8E000000#32 = .ok .padFinal ∧ decode 0x8F000000#32 = .ok .flush ∧
    decode 0b10010000000000000000000011011001#32 = .ok (.outByte 0xD9#8) := ⟨rfl, rfl, rfl, rfl, rfl⟩

/-- K in [21], T in [20] (R122): the words of INIT in P1. -/
theorem test_decode_tables :
    decode 0x91100000#32 = .ok (.buildQt .chroma) ∧ decode 0x92200000#32 = .ok (.buildHt .ac .luma) ∧
    decode 0x92100000#32 = .ok (.buildHt .dc .chroma) := ⟨rfl, rfl, rfl⟩

/-- The marker operations and PROCESS_MCU_ROW: the words of P1 and P2. -/
theorem test_decode_markers :
    decode 0x93000000#32 = .ok .emitSoi ∧ decode 0x94000000#32 = .ok .emitApp0 ∧ decode 0x95100000#32 = .ok (.emitDqt .chroma) ∧
    decode 0x96000000#32 = .ok .emitSof0 ∧ decode 0x97300000#32 = .ok (.emitDht .ac .chroma) ∧
    decode 0x98000000#32 = .ok .emitSos ∧ decode 0x99000000#32 = .ok .emitEoi ∧ decode 0x9A000000#32 = .ok .processMcuRow :=
  ⟨rfl, rfl, rfl, rfl, rfl, rfl, rfl, rfl⟩

/-- Reserved words (R128, R129): each kind at its edges. -/
theorem test_decode_reserved :
    decode 0x05000000#32 = .error .reservedOpcode ∧ decode 0x7F000000#32 = .error .reservedOpcode ∧
    decode 0x9B000000#32 = .error .reservedOpcode ∧ decode 0xFF000000#32 = .error .reservedOpcode ∧
    decode 0x01000001#32 = .error .nonZeroUnusedField ∧ decode 0x89010000#32 = .error .nonZeroUnusedField ∧
    decode 0x86C00000#32 = .error .reservedComponent ∧ decode 0x8D110000#32 = .error .reservedLength ∧
    decode 0x8D200000#32 = .error .nonZeroUnusedField ∧ decode 0x90000100#32 = .error .nonZeroUnusedField :=
  ⟨rfl, rfl, rfl, rfl, rfl, rfl, rfl, rfl, rfl, rfl⟩

/-- `decodeTableWord` refuses what is no 32-bit word of the table. -/
theorem test_decodeTableWord : decodeTableWord 32 0x8D04000E = some (.putBits 4#5 0xE#16) ∧ decodeTableWord 32 0x05000000 = none := by
  decide

/-! ### Small states and what a test looks at -/

/-- A field of the next state, if there is one. -/
def field {α : Type} (f : State → α) : Host.Outcome State Fault Refusal → Option α
  | .next s => some (f s)
  | .fault _ => none
  | .refused _ => none

/-- The fault, if the outcome is one. -/
def faultOf : Host.Outcome State Fault Refusal → Option Fault
  | .next _ => none
  | .fault f => some f
  | .refused _ => none

theorem fault_of {o : Host.Outcome State Fault Refusal} {f : Fault} (h : faultOf o = some f) : o = .fault f := by
  cases o <;> cases h
  rfl

/-- A sink that accepts its next three transfers. -/
def idle : State := { State.reset with answers := [.accepted, .accepted, .accepted] }

/-- A configured image, as INIT leaves it. -/
def image (w : BitVec 16) (ch : Channels) (ss : Subsamp) : State :=
  { idle with
    ctl := .configured, result := true, conf := ⟨w, 8#16, ch, 50#7, ss, false⟩, huff := builtHuff
    qt := ⟨quantTable 50 false .luma, quantTable 50 false .chroma⟩ }

/-- An image with the scanline `bytes` in the scanline buffer. -/
def scanline (w : BitVec 16) (ch : Channels) (ss : Subsamp) (bytes : List Byte) : State :=
  { image w ch ss with slb := bytes.zipIdx.map fun p => (p.2, p.1) }

/-- The samples of columns 0 up of component `c`, row `r`. -/
def samples (c : Comp) (r n : Nat) (s : State) : List (Option Byte) := (List.range n).map (s.stored c r)

/-- A block with the listed entries, zeros after them. -/
def block (entries : List Int) : Block := Vector.ofFn fun k => entries.getD k.val 0

/-! ### The host window and the commands -/

/-- P3, step 1: INIT from reset finds W = 0; STATUS then reads 0x00000010. -/
theorem test_init_invalid : field State.status (step (idle.withFetchWord 32 0x01000000)) = some 0x00000010#32 := by decide

/-- P2: INIT sends V-HDR-GRAY (here up to the first DHT) in one transfer of 328 bytes; STATUS reads 0x00000009. -/
theorem test_init : field (fun t => (t.status, t.sinkLog.map fun x => (x.bytes.length, x.ok, x.bytes.take 102)))
    (exec .init { idle with cfgDim := 0x00080008#32, cfgMode := 0x00000132#32 }) =
      some (0x00000009#32, [(328, true,
        [0xFF, 0xD8, 0xFF, 0xE0, 0x00, 0x10, 0x4A, 0x46, 0x49, 0x46, 0x00, 0x01, 0x01, 0x00, 0x00, 0x01] ++
        [0x00, 0x01, 0x00, 0x00, 0xFF, 0xDB, 0x00, 0x43, 0x00, 0x10, 0x0B, 0x0C, 0x0E, 0x0C, 0x0A, 0x10] ++
        [0x0E, 0x0D, 0x0E, 0x12, 0x11, 0x10, 0x13, 0x18, 0x28, 0x1A, 0x18, 0x16, 0x16, 0x18, 0x31, 0x23] ++
        [0x25, 0x1D, 0x28, 0x3A, 0x33, 0x3D, 0x3C, 0x39, 0x33, 0x38, 0x37, 0x40, 0x48, 0x5C, 0x4E, 0x40] ++
        [0x44, 0x57, 0x45, 0x37, 0x38, 0x50, 0x6D, 0x51, 0x57, 0x5F, 0x62, 0x67, 0x68, 0x67, 0x3E, 0x4D] ++
        [0x71, 0x79, 0x70, 0x64, 0x78, 0x5C, 0x65, 0x67, 0x63, 0xFF, 0xC0, 0x00, 0x0B, 0x08, 0x00, 0x08] ++
        [0x00, 0x08, 0x01, 0x01, 0x11, 0x00])]) := by decide +kernel

/-- P2: after the first FEED of the gray ramp STATUS reads 0x0000010A, and row 0 holds it. -/
theorem test_feed : field (fun t => (t.status, samples .y 0 8 t))
    (exec .feed (scanline 8#16 .one .grayscale [0, 1, 2, 3, 4, 5, 6, 7])) =
      some (0x0000010A#32, [0, 1, 2, 3, 4, 5, 6, 7].map some) := by decide +kernel

/-- P2: the eighth FEED codes the ramp (V-HUFF-BLK-1): `E3 D6 CF DA` and, by hand from its 34 bits, `10` pending. -/
theorem test_feed_codes : field (fun t => (t.status, t.ob, t.acc, t.pred.y))
    (exec .feed
      { (List.range 7).foldl (fun t r => t.writeRow .y r 0 ((List.range 8).map fun x => byte (8 * r + x)))
          (scanline 8#16 .one .grayscale [56, 57, 58, 59, 60, 61, 62, 63]) with ctl := .accumulating, rows := 7 }) =
      some (0x0000000A#32, [0xE3, 0xD6, 0xCF, 0xDA], [true, false], -48) := by decide +kernel

/-- P8: FINISH with no row sends `FF D9` alone; STATUS reads 0x0000000B. -/
theorem test_finish : field (fun t => (t.status, t.sinkLog)) (exec .finish (image 8#16 .one .grayscale)) =
    some (0x0000000B#32, [⟨[0xFF, 0xD9], true⟩]) := by decide +kernel

/-- P3, step 9: DEINIT in FAILED; STATUS reads 0x00000008. -/
theorem test_deinit : field State.status (exec .deinit { idle with ctl := .failed, err := .sinkWriteFailure }) = some 0x00000008#32 := by
  decide

/-- P3, step 8: NOP in FAILED leaves STATUS at 0x00000034. -/
theorem test_nop : field State.status (exec .nop { idle with ctl := .failed, err := .sinkWriteFailure }) = some 0x00000034#32 := by
  decide

/-- P3, step 2: a CMD write of 0x05000000; STATUS reads 0x00000040. -/
theorem test_illegal_command : field State.status (step (idle.withFetchWord 32 0x05000000)) = some 0x00000040#32 := by decide

/-- R84: a word write and a byte read of the scanline buffer, little-endian, by hand. -/
theorem test_slb_bytes :
    field (fun t => (field (fun u => u.hostReads) (hostAccess (.read .byte 0x40006#19) t)))
      (hostAccess (.write .word 0x40004#19 0x11223344#32) idle) = some (some [0x00000022#32]) := by decide

/-! ### Samples -/

/-- V-CC: (200, 100, 50) gives Y 124. -/
theorem test_convRgbY : field (samples .y 2 1) (exec (.convRgbY 2#4) (scanline 1#16 .three .grayscale [200, 100, 50])) =
    some [some 124] := by decide +kernel

/-- V-CC: (255, 0, 0) gives (76, 85, 255), where Cr saturates. -/
theorem test_convRgbYcc :
    field (fun t => (t.stored .y 0 0, t.stored .cb 0 0, t.stored .cr 0 0))
      (exec (.convRgbYcc 0#4) (scanline 1#16 .three .s444 [255, 0, 0])) = some (some 76, some 85, some 255) := by decide +kernel

/-- V-CC-GRAY: 0x37 gives Y 0x37. -/
theorem test_convGrayY : field (samples .y 7 1) (exec (.convGrayY 7#4) (scanline 1#16 .one .grayscale [0x37])) = some [some 0x37] := by
  decide +kernel

/-- V-CC-GRAY: 0x37 gives (0x37, 0x80, 0x80). -/
theorem test_convGrayYcc :
    field (fun t => (t.stored .y 0 0, t.stored .cb 0 0, t.stored .cr 0 0))
      (exec (.convGrayYcc 0#4) (scanline 1#16 .one .s444 [0x37])) = some (some 0x37, some 0x80, some 0x80) := by decide +kernel

/-- R155 by hand: W = 6, WPAD = 8; columns 6 and 7 take column 5. -/
theorem test_padRight : field (samples .y 0 9)
    (exec (.padRight 0#4) ((image 6#16 .one .grayscale).writeRow .y 0 0 [1, 2, 3, 4, 5, 6])) =
      some ([1, 2, 3, 4, 5, 6, 6, 6].map some ++ [none]) := by decide +kernel

/-- R359 by hand: with two rows buffered, row 5 copies row 1. -/
theorem test_padBottom : field (samples .y 5 8)
    (exec (.padBottom 5#4) { (image 8#16 .one .grayscale).writeRow .y 1 0 [9, 8, 7, 6, 5, 4, 3, 2] with rows := 2 }) =
      some ([9, 8, 7, 6, 5, 4, 3, 2].map some) := by decide +kernel

/-- V-BS-1: samples 0 and 255 give -128 and 127. -/
theorem test_loadFull : field (fun t => (t.blkS[0], t.blkS[1]))
    (exec (.loadFull .y 0#4 0#16) ((image 8#16 .one .grayscale).writeRow .y 0 0 [0, 255])) = some (-128, 127) := by decide +kernel

/-- V-BS-2: 1, 2, 1, 2 on row 0 gives -127 and -126 (bias 2 at the odd position). -/
theorem test_loadH2v1 : field (fun t => (t.blkS[0], t.blkS[1]))
    (exec (.loadH2v1 .cb 0#16) ((image 16#16 .three .s422).writeRow .cb 0 0 [1, 2, 1, 2])) = some (-127, -126) := by decide +kernel

/-- V-BS-3: 1, 2 over 3, 4 gives -126 at an even position and -125 at an odd one. -/
theorem test_loadH2v2 : field (fun t => (t.blkS[0], t.blkS[1]))
    (exec (.loadH2v2 .cr 0#16) (((image 16#16 .three .s420).writeRow .cr 0 0 [1, 2, 1, 2]).writeRow .cr 1 0 [3, 4, 3, 4])) =
      some (-126, -125) := by decide +kernel

/-! ### Transform, quantizer, coder -/

/-- V-DCT-2: an impulse of -128 gives P[0] = -16 and P[9] = -31. -/
theorem test_fdct : field (fun t => (t.blkP[0], t.blkP[9])) (exec .fdct { idle with blkS := block [-128] }) = some (-16, -31) := by
  decide +kernel

/-- V-Q-RAMP: P[0] = -772, P[1] = -18, P[8] = -146 at Q50 give Z = -48, -2, -12. -/
theorem test_quantZz : field (fun t => (t.blkZ[0], t.blkZ[1], t.blkZ[2]))
    (exec (.quantZz .luma) { image 8#16 .one .grayscale with blkP := block [-772, -18, 0, -2, 0, 0, 0, 0, -146] }) =
      some (-48, -2, -12) := by decide +kernel

/-- V-HUFF-BLK-1: the DC difference -48 is `1110 001111`, and -48 becomes the predictor. -/
theorem test_encDc : field (fun t => (t.ob, t.acc, t.pred.y)) (exec (.encDc .y .luma) { image 8#16 .one .grayscale with blkZ := block [-48] }) =
    some ([0xE3], [true, true], -48) := by decide +kernel

/-- V-HUFF-BLK-8: Z17 = 3 in the chroma tables is `1111111010 100 11 00`. -/
theorem test_encAc : field (fun t => (t.ob, t.acc))
    (exec (.encAc .chroma) { image 8#16 .one .grayscale with blkZ := block (List.replicate 17 0 ++ [3]) }) =
      some ([0xFE, 0xA6], [false]) := by decide +kernel

/-- V-BS-1, V-HUFF-BLK-2: a block of samples 128 codes to `00 1010`. -/
theorem test_processMcuRow : field (fun t => (t.ob, t.acc, t.pred.y)) (exec .processMcuRow
    ((List.range 8).foldl (fun t r => t.writeRow .y r 0 (List.replicate 8 128)) (image 8#16 .one .grayscale))) =
      some ([], [false, false, true, false, true, false], 0) := by decide +kernel

/-- V-Q-TAB: the Q50 luma table begins 16 11 12 14 and ends 101 103 99. -/
theorem test_buildQt : field (fun t => ((t.qt.luma).toList.take 4, (t.qt.luma).toList.drop 61))
    (exec (.buildQt .luma) { idle with conf := ⟨8#16, 8#16, .one, 50#7, .grayscale, false⟩ }) =
      some ([16, 11, 12, 14], [101, 103, 99]) := by decide +kernel

/-- V-HUFF-PREFIX: AC luma EOB is `1010` and ZRL `11111111001`. -/
theorem test_buildHt : field (fun t => (codeBits (t.huffCode .ac .luma 0x00), codeBits (t.huffCode .ac .luma 0xF0)))
    (exec (.buildHt .ac .luma) idle) =
      some ([true, false, true, false], [true, true, true, true, true, true, true, true, false, false, true]) := by decide +kernel

/-! ### The bit writer and the marker emitter -/

/-- V-BW-4: 16 one bits give `FF 00 FF 00`. -/
theorem test_putBits : field (fun t => (t.ob, t.acc)) (exec (.putBits 16#5 0xFFFF#16) idle) = some ([0xFF, 0x00, 0xFF, 0x00], []) := by
  decide +kernel

/-- V-BW-4c: only the low three bits of 0x1F are appended. -/
theorem test_putBits_low : field (fun t => (t.ob, t.acc)) (exec (.putBits 3#5 0x1F#16) idle) = some ([], [true, true, true]) := by
  decide +kernel

/-- V-BW-8: with `11` pending, PAD_FINAL gives `FF 00` and leaves one 1 bit. -/
theorem test_padFinal : field (fun t => (t.ob, t.acc)) (exec .padFinal { idle with acc := [true, true] }) = some ([0xFF, 0x00], [true]) := by
  decide +kernel

/-- V-BW-FLUSH: `FF D9` in the buffer is one transfer. -/
theorem test_flush : field (fun t => (t.ob, t.sinkLog)) (exec .flush { idle with ob := [0xFF, 0xD9] }) =
    some ([], [⟨[0xFF, 0xD9], true⟩]) := by decide +kernel

/-- R91, R404: a refused transfer; STATUS reads 0x00000034, as in P7. -/
theorem test_flush_refused : field State.status (exec .flush { idle with ob := [0xFF, 0xD9], answers := [.rejected] }) = some 0x00000034#32 := by
  decide +kernel

/-- R274: one byte more, no transfer. -/
theorem test_outByte : field (fun t => (t.ob, t.sinkLog)) (exec (.outByte 0xD9#8) { idle with ob := [0xFF] }) = some ([0xFF, 0xD9], []) := by
  decide +kernel

/-- V-BW-BUF: the byte that makes 2048 sends them all. -/
theorem test_outByte_full : field (fun t => (t.ob, t.sinkLog.map fun x => (x.bytes.length, x.ok)))
    (exec (.outByte 0xFF#8) { idle with ob := List.replicate 2047 0 }) = some ([], [(2048, true)]) := by decide +kernel

/-- V-HDR-GRAY and V-HDR-420: SOI, SOF0, SOS and EOI. -/
theorem test_emit_small :
    field (·.ob) (exec .emitSoi idle) = some [0xFF, 0xD8] ∧
    field (·.ob) (exec .emitSof0 { idle with conf := ⟨17#16, 3#16, .three, 75#7, .s420, false⟩ }) =
      some [0xFF, 0xC0, 0x00, 0x11, 0x08, 0x00, 0x03, 0x00, 0x11, 0x03, 0x01, 0x22, 0x00, 0x02, 0x11, 0x01, 0x03, 0x11, 0x01] ∧
    field (·.ob) (exec .emitSos idle) = some [0xFF, 0xDA, 0x00, 0x08, 0x01, 0x01, 0x00, 0x00, 0x3F, 0x00] ∧
    field (·.ob) (exec .emitEoi idle) = some [0xFF, 0xD9] := by decide +kernel

/-- V-HDR-GRAY: APP0, and the first bytes of DQT 0 and DHT DC 0. -/
theorem test_emit_tables :
    field (·.ob) (exec .emitApp0 idle) =
      some [0xFF, 0xE0, 0x00, 0x10, 0x4A, 0x46, 0x49, 0x46, 0x00, 0x01, 0x01, 0x00, 0x00, 0x01, 0x00, 0x01, 0x00, 0x00] ∧
    field (fun t => t.ob.take 9) (exec (.emitDqt .luma) (image 8#16 .one .grayscale)) =
      some [0xFF, 0xDB, 0x00, 0x43, 0x00, 0x10, 0x0B, 0x0C, 0x0E] ∧
    field (·.ob) (exec (.emitDht .dc .luma) idle) =
      some ([0xFF, 0xC4, 0x00, 0x1F, 0x00, 0x00, 0x01, 0x05, 0x01, 0x01, 0x01, 0x01, 0x01, 0x01, 0x00, 0x00, 0x00, 0x00] ++
        [0x00, 0x00, 0x00, 0x00, 0x01, 0x02, 0x03, 0x04, 0x05, 0x06, 0x07, 0x08, 0x09, 0x0A, 0x0B]) := by decide +kernel

/-! ### Witnesses: for every statement with hypotheses, a state and operands that meet them

Each theorem is named after its statement, and shows each clause's hypotheses at a boundary of its range. -/

/-- A row that completes the MCU row of an 8-row MCU: seven rows are in. -/
def sevenRows : State := { scanline 8#16 .one .grayscale [0, 1, 2, 3, 4, 5, 6, 7] with ctl := .accumulating, rows := 7 }

theorem witness_DecodeOfEncodeIsTheInstruction : Instr.wellFormed (.putBits 16#5 0xFFFF#16) = true := by decide

theorem witness_EncodeOfDecodeIsTheWord : decode 0x8D10FFFF#32 = .ok (.putBits 16#5 0xFFFF#16) := rfl

theorem witness_ReservedWordsDecodeToNothing :
    (5 ≤ ((0x05FFFFFF#32 : Word).extractLsb' 24 8).toNat ∧ ((0x7F000000#32 : Word).extractLsb' 24 8).toNat < 0x80 ∧
      0x9A < ((0x9B000000#32 : Word).extractLsb' 24 8).toNat) ∧
    (((0x04000001#32 : Word).extractLsb' 24 8).toNat ≤ 4 ∧ (0x04000001#32 : Word).extractLsb' 0 24 ≠ 0#24) ∧
    (((0x8BC00000#32 : Word).extractLsb' 24 8).toNat ∈ [0x86, 0x87, 0x88, 0x8B] ∧
      (0x8BC00000#32 : Word).extractLsb' 22 2 = 3#2) ∧
    (((0x8D110000#32 : Word).extractLsb' 24 8).toNat = 0x8D ∧ 16 < ((0x8D110000#32 : Word).extractLsb' 16 5).toNat) := by
  decide

theorem witness_StepRunsTheDecodedInstruction :
    ({ idle with issue := some 0x9A000000#32 }.issue = some 0x9A000000#32 ∧ decode 0x9A000000#32 = .ok .processMcuRow) ∧
    (idle.issue = none ∧
      { idle with inputs := [.access (.write .word 0x000#19 0x04000000#32)] }.inputs =
        .access (.write .word 0x000#19 0x04000000#32) :: [] ∧
      decode 0x04000000#32 = .ok .deinit ∧ Instr.isHostCommand .deinit = true) ∧
    Instr.wellFormed (.putBits 16#5 0#16) = true := ⟨⟨rfl, rfl⟩, ⟨rfl, rfl, rfl, rfl⟩, rfl⟩

theorem witness_StepServesTheNextInputElseWaits :
    idle.issue = none ∧ { idle with inputs := [.access (.read .word 0x004#19)] }.inputs = .access (.read .word 0x004#19) :: [] ∧
    { idle with inputs := [.reset] }.inputs = .reset :: [] ∧ idle.inputs = [] := ⟨rfl, rfl, rfl, rfl⟩

theorem witness_ResetLeavesTheStatedValues :
    (∃ t, t = State.reset) ∧ ∃ t, t = platformReset sevenRows := ⟨⟨_, rfl⟩, ⟨_, rfl⟩⟩

theorem witness_RegisterReadsAnswerTheirFields : { idle with rows := 31 }.rows < 32 := by decide

/-- The first byte, and the last word, of the scanline buffer. -/
theorem witness_ScanlineBufferAccessesAreLittleEndian :
    ((0x40000#19).toNat % Width.byte.bytes = 0 ∧ 0x40000 ≤ (0x40000#19).toNat ∧
      (0x40000#19).toNat + Width.byte.bytes ≤ 0x40000 + 3 * idle.cfg.maxPaddedWidth) ∧
    ((0x6FFFC#19).toNat % Width.word.bytes = 0 ∧ 0x40000 ≤ (0x6FFFC#19).toNat ∧
      (0x6FFFC#19).toNat + Width.word.bytes ≤ 0x40000 + 3 * idle.cfg.maxPaddedWidth) := by decide

/-- A misaligned halfword and word at reserved offsets, a halfword of the last register, a misaligned last byte pair, a word over the end of a buffer of 3 * 17 bytes, and the first
offsets of both reserved ranges. -/
theorem witness_UndefinedAccessesAreRefusedAndReservedOnesIgnored :
    ((0x00011#19).toNat % Width.half.bytes ≠ 0 ∧ (0x7FFFE#19).toNat % Width.word.bytes ≠ 0) ∧
    ((0x0000E#19).toNat < 0x010 ∧ Width.half ≠ .word) ∧ ((0x00001#19).toNat < 0x010 ∧ (0x00001#19).toNat % 4 ≠ 0) ∧
    (0x40000 ≤ (0x6FFFF#19).toNat ∧ (0x6FFFF#19).toNat < 0x40000 + 3 * idle.cfg.maxPaddedWidth ∧
      (0x6FFFF#19).toNat % Width.half.bytes ≠ 0) ∧
    (0x40000 ≤ (0x40030#19).toNat ∧ (0x40030#19).toNat < 0x40000 + 3 * 17 ∧
      0x40000 + 3 * { idle with cfg := ⟨17, 2, 0⟩ }.cfg.maxPaddedWidth < (0x40030#19).toNat + Width.word.bytes) ∧
    ((0x00010#19).toNat % Width.byte.bytes = 0 ∧ 0x010 ≤ (0x00010#19).toNat ∧ (0x00010#19).toNat < 0x40000) ∧
    ((0x70000#19).toNat % Width.word.bytes = 0 ∧ 0x40000 + 3 * idle.cfg.maxPaddedWidth ≤ (0x70000#19).toNat) := by decide

theorem witness_AccessesButCommandsAreIdempotent :
    Memory.wf sevenRows.slb ∧ (∃ t, hostAccess (.read .byte 0x40000#19) sevenRows = .next t) ∧
    (0x6FFFC#19).toNat ≠ 0 ∧ ∃ t, hostAccess (.write .word 0x6FFFC#19 0xFFFFFFFF#32) sevenRows = .next t :=
  ⟨by decide, ⟨_, rfl⟩, by decide, ⟨_, rfl⟩⟩

theorem witness_IllegalCommandOnlyReportsItself :
    (0x05000000#32 : Word) ∉ [0x00000000#32, 0x01000000#32, 0x02000000#32, 0x03000000#32, 0x04000000#32] ∧
    (0x00000001#32 : Word) ∉ [0x00000000#32, 0x01000000#32, 0x02000000#32, 0x03000000#32, 0x04000000#32] ∧
    (0x80000000#32 : Word) ∉ [0x00000000#32, 0x01000000#32, 0x02000000#32, 0x03000000#32, 0x04000000#32] := by decide

theorem row_empty {s : State} (h : s.rb = State.reset.rb) (c : Comp) (r : Nat) : s.row c r = [] := by
  unfold State.row
  have : s.rb.get c = Vector.replicate 16 [] := by rw [h]; cases c <;> rfl
  rw [this]
  by_cases hr : r < 16
  · simp [hr]
  · simp [hr]

theorem canonical_image (bytes : List Byte) (h : Memory.wf (scanline 8#16 .one .grayscale bytes).slb)
    (hb : ∀ p ∈ (scanline 8#16 .one .grayscale bytes).slb, p.1 < slbSize Config.default) (i : List Input) :
    State.Canonical { scanline 8#16 .one .grayscale bytes with inputs := i } where
  slb_wf := h
  slb_bound := hb
  rb_wf c r := by
    rw [show State.row { scanline 8#16 .one .grayscale bytes with inputs := i } c r = [] from row_empty rfl c r]
    exact List.Pairwise.nil
  rb_bound c r p hp := by
    rw [show State.row { scanline 8#16 .one .grayscale bytes with inputs := i } c r = [] from row_empty rfl c r] at hp
    cases hp
  ob := (by decide : ([] : List Byte).length < obSize)
  acc _ := (by decide : ([] : List Bool).length < 8)
  cfgMode := (by decide : 0x00003355#32 &&& ~~~cfgModeMask = 0#32)

theorem hostDriven_image (bytes : List Byte) (i : List Input) :
    State.HostDriven { scanline 8#16 .one .grayscale bytes with inputs := i } where
  noIssue := rfl
  rows_open _ := (by decide : 0 < Subsamp.grayscale.mcuH)
  rows_closed _ := rfl
  configured_rows _ := rfl
  finalized_ob _ := rfl
  image _ := ⟨(by decide : 1 ≤ (8#16).toNat), (by decide : 1 ≤ (8#16).toNat), (by decide : 1 ≤ (50#7).toNat),
    (by decide : (50#7).toNat ≤ 100), rfl, fun t => by cases t <;> rfl⟩
  width _ := (by decide : paddedWidth 8 .grayscale ≤ 65536)
  bias := (by decide : 2 ≤ 2)
  pred c := by cases c <;> exact (⟨by decide, by decide⟩ : dcInRange 0)

theorem witness_StepKeepsTheCanonicalForm :
    State.Canonical { scanline 8#16 .one .grayscale [1, 2] with inputs := [.reset] } ∧
    ∃ t, step { scanline 8#16 .one .grayscale [1, 2] with inputs := [.reset] } = .next t :=
  ⟨canonical_image _ (by decide) (by decide) _, ⟨_, rfl⟩⟩

theorem witness_StepKeepsTheHostDrivenInvariant :
    State.HostDriven { scanline 8#16 .one .grayscale [1, 2] with inputs := [.reset] } ∧
    State.Canonical { scanline 8#16 .one .grayscale [1, 2] with inputs := [.reset] } ∧
    ∃ t, step { scanline 8#16 .one .grayscale [1, 2] with inputs := [.reset] } = .next t :=
  ⟨hostDriven_image _ _, canonical_image _ (by decide) (by decide) _, ⟨_, rfl⟩⟩

/-- A FEED whose scanline has one byte too few. -/
theorem witness_HostDrivenStepsFaultOnlyOnUnwrittenSourceOrSilentSink :
    (let s := { scanline 8#16 .one .grayscale [1, 2, 3, 4, 5, 6, 7] with inputs := [.access (.write .word 0x000#19 0x02000000#32)] }
     s.HostDriven ∧ s.Canonical ∧ step s = .fault .slbByteNeverWritten) :=
  ⟨hostDriven_image _ _, canonical_image _ (by decide) (by decide) _, fault_of (by decide +kernel)⟩

theorem witness_InstructionsWriteOnlyTheirState : ∃ t, exec .fdct sevenRows = .next t := ⟨_, rfl⟩

theorem witness_ConfigurationRegistersMatterOnlyToInit : Instr.feed ≠ .init := by decide

theorem witness_TransfersAreBoundedAndStopAtARefusal :
    { idle with ob := List.replicate 2047 0, answers := [.rejected] }.ob.length < 2048 ∧
    (field (fun t => (t.ctl, t.sinkLog.map (·.ok))) (exec (.outByte 0#8) { idle with ob := List.replicate 2047 0, answers := [.rejected] }) =
      some (.failed, [false])) := ⟨by decide +kernel, by decide +kernel⟩

theorem witness_FeedTransfersOnlyFullBuffers : idle.ob.length < 2048 ∧ ∃ t, exec .feed idle = .next t := ⟨by decide, ⟨_, rfl⟩⟩

theorem witness_ImageDependsOnlyOnItsOwnRows :
    Instr.feed ∈ [.feed, .finish] ∧ SameImage idle { idle with blkS := block [1], hostReads := [0#32] } ∧
    ∃ t, exec .feed idle = .next t :=
  ⟨by decide, ⟨rfl, rfl, rfl, rfl, rfl, rfl, rfl, rfl, rfl, rfl, rfl, rfl, rfl, fun _ _ _ _ _ _ => rfl⟩, ⟨_, rfl⟩⟩

/-- Two states of different images, and a configuration that passes. -/
theorem witness_InitForgetsTheLastImage :
    (let s := { idle with cfgDim := 0x00080008#32, cfgMode := 0x00000132#32 }
     let s' := { s with ctl := .failed, err := .sinkWriteFailure, ob := [1, 2], acc := [true], pred := ⟨5, 5, 5⟩ }
     s'.cfg = s.cfg ∧ s'.cfgDim = s.cfgDim ∧ s'.cfgMode = s.cfgMode ∧ s'.slb = s.slb ∧ s'.answers = s.answers ∧
     s'.draws = s.draws ∧ s'.epoch = s.epoch ∧ field (fun t => decide (t.ctl ≠ .uninit)) (exec .init s) = some true) :=
  ⟨rfl, rfl, rfl, rfl, rfl, rfl, rfl, by decide +kernel⟩

/-- Width 0 with everything else legal; quality 101; and a width one MCU too wide for the capacity. -/
theorem witness_InitReportsTheFirstFailingCheck :
    (State.cfgWidth { idle with cfgDim := 0x00080000#32, cfgMode := 0x00000132#32 }).toNat = 0 ∧
    (State.cfgQuality { idle with cfgDim := 0x00080008#32, cfgMode := 0x00000165#32 }).toNat = 101 ∧
    (let s := { idle with cfg := ⟨16, 2, 0⟩, cfgDim := 0x00080011#32, cfgMode := 0x00000132#32 }
     1 ≤ s.cfgWidth.toNat ∧ 1 ≤ s.cfgHeight.toNat ∧ s.cfgChannels.toNat = 1 ∧ 1 ≤ s.cfgQuality.toNat ∧
     s.cfgQuality.toNat ≤ 100 ∧
     s.cfg.maxPaddedWidth < s.cfgSubsamp.mcuW * ((s.cfgWidth.toNat + s.cfgSubsamp.mcuW - 1) / s.cfgSubsamp.mcuW)) := by decide

/-- The largest width the default capacity takes, at quality 100, accepted and refused. -/
theorem witness_InitBuildsTheTablesAndSendsTheHeader :
    (let s := { idle with cfgDim := 0xFFFFFFFF#32, cfgMode := 0x00003364#32 }
     1 ≤ s.cfgWidth.toNat ∧ 1 ≤ s.cfgHeight.toNat ∧ s.cfgChannels.toNat = Channels.three.bytes ∧ 1 ≤ s.cfgQuality.toNat ∧
     s.cfgQuality.toNat ≤ 100 ∧ paddedWidth s.cfgWidth.toNat s.cfgSubsamp ≤ s.cfg.maxPaddedWidth ∧
     s.nextAnswer = .accepted ∧ State.nextAnswer { s with answers := [.rejected] } = .rejected) := by decide

theorem witness_FeedAndFinishReportBadState : (Instr.finish = .feed ∨ Instr.finish = .finish) ∧
    (idle.ctl = .uninit ∨ idle.ctl = .finalized) := by decide

theorem witness_FailedStateIsPermanentUntilInitOrDeinit :
    (let s := { idle with ctl := .failed, err := .sinkWriteFailure }
     s.ctl = .failed ∧ s.rows = 0) ∧ commandOf 0x05000000#32 = none := by decide

theorem witness_FeedBuffersTheRow :
    (let s := { sevenRows with rows := 6 }
     (s.ctl = .configured ∨ s.ctl = .accumulating) ∧ s.rows + 1 < s.conf.ss.mcuH ∧ s.conf.wpad ≤ s.cfg.maxPaddedWidth) ∧
    State.SourceWritten { sevenRows with rows := 6 } (Channels.one.bytes * 8) :=
  ⟨by decide, by unfold State.SourceWritten; decide⟩

theorem ready_image (n : Nat) : State.CodingReady { scanline 8#16 .one .grayscale [0, 1, 2, 3, 4, 5, 6, 7] with
    ctl := .accumulating, rows := n } where
  width := (by decide : paddedWidth 8 .grayscale ≤ 65536)
  bias := (by decide : 2 ≤ 2)
  quant t i := by cases t <;> exact quantTable_pos _ _ _ i
  huff := rfl
  pred c := by cases c <;> exact (⟨by decide, by decide⟩ : dcInRange 0)
  writer := ⟨(by decide : ([] : List Bool).length < 8), (by decide : ([] : List Byte).length < obSize)⟩

theorem witness_FeedCodesACompleteMcuRow :
    (sevenRows.ctl = .configured ∨ sevenRows.ctl = .accumulating) ∧ sevenRows.rows + 1 = sevenRows.conf.ss.mcuH ∧
    sevenRows.CodingReady ∧ sevenRows.SourceWritten (sevenRows.conf.ch.bytes * sevenRows.conf.w.toNat) ∧
    sevenRows.SinkAccepts sevenRows.conf.rowLoads.length :=
  ⟨by decide, by decide, ready_image 7, by unfold State.SourceWritten; decide, by unfold State.SinkAccepts; decide⟩

theorem witness_FinishWithoutRowsPadsAndEndsTheImage :
    (let s := image 8#16 .one .grayscale
     (s.ctl = .configured ∨ s.ctl = .accumulating) ∧ s.rows = 0 ∧ s.WriterReady ∧ s.SinkAccepts 3) :=
  ⟨by decide, rfl, ⟨by decide, by decide⟩, by unfold State.SinkAccepts; decide⟩

/-- One row in, and all but one. -/
theorem witness_FinishCodesThePartialMcuRow :
    (∀ n ∈ [1, 7],
      (let s : State := { scanline 8#16 .one .grayscale [0, 1, 2, 3, 4, 5, 6, 7] with ctl := .accumulating, rows := n }
       (s.ctl = .configured ∨ s.ctl = .accumulating) ∧ 1 ≤ s.rows ∧ s.rows < s.conf.ss.mcuH)) ∧
    sevenRows.CodingReady ∧
    State.SinkAccepts { sevenRows with answers := List.replicate 4 .accepted } (sevenRows.conf.rowLoads.length + 3) :=
  ⟨by decide, ready_image 7, by unfold State.SinkAccepts; decide⟩

theorem witness_ProcessMcuRowCodesEveryBlockInOrder :
    sevenRows.CodingReady ∧ sevenRows.SinkAccepts sevenRows.conf.rowLoads.length :=
  ⟨ready_image 7, by unfold State.SinkAccepts; decide⟩

theorem witness_PadBottomCopiesTheLastBufferedRow :
    sevenRows.conf.wpad ≤ sevenRows.cfg.maxPaddedWidth ∧ Comp.y ∈ sevenRows.conf.ss.comps ∧ 7 < sevenRows.conf.wpad ∧
    1 ≤ sevenRows.rows ∧ ¬ (Comp.cb ∈ sevenRows.conf.ss.comps) := by decide

theorem witness_ConvertRgbToLuma :
    (let s := scanline 1#16 .three .grayscale [200, 100, 50]
     s.conf.w.toNat ≤ s.cfg.maxPaddedWidth ∧ s.SourceWritten (3 * s.conf.w.toNat) ∧ 0 < s.conf.w.toNat) :=
  ⟨by decide, by unfold State.SourceWritten; decide, by decide⟩

theorem witness_ConvertRgbToYcc :
    (let s := scanline 1#16 .three .s444 [255, 0, 0]
     s.conf.w.toNat ≤ s.cfg.maxPaddedWidth ∧ s.SourceWritten (3 * s.conf.w.toNat) ∧ 0 < s.conf.w.toNat) :=
  ⟨by decide, by unfold State.SourceWritten; decide, by decide⟩

theorem witness_ConvertGrayCopiesLuma :
    (let s := scanline 1#16 .one .s444 [0x37]
     s.conf.w.toNat ≤ s.cfg.maxPaddedWidth ∧ s.SourceWritten s.conf.w.toNat ∧ 0 < s.conf.w.toNat) :=
  ⟨by decide, by unfold State.SourceWritten; decide, by decide⟩

/-- The last byte of the scanline was never written. -/
theorem witness_UnwrittenSourceBytesFault :
    (let s := { scanline 8#16 .one .grayscale [1, 2, 3, 4, 5, 6, 7] with ctl := .accumulating, rows := 15 }
     (s.ctl = .configured ∨ s.ctl = .accumulating) ∧ s.rows < 16 ∧ s.conf.w.toNat ≤ s.cfg.maxPaddedWidth ∧
     ¬ s.SourceWritten (s.conf.ch.bytes * s.conf.w.toNat)) ∧
    Instr.deinit ∈ [.init, .feed, .finish, .deinit] ∧ ∃ t, exec .deinit idle = .next t :=
  ⟨⟨by decide, by decide, by decide, by unfold State.SourceWritten; decide⟩, by decide, ⟨_, rfl⟩⟩

/-- One column of padding. -/
theorem witness_PadRightCopiesTheLastPixel :
    (let s := image 7#16 .one .grayscale
     s.conf.wpad ≤ s.cfg.maxPaddedWidth ∧ Comp.y ∈ s.conf.ss.comps ∧ s.conf.w.toNat ≤ 7 ∧ 7 < s.conf.wpad) := by decide

/-- The last block of the lower block row of the widest row buffer. -/
theorem witness_LoadFullCentresABlock : (1#4).toNat ≤ 1 ∧ 8 * (8191#16).toNat + 8 ≤ idle.cfg.maxPaddedWidth := by decide

theorem witness_ChromaLoadsAverageWithTheAlternatingBias : 16 * (4095#16).toNat + 16 ≤ idle.cfg.maxPaddedWidth := by decide

theorem witness_OperandsOutsideTheirRangeFault :
    2 ≤ (2#4).toNat ∧ idle.cfg.maxPaddedWidth < 8 * (8192#16).toNat + 8 ∧
    idle.cfg.maxPaddedWidth < 16 * (4096#16).toNat + 16 ∧ 16 < (17#5).toNat := by decide

theorem witness_ForwardDctIsTwoMatrixPasses :
    ∀ k : Fin 64, { idle with blkS := Vector.replicate 64 (-128) }.blkS[k] = -128 := by decide

/-- The extremes of both boxes: -128 everywhere, and 127 with 128 at the odd positions. -/
theorem witness_DcCoefficientIsTheRoundedSum :
    (∀ k : Fin 64, -128 ≤ (Vector.replicate 64 (-128) : Block)[k] ∧ (Vector.replicate 64 (-128) : Block)[k] ≤ 127) ∧
    Block.InBox (Vector.ofFn fun k : Fin 64 => 127 + ((k.val / 8 + k.val % 8) % 2 : Nat)) :=
  ⟨by decide, by unfold Block.InBox; decide⟩

theorem witness_CoefficientsStayInRange :
    Block.InBox idle.blkS ∧ (∀ i : Fin 64, 1 ≤ ((image 8#16 .one .grayscale).qt.get .chroma)[i].toNat) ∧
    (∃ a, exec .fdct (image 8#16 .one .grayscale) = .next a ∧ ∃ b, exec (.quantZz .chroma) a = .next b) ∧
    -1024 ≤ (1020 : Int) ∧ (1020 : Int) ≤ 1020 :=
  ⟨by unfold Block.InBox; decide, fun i => quantTable_pos _ _ _ i, ⟨_, rfl, _, rfl⟩, by decide, by decide⟩

/-- The latched qualities 1 and 100. -/
theorem witness_BuildQtScalesTheBaseTable :
    1 ≤ (1#7).toNat ∧ (1#7).toNat ≤ 100 ∧ 1 ≤ (100#7).toNat ∧ (100#7).toNat ≤ 100 := by decide

theorem witness_QuantZzDividesAndReorders : ∀ i : Fin 64, 1 ≤ ((image 8#16 .one .grayscale).qt.get .luma)[i].toNat :=
  fun i => quantTable_pos _ _ _ i

theorem witness_BuildHtAssignsCanonicalCodes :
    11 < (huffSpec .dc .luma).vals.length ∧ 10 + 1 < (huffSpec .dc .luma).vals.length ∧ 0x0C#8 ∉ (huffSpec .dc .luma).vals := by
  decide

theorem witness_CanonicalCodesAreAPrefixCode : HuffSpec.Fits (huffSpec .dc .luma) ∧
    0x00#8 ∈ (huffSpec .dc .luma).vals ∧ 0x0B#8 ∈ (huffSpec .dc .luma).vals ∧ 15 < (huffSpec .dc .luma).bits.length :=
  ⟨⟨by decide, by decide, by decide, by decide⟩, by decide, by decide, by decide⟩

theorem witness_ValueBitsDecodeBack : (2047 : Int) ≠ 0 ∧ (-2047 : Int).natAbs ≤ 2047 := by decide

/-- A difference of category 11, the largest the tables code. -/
def extremes : State := { image 8#16 .one .grayscale with blkZ := block [1016, 1023, -1023], pred := ⟨-1024, 0, 0⟩ }

theorem extremes_ready : extremes.WriterReady := ⟨by decide, by decide⟩
theorem extremes_huff : extremes.huff = builtHuff := rfl
theorem extremes_cat : cat (extremes.blkZ[0] - extremes.pred.get .y) ≤ 11 := by decide +kernel
theorem extremes_ac : ∀ k : Fin 64, k ≠ 0 → extremes.blkZ[k].natAbs ≤ 1023 := by decide +kernel

theorem witness_EncDcAppendsTheDifference :
    extremes.WriterReady ∧ extremes.nextAnswer = .accepted ∧ cat (extremes.blkZ[0] - extremes.pred.get .y) ≤ 16 ∧
    extremes.HasCode .dc .luma (cat (extremes.blkZ[0] - extremes.pred.get .y)) := by
  have h := hasCode_dc extremes_huff .luma extremes_cat
  have hc := extremes_cat
  exact ⟨extremes_ready, rfl, Nat.le_trans hc (by decide), h⟩

theorem witness_EncAcAppendsRunsAndSizes :
    extremes.WriterReady ∧ extremes.nextAnswer = .accepted ∧ (∀ k : Fin 64, k ≠ 0 → extremes.blkZ[k].natAbs ≤ 1023) ∧
    ∀ sym, sym < 256 → sym = 0x00 ∨ sym = 0xF0 ∨ (1 ≤ sym % 16 ∧ sym % 16 ≤ 10) → extremes.HasCode .ac .chroma sym := by
  have h := acCodes_built extremes_huff .chroma
  exact ⟨extremes_ready, rfl, extremes_ac, h⟩

/-- After reset no symbol has a code. -/
theorem witness_SymbolsWithoutACodeFault :
    (State.huffCode idle .dc .luma (cat (idle.blkZ[0] - idle.pred.get .y))).len = 0 ∧
    (State.huffCode idle .ac .luma 0x00).len = 0 ∧ (∀ k : Fin 64, k ≠ 0 → idle.blkZ[k] = 0) ∧
    (let s := { idle with blkZ := block [0, 1] }
     (s.huffCode .ac .luma (cat s.blkZ[1])).len = 0 ∧ s.blkZ[1] ≠ 0) := by decide

/-- A table with a code for every symbol but `sym`, and a block whose first AC coefficient is 1 and whose last is `last`. -/
def codeless (sym : Fin 256) (last : Int) : State :=
  let z := Vector.ofFn fun k : Fin 64 => if k.val = 1 then 1 else if k.val = 63 then last else 0
  { image 8#16 .one .grayscale with
    blkZ := z
    huff := idle.huff.set .ac ((idle.huff.get .ac).set .luma
      (Vector.ofFn fun k => ⟨0#16, if k = sym then 0 else 16⟩)) }

theorem codeless_ready (sym : Fin 256) (last : Int) : (codeless sym last).WriterReady :=
  ⟨Nat.succ_pos 7, Nat.succ_pos 2047⟩

theorem codeless_len (sym : Fin 256) (last : Int) (n : Nat) : ((codeless sym last).huffCode .ac .luma n).len ≤ 16 := by
  show (HuffTable.symbol (Vector.ofFn fun k : Fin 256 => ⟨0#16, if k = sym then 0 else 16⟩) n).len ≤ 16
  unfold HuffTable.symbol
  by_cases hn : n < 256
  · rw [Vector.getElem?_eq_getElem hn, Vector.getElem_ofFn]
    simp only [Option.getD_some]
    split <;> omega
  · rw [Vector.getElem?_eq_none (by omega)]
    exact Nat.zero_le _

/-- The premises of the clause for any position: a coefficient of category 11 at the end, after 61 zeros (0xDB has no code in the
standard tables, V-HUFF-UNDEF), an absent ZRL before it, and an absent EOB after a coefficient. -/
theorem witness_SymbolsWithoutACodeFault_anywhere : ∀ p ∈ [((0xDB : Fin 256), (1024 : Int)), (0xF0, 1), (0x00, 0)],
    (codeless p.1 p.2).WriterReady ∧ (codeless p.1 p.2).nextAnswer = .accepted ∧
    (∀ sym, ((codeless p.1 p.2).huffCode .ac .luma sym).len ≤ 16) ∧
    (∀ k : Fin 64, k ≠ 0 → cat (codeless p.1 p.2).blkZ[k] ≤ 16) ∧
    ∃ sym ∈ acSymbols 0 ((codeless p.1 p.2).blkZ.toList.drop 1), ((codeless p.1 p.2).huffCode .ac .luma sym).len = 0 := by
  have h : ∀ p ∈ [((0xDB : Fin 256), (1024 : Int)), (0xF0, 1), (0x00, 0)],
      (∀ k : Fin 64, k ≠ 0 → cat (codeless p.1 p.2).blkZ[k] ≤ 16) ∧
      ∃ sym ∈ acSymbols 0 ((codeless p.1 p.2).blkZ.toList.drop 1), ((codeless p.1 p.2).huffCode .ac .luma sym).len = 0 := by
    decide +kernel
  exact fun p hp => ⟨codeless_ready _ _, rfl, codeless_len _ _, h p hp⟩

/-- Seven bits pending and one byte of the buffer free. -/
def brimful : State := { idle with acc := List.replicate 7 true, ob := List.replicate 2047 0 }

theorem witness_PutBitsAppendsTheLowBits : (16#5).toNat ≤ 16 ∧ brimful.WriterReady ∧ brimful.nextAnswer = .accepted :=
  ⟨by decide, ⟨by decide, by decide +kernel⟩, rfl⟩

theorem witness_StuffingIsUndoneExactly :
    (∀ p ∈ [(16#5, 0xFFFF#16), (0#5, 0#16)], p.1.toNat ≤ 16) ∧ idle.WriterReady ∧
    idle.SinkAccepts [(16#5, 0xFFFF#16), (0#5, 0#16)].length :=
  ⟨by simp, ⟨by decide, by decide⟩, by unfold State.SinkAccepts; decide⟩

theorem witness_PadFinalEndsOnAByteBoundary :
    (idle.WriterReady ∧ idle.nextAnswer = .accepted ∧ idle.acc = []) ∧
    (let s := { idle with acc := List.replicate 7 true }
     s.WriterReady ∧ s.nextAnswer = .accepted ∧ s.acc ≠ []) :=
  ⟨⟨⟨by decide, by decide⟩, rfl, rfl⟩, ⟨by decide, by decide⟩, rfl, by decide⟩

/-- The last free place and the one before it; an empty buffer and a full one but for a byte; all answers. -/
theorem witness_OutputBufferFillsAndFlushes :
    (List.replicate 2046 0#8).length + 1 < 2048 ∧ (List.replicate 2047 0#8).length + 1 = 2048 ∧
    idle.ob = [] ∧ (List.replicate 2047 0#8) ≠ [] ∧ idle.nextAnswer = .accepted ∧
    State.nextAnswer { idle with answers := [.rejected] } = .rejected ∧
    State.nextAnswer { idle with answers := [.silent] } = .silent := by decide +kernel

theorem witness_EmitFixedAndFrameSegments :
    brimful.ob.length < 2048 ∧ brimful.nextAnswer = .accepted := by decide +kernel

theorem witness_EmitTableSegments :
    brimful.ob.length < 2048 ∧ brimful.nextAnswer = .accepted := by decide +kernel

end Sys2Proof.Tests
end

section
/-! PROOFS. What one step of the block can do: the accesses of the host, the commands it issues, and how each command ends. -/

namespace Sys2Proof.Machine

/-! ### Inversion of the step -/

theorem eq_of_isHostCommand {i : Instr} (h : i.isHostCommand = true) :
    i = .nop ∨ i = .init ∨ i = .feed ∨ i = .finish ∨ i = .deinit := by
  cases i <;> simp_all [Instr.isHostCommand]

/-- What a word written to CMD does (R126, R128). -/
theorem issueCommand_cases (v : Word) (s : State) :
    (∃ i : Instr, i.isHostCommand = true ∧ issueCommand v s = exec i s) ∨
      issueCommand v s = .next (raiseError .illegalCommand s) := by
  unfold issueCommand
  cases h : commandOf v with
  | none => exact .inr rfl
  | some i =>
    refine .inl ⟨i, ?_, rfl⟩
    unfold commandOf at h
    cases hd : decode v with
    | error e => simp [hd] at h
    | ok j =>
      rw [hd] at h
      simp only [Option.ite_none_right_eq_some, Option.some.injEq] at h
      obtain ⟨hj, rfl⟩ := h
      exact hj

/-- A target inside the scanline buffer lies inside it with all of its bytes (R82, R83). -/
theorem slb_target_inside {cfg : Config} {n : Width} {addr : BitVec 19} {j : Nat}
    (h : target cfg n addr = .ok (.slb j)) : j + n.bytes ≤ slbSize cfg := by
  unfold target at h
  simp only at h
  split at h
  · cases h
  · split at h
    · cases n <;> cases h
    · split at h
      · split at h
        · simp only [Except.ok.injEq, Target.slb.injEq] at h
          omega
        · cases h
      · cases h

/-! ### Rules of the bus: an access by its target -/

section
variable {s : State} {n : Width} {addr : BitVec 19} {why : Refusal} {t : Target}

theorem read_refused (h : target s.cfg n addr = .error why) : hostAccess (.read n addr) s = .refused why := by
  simp only [hostAccess, h]

theorem write_refused (v : Word) (h : target s.cfg n addr = .error why) :
    hostAccess (.write n addr v) s = .refused why := by
  simp only [hostAccess, h]

theorem read_answers (h : target s.cfg n addr = .ok t) :
    hostAccess (.read n addr) s = .next { s with hostReads := s.hostReads ++ [readValue s n t] } := by
  simp only [hostAccess, h]

theorem write_runs (v : Word) (h : target s.cfg n addr = .ok t) :
    hostAccess (.write n addr v) s = writeValue n v s t := by
  simp only [hostAccess, h]

end

/-- What a register write does (R83). -/
theorem csrWrite_cases (offset : Nat) (v : Word) (s : State) :
    csrWrite offset v s = issueCommand v s ∨ csrWrite offset v s = .next { s with cfgDim := v } ∨
      csrWrite offset v s = .next { s with cfgMode := v &&& cfgModeMask } ∨ csrWrite offset v s = .next s := by
  unfold csrWrite
  repeat' split
  all_goals simp

/-- Everything a host access can do (R83). -/
theorem hostAccess_cases (a : HostAccess) (s : State) :
    (∃ why, hostAccess a s = .refused why) ∨
    (∃ v, hostAccess a s = .next { s with hostReads := s.hostReads ++ [v] }) ∨
    (∃ v, hostAccess a s = issueCommand v s) ∨
    (∃ v, hostAccess a s = .next { s with cfgDim := v }) ∨
    (∃ v, hostAccess a s = .next { s with cfgMode := v &&& cfgModeMask }) ∨
    (∃ j bs, j + bs.length ≤ slbSize s.cfg ∧ hostAccess a s = .next { s with slb := s.slb.writeRange j bs }) ∨
    hostAccess a s = .next s := by
  cases a with
  | read n addr =>
    cases ht : target s.cfg n addr with
    | error e => exact .inl ⟨e, read_refused ht⟩
    | ok t => exact .inr (.inl ⟨_, read_answers ht⟩)
  | write n addr v =>
    cases ht : target s.cfg n addr with
    | error e => exact .inl ⟨e, write_refused v ht⟩
    | ok t =>
      rw [write_runs v ht]
      cases t with
      | register offset =>
        rcases csrWrite_cases offset v s with h | h | h | h
        · exact .inr (.inr (.inl ⟨v, h⟩))
        · exact .inr (.inr (.inr (.inl ⟨v, h⟩)))
        · exact .inr (.inr (.inr (.inr (.inl ⟨v, h⟩))))
        · exact .inr (.inr (.inr (.inr (.inr (.inr h)))))
      | slb j =>
        refine .inr (.inr (.inr (.inr (.inr (.inl ⟨j, wordBytes v n.bytes, ?_, rfl⟩)))))
        simpa [wordBytes] using slb_target_inside ht
      | reserved => exact .inr (.inr (.inr (.inr (.inr (.inr rfl)))))

/-- The faults a sequence of operations can end in. -/
theorem Flow.Ends.fault {x : Flow} {G R : State → Prop} {F : Fault → Prop} (h : x.Ends G R F) {f : Fault}
    (hf : x.toOutcome = .fault f) : F f := by
  cases x
  · cases hf
  · cases hf
  · cases hf; exact h

/-- INIT, from any state (R340, R341, R345): the checks fail, or the header is flushed from the state that has built it. -/
theorem cmdInit_ends (s : State) : (cmdInit s).Ends
    (fun t => ∃ c u, validate s.teardown = .ok c ∧ WriterOnly (s.teardown.headerBuffered c) u ∧ u.acc = [] ∧ u.ob = [] ∧
      t = State.succeed { u with ctl := .configured })
    (fun t => (∃ e, (e = .invalidParameters ∨ e = .allocationFailure) ∧ t = raiseError e s.teardown) ∨
      ∃ c u, WriterOnly (s.teardown.headerBuffered c) u ∧ u.ob = [] ∧ t = raiseError .sinkWriteFailure u)
    (fun f => f = .sinkNeverAnswers) := by
  unfold cmdInit
  cases hv : validate s.teardown with
  | error e => exact .inl ⟨e, validate_error hv, rfl⟩
  | ok c =>
    simp only
    rw [initImage_eq (teardown_ob s)]
    refine Flow.Ends.bind ((flushBuffer_ends (s.teardown.headerBuffered c)).mono (fun _ h => h)
      (fun t ⟨u, hw, hr, ho, _⟩ => .inr ⟨c, u, hw, ho, hr⟩) (fun f hf => hf.1)) fun u ⟨hw, ha, ho, _⟩ => ?_
    exact ⟨c, u, rfl, hw, ha.trans rfl, ho, rfl⟩

end Sys2Proof.Machine
end

section
/-! PROOFS. The canonical form of the memories and buffers, kept by every step (O15). -/

namespace Sys2Proof.Machine

/-- The canonical form looks at the two buffers, the memories, the parameters and CFG_MODE only. -/
theorem State.Canonical.of_fields {s t : State} (h : s.Canonical) (hcfg : t.cfg = s.cfg) (hslb : t.slb = s.slb)
    (hrb : t.rb = s.rb) (hmode : t.cfgMode = s.cfgMode) (hob : t.ob.length < obSize)
    (hacc : t.ctl ≠ .failed → t.acc.length < 8) : t.Canonical := by
  have hrow : ∀ c r, t.row c r = s.row c r := fun c r => by unfold State.row; rw [hrb]
  exact ⟨by rw [hslb]; exact h.slb_wf, by rw [hslb, hcfg]; exact h.slb_bound, fun c r => by rw [hrow]; exact h.rb_wf c r,
    fun c r => by rw [hrow, hcfg]; exact h.rb_bound c r, hob, hacc, by rw [hmode]; exact h.cfgMode⟩

theorem State.Canonical.rowsCanonical {s : State} (h : s.Canonical) : RowsCanonical s :=
  fun c r => ⟨h.rb_wf c r, h.rb_bound c r⟩

/-- Row writes inside the row buffer keep the canonical form. -/
theorem State.Canonical.of_rowsKept {s t : State} (h : s.Canonical) (hk : RowsKept s t) : t.Canonical := by
  obtain ⟨hrb, hrows⟩ := hk
  have hrow := hrows h.rowsCanonical
  unfold RbOnly at hrb
  rw [hrb] at hrow ⊢
  exact ⟨h.slb_wf, h.slb_bound, fun c r => (hrow c r).1, fun c r => (hrow c r).2, h.ob, h.acc, h.cfgMode⟩

/-- A refused transfer that leaves an empty output buffer keeps the canonical form, whatever bits are pending (R404). -/
theorem State.Canonical.raise_sinkWriteFailure {s u : State} (h : s.Canonical) (hu : CodingOnly s u) (ho : u.ob = []) :
    (raiseError .sinkWriteFailure u).Canonical := by
  refine h.of_fields ?_ ?_ ?_ ?_ ?_ (fun hc => (hc (by simp)).elim)
  all_goals simp only [raiseError_cfg, raiseError_slb, raiseError_rb, raiseError_cfgMode, raiseError_ob, ho]
  · rw [hu]
  · rw [hu]
  · rw [hu]
  · rw [hu]
  · decide

/-- An operation that keeps the canonical form, and at most 7 pending bits where there were no more. -/
def Flow.KeepsCanonical (x : Flow) (s : State) : Prop :=
  x.Ends (fun t => t.Canonical ∧ (s.acc.length < 8 → t.acc.length < 8)) State.Canonical fun _ => True

theorem Flow.Frame.keepsCanonical {x : Flow} {s : State} (hf : x.Frame CodingOnly s) (hb : x.Buffers s) (h : s.Canonical) :
    x.KeepsCanonical s := by
  cases x with
  | going t =>
    obtain ⟨hroom, hpend⟩ := hb
    refine ⟨?_, hpend⟩
    have hc : CodingOnly s t := hf
    refine h.of_fields (by rw [hc]) (by rw [hc]) (by rw [hc]) (by rw [hc]) hroom fun hctl => hpend (h.acc ?_)
    rwa [show t.ctl = s.ctl by rw [hc]] at hctl
  | raised t =>
    obtain ⟨u, hu, rfl, -⟩ := hf
    exact h.raise_sinkWriteFailure hu (by rw [← raiseError_ob .sinkWriteFailure u]; exact hb)
  | fault f => trivial

theorem Flow.Rows.keepsCanonical {x : Flow} {s : State} (hr : x.Rows s) (h : s.Canonical) : x.KeepsCanonical s :=
  hr.mono (fun t ht => ⟨h.of_rowsKept ht, by rw [show t.acc = s.acc by rw [ht.1]]; exact id⟩) (fun _ h => h.elim) fun _ h => h

/-- What holds between the operations of a command: the canonical form, with at most 7 pending bits. -/
def MidCommand (s : State) : Prop := s.Canonical ∧ s.acc.length < 8

/-- An operation inside a command keeps what holds between operations. -/
abbrev Flow.KeepsMid (x : Flow) : Prop := x.Ends MidCommand State.Canonical fun _ => True

theorem Flow.KeepsCanonical.mid {x : Flow} {s : State} (hx : x.KeepsCanonical s) (hs : MidCommand s) : x.KeepsMid :=
  Flow.Ends.mono hx (fun _ ht => ⟨ht.1, ht.2 hs.2⟩) (fun _ h => h) fun _ h => h

theorem uopProcessMcuRow_keepsMid {s : State} (h : MidCommand s) : (uopProcessMcuRow s).KeepsMid :=
  ((uopProcessMcuRow_frame s).keepsCanonical (uopProcessMcuRow_codes h.1.ob).buffers h.1).mid h

theorem flushBuffer_keepsMid {s : State} (h : MidCommand s) : (flushBuffer s).KeepsMid :=
  ((flushBuffer_frame s).writer.keepsCanonical (flushBuffer_buffers s) h.1).mid h

theorem rawBytes_keepsMid (bs : List Byte) {s : State} (h : MidCommand s) : (rawBytes bs s).KeepsMid :=
  ((rawBytes_frame bs s).writer.keepsCanonical (rawBytes_codes bs h.1.ob).buffers h.1).mid h

theorem appendBits_keepsMid (v : BitVec 16) (n : Nat) {s : State} (h : MidCommand s) : (appendBits v n s).KeepsMid :=
  ((appendBits_frame v n s).writer.keepsCanonical (appendBits_codes v n h.1.ob).buffers h.1).mid h

/-- Setting STATUS, `ROWS` and `STATE` keeps what holds between operations. -/
theorem MidCommand.of_fields {s t : State} (h : MidCommand s) (hcfg : t.cfg = s.cfg) (hslb : t.slb = s.slb)
    (hrb : t.rb = s.rb) (hmode : t.cfgMode = s.cfgMode) (hob : t.ob = s.ob) (hacc : t.acc = s.acc) : MidCommand t := by
  have hlen : t.acc.length < 8 := by rw [hacc]; exact h.2
  exact ⟨h.1.of_fields hcfg hslb hrb hmode (by rw [hob]; exact h.1.ob) fun _ => hlen, hlen⟩

theorem finishRow_keepsMid {s : State} (h : MidCommand s) : (finishRow s).KeepsMid := by
  unfold finishRow
  split
  · exact (uopProcessMcuRow_keepsMid h).bind fun t ht => ht.of_fields rfl rfl rfl rfl rfl rfl
  · exact h

theorem finishPartialRow_keepsMid {s : State} (h : MidCommand s) : (finishPartialRow s).KeepsMid := by
  unfold finishPartialRow
  split
  · exact h
  · refine Flow.Ends.bind (runAll_ends _ (fun op hop t ht => ?_) s h) fun t ht => ht.of_fields rfl rfl rfl rfl rfl rfl
    rcases List.mem_append.1 hop with hop | hop
    · obtain ⟨r, -, rfl⟩ := List.mem_map.1 hop
      exact ((uopPadBottom_rows r t).keepsCanonical ht.1).mid ht
    · rw [List.mem_singleton.1 hop]
      exact uopProcessMcuRow_keepsMid ht

/-- Raising an error keeps the canonical form: no buffer changes. -/
theorem State.Canonical.raiseError {s : State} (h : s.Canonical) (e : ErrCode) : (raiseError e s).Canonical := by
  refine h.of_fields (raiseError_cfg _ _) (raiseError_slb _ _) (raiseError_rb _ _) (raiseError_cfgMode _ _)
    (by rw [raiseError_ob]; exact h.ob) fun hctl => ?_
  rw [raiseError_ctl] at hctl
  rw [raiseError_acc]
  split at hctl
  · exact (hctl rfl).elim
  · exact h.acc hctl

theorem State.Canonical.teardown {s : State} (h : s.Canonical) : s.teardown.Canonical :=
  h.of_fields rfl rfl rfl rfl (Nat.succ_pos 2047) fun _ => Nat.succ_pos 7

/-- Outside FAILED the state between two commands is one between two operations. -/
theorem State.Canonical.mid {s : State} (h : s.Canonical) (hctl : s.ctl.rejects = none) : MidCommand s :=
  ⟨h, h.acc fun hf => by rw [hf] at hctl; cases hctl⟩

theorem cmdFeed_keepsCanonical {s : State} (h : s.Canonical) :
    (cmdFeed s).KeepsMid ∨ ∃ e, cmdFeed s = .raised (raiseError e s) := by
  unfold cmdFeed
  cases hr : s.ctl.rejects with
  | some e => exact .inr ⟨e, rfl⟩
  | none =>
    refine .inl (runAll_ends _ (fun op hop t ht => ?_) s (h.mid hr))
    simp only [List.mem_cons, List.not_mem_nil, or_false] at hop
    rcases hop with rfl | rfl | rfl | rfl | rfl
    · exact ((convertScanline_rows _ t).keepsCanonical ht.1).mid ht
    · exact ((uopPadRight_rows _ t).keepsCanonical ht.1).mid ht
    · exact ht.of_fields rfl rfl rfl rfl rfl rfl
    · exact finishRow_keepsMid ht
    · exact ht.of_fields rfl rfl rfl rfl rfl rfl

theorem cmdFinish_keepsCanonical {s : State} (h : s.Canonical) :
    (cmdFinish s).KeepsMid ∨ ∃ e, cmdFinish s = .raised (raiseError e s) := by
  unfold cmdFinish
  cases hr : s.ctl.rejects with
  | some e => exact .inr ⟨e, rfl⟩
  | none =>
    refine .inl (runAll_ends _ (fun op hop t ht => ?_) s (h.mid hr))
    simp only [List.mem_cons, List.not_mem_nil, or_false] at hop
    rcases hop with rfl | rfl | rfl | rfl | rfl | rfl
    · exact finishPartialRow_keepsMid ht
    · exact appendBits_keepsMid _ _ ht
    · exact flushBuffer_keepsMid ht
    · exact rawBytes_keepsMid _ ht
    · exact flushBuffer_keepsMid ht
    · exact ht.of_fields rfl rfl rfl rfl rfl rfl

theorem State.Canonical.of_keepsMid {s t : State} {x : Flow} (h : s.Canonical)
    (hx : x.KeepsMid ∨ ∃ e, x = .raised (Machine.raiseError e s)) (ht : x.toOutcome = .next t) : t.Canonical := by
  rcases hx with hx | ⟨e, rfl⟩
  · rcases hx.next ht with hm | hc
    · exact hm.1
    · exact hc
  · cases ht
    exact h.raiseError e

/-- The header fits the output buffer (R310, R340). -/
theorem State.Canonical.headerBuffered {s : State} (h : s.Canonical) (c : Conf) :
    (s.teardown.headerBuffered c).Canonical := by
  refine h.of_fields rfl rfl rfl rfl ?_ fun _ => Nat.succ_pos 7
  show (headerBytes c).length < obSize
  rw [headerBytes_length]
  split <;> decide

theorem cmdInit_keepsCanonical {s t : State} (h : s.Canonical) (ht : (cmdInit s).toOutcome = .next t) : t.Canonical := by
  rcases (cmdInit_ends s).next ht with ⟨c, u, -, hw, ha, ho, rfl⟩ | ⟨e, -, rfl⟩ | ⟨c, u, hw, ho, rfl⟩
  · refine h.of_fields ?_ ?_ ?_ ?_ (by simp [ho, obSize]) fun _ => by simp [ha]
    all_goals
      simp only [succeed_cfg, succeed_slb, succeed_rb, succeed_cfgMode]
      rw [hw]
      rfl
  · exact h.teardown.raiseError e
  · exact (h.headerBuffered c).raise_sinkWriteFailure hw.coding ho

/-- Every instruction keeps the canonical form. -/
theorem exec_keepsCanonical (i : Instr) {s t : State} (h : s.Canonical) (ht : exec i s = .next t) : t.Canonical := by
  by_cases hi : i.isHostCommand = true
  · rcases eq_of_isHostCommand hi with rfl | rfl | rfl | rfl | rfl
    · cases ht; exact h
    · exact cmdInit_keepsCanonical h ht
    · exact h.of_keepsMid (cmdFeed_keepsCanonical h) ht
    · exact h.of_keepsMid (cmdFinish_keepsCanonical h) ht
    · cases ht; exact h.teardown.of_fields rfl rfl rfl rfl (Nat.succ_pos 2047) fun _ => Nat.succ_pos 7
  · rcases uop_cases i (Bool.not_eq_true _ ▸ hi) s with ⟨x, hx, hf, hb, -⟩ | ⟨x, hx, hr, -⟩ | ⟨k, rfl⟩ | ⟨k, u, rfl⟩
    · rw [hx] at ht
      exact ((hf.keepsCanonical (hb h.ob) h).next ht).elim (·.1) id
    · rw [hx] at ht
      exact ((hr.keepsCanonical h).next ht).elim (·.1) id
    · cases ht; exact h.of_fields rfl rfl rfl rfl h.ob h.acc
    · cases ht; exact h.of_fields rfl rfl rfl rfl h.ob h.acc

/-- Every host access keeps the canonical form. -/
theorem hostAccess_keepsCanonical (a : HostAccess) {s t : State} (h : s.Canonical) (ht : hostAccess a s = .next t) :
    t.Canonical := by
  rcases hostAccess_cases a s with ⟨why, e⟩ | ⟨v, e⟩ | ⟨v, e⟩ | ⟨v, e⟩ | ⟨v, e⟩ | ⟨j, bs, hj, e⟩ | e <;> rw [e] at ht
  · cases ht
  · cases ht; exact h.of_fields rfl rfl rfl rfl h.ob h.acc
  · rcases issueCommand_cases v s with ⟨i, -, e⟩ | e <;> rw [e] at ht
    · exact exec_keepsCanonical i h ht
    · cases ht; exact h.raiseError _
  · cases ht; exact h.of_fields rfl rfl rfl rfl h.ob h.acc
  · cases ht
    refine ⟨h.slb_wf, h.slb_bound, h.rb_wf, h.rb_bound, h.ob, h.acc, ?_⟩
    show v &&& cfgModeMask &&& ~~~cfgModeMask = 0#32
    rw [BitVec.and_assoc, show cfgModeMask &&& ~~~cfgModeMask = 0#32 by decide, BitVec.and_zero]
  · cases ht
    exact ⟨Memory.writeRange_wf bs j h.slb_wf, Memory.writeRange_bound bs h.slb_bound hj, h.rb_wf, h.rb_bound, h.ob, h.acc,
      h.cfgMode⟩
  · cases ht; exact h

/-- Every row is empty after reset (R60). -/
theorem row_powerOn (cfg : Config) (c : Comp) (r : Nat) : (State.powerOn cfg).row c r = [] := by
  unfold State.row State.powerOn
  cases c <;> simp only [PerComp.get, Vector.getElem?_replicate] <;> split <;> rfl

theorem powerOn_canonical (cfg : Config) : (State.powerOn cfg).Canonical where
  slb_wf := .nil
  slb_bound := fun p hp => absurd hp List.not_mem_nil
  rb_wf := fun c r => by rw [row_powerOn]; exact .nil
  rb_bound := fun c r p hp => by rw [row_powerOn] at hp; exact absurd hp List.not_mem_nil
  ob := Nat.succ_pos 2047
  acc := fun _ => Nat.succ_pos 7
  cfgMode := show 0x00003355#32 &&& ~~~cfgModeMask = 0#32 by decide

theorem platformReset_canonical (s : State) : (platformReset s).Canonical :=
  (powerOn_canonical s.cfg).of_fields rfl rfl rfl rfl (Nat.succ_pos 2047) fun _ => Nat.succ_pos 7

/-- Settles O15: the canonical form is kept by every instruction, host access and reset, so by every step. -/
theorem stepKeepsTheCanonicalForm : Obligations.StepKeepsTheCanonicalForm := by
  intro s t h ht
  unfold step at ht
  split at ht
  · rename_i w _
    have h' : State.Canonical { s with issue := none } := h.of_fields rfl rfl rfl rfl h.ob h.acc
    unfold runIssued at ht
    split at ht
    · exact exec_keepsCanonical _ h' ht
    · cases ht
  · split at ht
    · rename_i i rest _
      have h' : State.Canonical { s with inputs := rest } := h.of_fields rfl rfl rfl rfl h.ob h.acc
      cases i with
      | access a => exact hostAccess_keepsCanonical a h' ht
      | reset => cases ht; exact platformReset_canonical _
    · cases ht; exact h

end Sys2Proof.Machine
end

section
/-! PROOFS. The controller invariants, kept by every step when the host alone drives the block, and the faults such a step can
end in (O14, O16, O17). -/

namespace Sys2Proof.Machine

/-- Where the spec stops a host-driven step: at a source byte never written (R49) or a sink that never answers (R456). -/
def StopsAsStated (f : Fault) : Prop := f = .slbByteNeverWritten ∨ f = .sinkNeverAnswers

/-- With no image under way the controller invariants ask for no row, a legal bias and predictors in range (R54, R404). -/
theorem State.HostDriven.of_closed {s : State} (hissue : s.issue = none) (hctl : s.ctl = .uninit ∨ s.ctl = .failed)
    (hrows : s.rows = 0) (hbias : s.cfg.h2v1OddBias ≤ 2) (hpred : predsInRange s.pred) : s.HostDriven := by
  refine ⟨hissue, ?_, fun _ => hrows, ?_, ?_, ?_, ?_, hbias, hpred⟩
  all_goals rcases hctl with e | e <;> simp [e]

/-- The controller invariants look at these fields only. -/
theorem State.HostDriven.of_fields {s t : State} (h : s.HostDriven) (hissue : t.issue = s.issue) (hctl : t.ctl = s.ctl)
    (hrows : t.rows = s.rows) (hconf : t.conf = s.conf) (hcfg : t.cfg = s.cfg) (hob : t.ob = s.ob) (hqt : t.qt = s.qt)
    (hhuff : t.huff = s.huff) (hpred : t.pred = s.pred) : t.HostDriven := by
  constructor
  all_goals simp only [hissue, hctl, hrows, hconf, hcfg, hob, hqt, hhuff, hpred]
  · exact h.noIssue
  · exact h.rows_open
  · exact h.rows_closed
  · exact h.configured_rows
  · exact h.finalized_ob
  · exact h.image
  · exact h.width
  · exact h.bias
  · exact h.pred

/-! ### Inside a command on an image -/

/-- What holds of an image between the operations of FEED and FINISH, whatever `STATE` and `ROWS` are by then. -/
structure MidImage (s : State) : Prop where
  noIssue : s.issue = none
  coding : s.CodingReady
  conf : 1 ≤ s.conf.w.toNat ∧ 1 ≤ s.conf.h.toNat ∧ 1 ≤ s.conf.q.toNat ∧ s.conf.q.toNat ≤ 100
  tables : ∀ t, s.qt.get t = quantTable s.conf.q.toNat s.conf.nocd t

/-- An image under way is ready to be coded (R52, R54, R341). -/
theorem State.HostDriven.midImage {s : State} (h : s.HostDriven) (hc : s.Canonical)
    (hctl : s.ctl = .configured ∨ s.ctl = .accumulating) : MidImage s := by
  have hopen : s.ctl = .configured ∨ s.ctl = .accumulating ∨ s.ctl = .finalized := hctl.imp_right .inl
  obtain ⟨hw, hh, hq, hq', hhuff, hqt⟩ := h.image hopen
  refine ⟨h.noIssue, ⟨h.width hopen, h.bias, fun t i => ?_, hhuff, h.pred, hc.acc ?_, hc.ob⟩, ⟨hw, hh, hq, hq'⟩, hqt⟩
  · rw [hqt]
    exact quantTable_pos _ _ _ _
  · rcases hctl with e | e <;> simp [e]

theorem MidImage.of_fields {s t : State} (h : MidImage s) (hissue : t.issue = s.issue) (hconf : t.conf = s.conf)
    (hcfg : t.cfg = s.cfg) (hqt : t.qt = s.qt) (hhuff : t.huff = s.huff) (hpred : predsInRange t.pred)
    (hw : t.WriterReady) : MidImage t := by
  obtain ⟨hi, ⟨hwidth, hbias, hquant, hbuilt, -, -⟩, hconf', htab⟩ := h
  rw [← hissue] at hi
  rw [← hconf] at hwidth hconf' htab
  rw [← hcfg] at hwidth hbias
  rw [← hqt] at hquant htab
  rw [← hhuff] at hbuilt
  exact ⟨hi, ⟨hwidth, hbias, hquant, hbuilt, hpred, hw⟩, hconf', htab⟩

theorem MidImage.of_rbOnly {s t : State} (h : MidImage s) (ht : RbOnly s t) : MidImage t := by
  unfold RbOnly at ht
  rw [ht]
  exact h.of_fields rfl rfl rfl rfl rfl h.coding.pred h.coding.writer

theorem MidImage.of_coding {s t : State} (h : MidImage s) (ht : CodingOnly s t) (hpred : predsInRange t.pred)
    (hw : t.WriterReady) : MidImage t :=
  h.of_fields (by rw [ht]) (by rw [ht]) (by rw [ht]) (by rw [ht]) (by rw [ht]) hpred hw

theorem MidImage.of_writerOnly {s t : State} (h : MidImage s) (ht : WriterOnly s t) (hw : t.WriterReady) : MidImage t :=
  h.of_coding ht.coding (by rw [ht.pred]; exact h.coding.pred) hw

/-- A refused transfer in the middle of a command (R404). -/
theorem MidImage.raise_sinkWriteFailure {s u : State} (h : MidImage s) (hu : CodingOnly s u) (hpred : predsInRange u.pred) :
    (raiseError .sinkWriteFailure u).HostDriven := by
  refine .of_closed ?_ (by simp) (by simp) ?_ (by rw [raiseError_pred]; exact hpred)
  · rw [raiseError_issue, hu]; exact h.noIssue
  · rw [raiseError_cfg, hu]; exact h.coding.bias

/-- An operation inside FEED or FINISH that goes on to a state of `G`, or ends as the spec says. -/
abbrev Flow.Drives (x : Flow) (G : State → Prop) : Prop := x.Ends G State.HostDriven StopsAsStated

/-- A refused transfer of an operation that appends (R404). -/
theorem MidImage.of_sinkRaised {s t : State} (h : MidImage s) (ht : SinkRaised s t) : t.HostDriven := by
  obtain ⟨u, hu, rfl, -⟩ := ht
  exact h.raise_sinkWriteFailure hu.coding (by rw [hu.pred]; exact h.coding.pred)

theorem StaysSilent.asStated {s : State} {f : Fault} (h : StaysSilent s f) : StopsAsStated f := .inr h.1

theorem mcuH_pos (ss : Subsamp) : 0 < ss.mcuH := by cases ss <;> decide

/-- Buffering a scanline stops only at a source byte never written (R49, R50). -/
theorem feedRow_ends {s : State} (hr : s.rows < 16) (hw : s.conf.wpad ≤ s.cfg.maxPaddedWidth) :
    (runAll [convertScanline s.rows, uopPadRight s.rows] s).Ends (RbOnly s) (fun _ => False)
      (fun f => f = .slbByteNeverWritten) := by
  have hle := width_le_wpad s.conf
  rw [runAll_two, convertScanline_eq]
  refine ((convertRow_ends s.conf.ss.comps s.conf.ch s.rows s).mono (fun _ h => h) (fun _ h => h) (fun f h => ?_)).bind
    fun t ⟨hrb, _⟩ => ?_
  · rcases h with ⟨hf, -⟩ | ⟨-, hout⟩
    · exact hf
    · exact (hout ⟨hr, by omega⟩).elim
  · obtain ⟨u, hu, hrb', -⟩ := uopPadRight_completes (s := t) hr (by rw [hrb]; exact hw)
    rw [hu]
    exact hrb.trans hrb'

/-- Every block of a ready image is coded, or its transfer refused, or the sink silent (R218, R248, R352). -/
theorem uopProcessMcuRow_drives {s : State} (h : MidImage s) :
    (uopProcessMcuRow s).Drives fun t => MidImage t ∧ CodingOnly s t := by
  refine (uopProcessMcuRow_takes h.coding).ends.mono (fun t ⟨hc, _, hp⟩ => ?_) (fun t ⟨⟨u, hu, ht, _⟩, hp⟩ => ?_)
    fun _ hf => hf.asStated
  · refine ⟨h.of_coding hc.only ?_ (hc.ready h.coding.writer), hc.only⟩
    rw [hp]
    exact predAfter_inRange h.coding _ h.coding.pred
  · subst ht
    rw [raiseError_pred] at hp
    exact h.raise_sinkWriteFailure hu hp

/-- FEED inside an image goes on to the next row, below the MCU height (R51, R350). -/
theorem finishRow_drives {s : State} (h : MidImage s) (hctl : s.ctl = .accumulating) (hr : s.rows ≤ s.conf.ss.mcuH) :
    (finishRow s).Drives fun t => MidImage t ∧ t.ctl = .accumulating ∧ t.rows < t.conf.ss.mcuH := by
  unfold finishRow
  split
  · refine (uopProcessMcuRow_drives h).bind fun t ⟨ht, hc⟩ => ⟨?_, ?_, mcuH_pos _⟩
    · exact ht.of_fields rfl rfl rfl rfl rfl ht.coding.pred ht.coding.writer
    · show t.ctl = _
      rw [hc]
      exact hctl
  · exact ⟨h, hctl, by omega⟩

theorem MidImage.hostDriven_accumulating {s : State} (h : MidImage s) (hctl : s.ctl = .accumulating)
    (hr : s.rows < s.conf.ss.mcuH) : s.HostDriven where
  noIssue := h.noIssue
  rows_open := fun _ => hr
  rows_closed := by simp [hctl]
  configured_rows := by simp [hctl]
  finalized_ob := by simp [hctl]
  image := fun _ => ⟨h.conf.1, h.conf.2.1, h.conf.2.2.1, h.conf.2.2.2, h.coding.huff, h.tables⟩
  width := fun _ => h.coding.width
  bias := h.coding.bias
  pred := h.coding.pred

theorem MidImage.hostDriven_finalized {s : State} (h : MidImage s) (hctl : s.ctl = .finalized) (hr : s.rows = 0)
    (ho : s.ob = []) : s.HostDriven where
  noIssue := h.noIssue
  rows_open := by simp [hctl]
  rows_closed := fun _ => hr
  configured_rows := by simp [hctl]
  finalized_ob := fun _ => ho
  image := fun _ => ⟨h.conf.1, h.conf.2.1, h.conf.2.2.1, h.conf.2.2.2, h.coding.huff, h.tables⟩
  width := fun _ => h.coding.width
  bias := h.coding.bias
  pred := h.coding.pred

/-- A command turned away, or an illegal one, changes only what it reports (R128, R368). -/
theorem State.HostDriven.raiseError {s : State} (h : s.HostDriven) (e : ErrCode) : (raiseError e s).HostDriven := by
  by_cases he : e = .sinkWriteFailure
  · subst he
    exact .of_closed (by simpa using h.noIssue) (by simp) (by simp) (by simpa using h.bias)
      (by rw [raiseError_pred]; exact h.pred)
  · exact h.of_fields (by simp) (by simp [he]) (by simp [he]) (by simp) (by simp) (by simp) (by simp) (by simp) (by simp)

/-- FEED and FINISH are turned away outside CONFIGURED and ACCUMULATING (R368). -/
theorem rejects_some {s : State} (h : ¬ (s.ctl = .configured ∨ s.ctl = .accumulating)) :
    s.ctl.rejects = some (if s.ctl = .failed then .sinkWriteFailure else .badState) := by
  cases hctl : s.ctl <;> rw [hctl] at h <;> simp at h <;> rfl

theorem cmdFeed_drives {s : State} (h : s.HostDriven) (hc : s.Canonical) : (cmdFeed s).Drives State.HostDriven := by
  by_cases hctl : s.ctl = .configured ∨ s.ctl = .accumulating
  · have hm := h.midImage hc hctl
    have hrows := h.rows_open hctl
    have hle := mcuH_le s.conf.ss
    rw [cmdFeed_eq (rejects_none hctl)]
    refine ((feedRow_ends (by omega) hm.coding.width).mono (fun _ ht => ht) (fun _ ht => ht.elim) (fun _ hf => .inl hf)).bind
      fun t ht => ?_
    have hconf : t.conf = s.conf := by rw [ht]
    have hmt := hm.of_rbOnly ht
    refine (finishRow_drives (s := { t with rows := s.rows + 1, ctl := .accumulating })
      (hmt.of_fields rfl rfl rfl rfl rfl hmt.coding.pred hmt.coding.writer) rfl ?_).bind fun u ⟨hu, hctl', hr⟩ => ?_
    · show s.rows + 1 ≤ t.conf.ss.mcuH
      rw [hconf]
      omega
    · exact (hu.hostDriven_accumulating hctl' hr).of_fields rfl rfl rfl rfl rfl rfl rfl rfl rfl
  · unfold cmdFeed
    rw [rejects_some hctl]
    exact h.raiseError _

/-- FINISH pads rows the row buffer has, so it codes the partial MCU row (R358). -/
theorem finishPartialRow_drives {s : State} (h : MidImage s) (hr : s.rows < s.conf.ss.mcuH) :
    (finishPartialRow s).Drives fun t => MidImage t ∧ t.rows = 0 := by
  unfold finishPartialRow
  split
  · exact ⟨h, ‹_›⟩
  · have hle := mcuH_le s.conf.ss
    obtain ⟨t, ht, hrb, -⟩ := padRows_completes (s.conf.ss.mcuH - s.rows) (s := s) (r := s.rows) (by omega) (Nat.le_refl _)
      (by omega) h.coding.width
    have hlast : ∀ u, runAll [uopProcessMcuRow] u = uopProcessMcuRow u := fun u => by
      rw [runAll_cons]
      cases uopProcessMcuRow u <;> rfl
    rw [runAll_append, ht, Flow.bind_going, hlast]
    refine (uopProcessMcuRow_drives (h.of_rbOnly hrb)).bind fun u ⟨hu, _⟩ => ⟨?_, rfl⟩
    exact hu.of_fields rfl rfl rfl rfl rfl hu.coding.pred hu.coding.writer

/-- After the last MCU row: an image with no row buffered. -/
def Drained (s : State) : Prop := MidImage s ∧ s.rows = 0

theorem Drained.of_writerOnly {s t : State} (h : Drained s) (ht : WriterOnly s t) (hw : t.WriterReady) : Drained t :=
  ⟨h.1.of_writerOnly ht hw, by rw [ht]; exact h.2⟩

theorem uopPadFinal_drives {s : State} (h : Drained s) : (uopPadFinal s).Drives Drained :=
  (appendBits_ends 0x7F#16 (by decide) h.1.coding.writer).mono
    (fun _ ⟨hap, hbits⟩ => h.of_writerOnly hap.only (hbits.ready hap)) (fun _ ht => h.1.of_sinkRaised ht)
    fun _ hf => hf.asStated

theorem rawBytes_drives (bs : List Byte) {s : State} (h : Drained s) : (rawBytes bs s).Drives Drained :=
  (rawBytes_ends bs h.1.coding.writer.2).mono
    (fun _ ⟨hap, hacc, _⟩ => h.of_writerOnly hap.only ⟨by rw [hacc]; exact h.1.coding.writer.1, hap.room⟩)
    (fun _ ht => h.1.of_sinkRaised ht) fun _ hf => hf.asStated

theorem flushBuffer_drives {s : State} (h : Drained s) : (flushBuffer s).Drives fun t => Drained t ∧ t.ob = [] := by
  refine (flushBuffer_ends s).mono (fun t ⟨hw, hacc, ho, _⟩ => ⟨h.of_writerOnly hw ⟨?_, ?_⟩, ho⟩)
    (fun t ⟨u, hw, ht, _⟩ => ?_) fun _ hf => hf.asStated
  · rw [hacc]; exact h.1.coding.writer.1
  · rw [ho]; exact Nat.succ_pos 2047
  · rw [ht]
    exact h.1.raise_sinkWriteFailure hw.coding (by rw [hw.pred]; exact h.1.coding.pred)

theorem cmdFinish_drives {s : State} (h : s.HostDriven) (hc : s.Canonical) : (cmdFinish s).Drives State.HostDriven := by
  by_cases hctl : s.ctl = .configured ∨ s.ctl = .accumulating
  · rw [cmdFinish_eq (rejects_none hctl)]
    refine (finishPartialRow_drives (h.midImage hc hctl) (h.rows_open hctl)).bind fun a ha => ?_
    refine (uopPadFinal_drives ha).bind fun b hb => ?_
    refine (flushBuffer_drives hb).bind fun c hcd => ?_
    refine (rawBytes_drives eoiBytes hcd.1).bind fun d hd => ?_
    refine (flushBuffer_drives hd).bind fun e ⟨⟨he, hr⟩, ho⟩ => ?_
    have hm : MidImage (State.succeed { e with ctl := .finalized }) :=
      he.of_fields rfl rfl rfl rfl rfl he.coding.pred he.coding.writer
    exact hm.hostDriven_finalized rfl hr ho
  · unfold cmdFinish
    rw [rejects_some hctl]
    exact h.raiseError _

theorem teardown_hostDriven {s : State} (h : s.HostDriven) : s.teardown.HostDriven :=
  .of_closed h.noIssue (.inl rfl) rfl h.bias h.pred

theorem predsInRange_zero : predsInRange ⟨0, 0, 0⟩ := by
  intro c
  cases c <;> exact ⟨by decide, by decide⟩

/-- The configuration INIT latches passed its checks, and the tables are the ones it builds (R341). -/
theorem cmdInit_drives {s : State} (h : s.HostDriven) : (cmdInit s).Drives State.HostDriven := by
  refine (cmdInit_ends s).mono (fun t => ?_) (fun t => ?_) fun _ hf => .inr hf
  · rintro ⟨c, u, hv, hw, -, -, rfl⟩
    obtain ⟨hwid, hhei, -, hq, hq', hpad, hconf⟩ := validate_cases hv
    rw [hw]
    refine ⟨h.noIssue, fun _ => mcuH_pos _, fun _ => rfl, fun _ => rfl, by simp, fun _ => ?_, fun _ => ?_, h.bias,
      predsInRange_zero⟩
    · rw [hconf]
      exact ⟨hwid, hhei, hq, hq', rfl, fun t => by cases t <;> rfl⟩
    · show c.wpad ≤ _
      rw [hconf]
      exact hpad
  · rintro (⟨e, -, rfl⟩ | ⟨c, u, hw, -, rfl⟩)
    · exact (teardown_hostDriven h).raiseError e
    · refine .of_closed ?_ (.inr (by simp)) (by simp) ?_ ?_
      all_goals simp only [raiseError_issue, raiseError_cfg, raiseError_pred]; rw [hw]
      · exact h.noIssue
      · exact h.bias
      · exact predsInRange_zero

/-! ### The host-driven step -/

/-- An outcome that keeps the controller invariants or stops as the spec says. -/
def KeepsHostDriven : Host.Outcome State Fault Refusal → Prop
  | .next t => t.HostDriven
  | .fault f => StopsAsStated f
  | .refused _ => True

theorem Flow.Drives.keepsHostDriven {x : Flow} (h : x.Drives State.HostDriven) : KeepsHostDriven x.toOutcome := by
  cases x <;> exact h

/-- The five host commands. -/
theorem exec_keepsHostDriven {i : Instr} (hi : i.isHostCommand = true) {s : State} (h : s.HostDriven) (hc : s.Canonical) :
    KeepsHostDriven (exec i s) := by
  rcases eq_of_isHostCommand hi with rfl | rfl | rfl | rfl | rfl
  · exact h
  · exact (cmdInit_drives h).keepsHostDriven
  · exact (cmdFeed_drives h hc).keepsHostDriven
  · exact (cmdFinish_drives h hc).keepsHostDriven
  · exact (teardown_hostDriven h).of_fields rfl rfl rfl rfl rfl rfl rfl rfl rfl

theorem hostAccess_keepsHostDriven (a : HostAccess) {s : State} (h : s.HostDriven) (hc : s.Canonical) :
    KeepsHostDriven (hostAccess a s) := by
  rcases hostAccess_cases a s with ⟨why, e⟩ | ⟨v, e⟩ | ⟨v, e⟩ | ⟨v, e⟩ | ⟨v, e⟩ | ⟨j, bs, -, e⟩ | e <;> rw [e]
  · trivial
  · exact h.of_fields rfl rfl rfl rfl rfl rfl rfl rfl rfl
  · rcases issueCommand_cases v s with ⟨i, hi, e⟩ | e <;> rw [e]
    · exact exec_keepsHostDriven hi h hc
    · exact h.raiseError _
  · exact h.of_fields rfl rfl rfl rfl rfl rfl rfl rfl rfl
  · exact h.of_fields rfl rfl rfl rfl rfl rfl rfl rfl rfl
  · exact h.of_fields rfl rfl rfl rfl rfl rfl rfl rfl rfl
  · exact h

theorem platformReset_hostDriven {s : State} (hbias : s.cfg.h2v1OddBias ≤ 2) : (platformReset s).HostDriven :=
  .of_closed rfl (.inl rfl) rfl hbias predsInRange_zero

/-- Driven by the host alone, a step keeps the controller invariants or stops as the spec says. -/
theorem step_keepsHostDriven {s : State} (h : s.HostDriven) (hc : s.Canonical) : KeepsHostDriven (step s) := by
  unfold step
  split
  · rename_i w hw
    rw [h.noIssue] at hw
    cases hw
  · split
    · rename_i i rest _
      have h' : State.HostDriven { s with inputs := rest } := h.of_fields rfl rfl rfl rfl rfl rfl rfl rfl rfl
      have hc' : State.Canonical { s with inputs := rest } := hc.of_fields rfl rfl rfl rfl hc.ob hc.acc
      cases i with
      | access a => exact hostAccess_keepsHostDriven a h' hc'
      | reset => exact platformReset_hostDriven h'.bias
    · exact h

/-- Settles O16, from what each host access and each command keeps. -/
theorem stepKeepsTheHostDrivenInvariant : Obligations.StepKeepsTheHostDrivenInvariant := by
  intro s t h hc ht
  have hk := step_keepsHostDriven h hc
  rwa [ht] at hk

/-- Settles O17, from the faults each command can end in. -/
theorem hostDrivenStepsFaultOnlyOnUnwrittenSourceOrSilentSink :
    Obligations.HostDrivenStepsFaultOnlyOnUnwrittenSourceOrSilentSink := by
  intro s f h hc hf
  have hk := step_keepsHostDriven h hc
  rwa [hf] at hk

/-- Settles O14: the state after reset is one with no image under way. -/
theorem resetMeetsTheInvariants : Obligations.ResetMeetsTheInvariants :=
  ⟨powerOn_canonical _, .of_closed rfl (.inl rfl) rfl (by decide) predsInRange_zero⟩

end Sys2Proof.Machine
end

section
/-! PROOFS. The host window: which accesses are refused, what the registers answer and take, reset, and operands that
have no meaning (O7, O8, O9, O11, O43). -/

namespace Sys2Proof.Machine

/-! ### Where an access goes (R81, R82, R83) -/

section
variable {cfg : Config} {n : Width} {addr : BitVec 19}

theorem target_misaligned (h : addr.toNat % n.bytes ≠ 0) : target cfg n addr = .error .misalignedAccess := if_pos h

/-- An aligned access below the registers' end. -/
theorem target_register (ha : addr.toNat % n.bytes = 0) (h : addr.toNat < 0x010) :
    target cfg n addr = match n with
      | .word => .ok (.register addr.toNat)
      | .byte => .error .narrowRegisterAccess
      | .half => .error .narrowRegisterAccess := by
  unfold target
  simp only
  rw [if_neg (not_not.2 ha), if_pos h]
  cases n <;> rfl

/-- An aligned access in the window of the scanline buffer. -/
theorem target_slb (ha : addr.toNat % n.bytes = 0) (h : slbBase ≤ addr.toNat) (h' : addr.toNat < slbBase + slbSize cfg) :
    target cfg n addr =
      if addr.toNat + n.bytes ≤ slbBase + slbSize cfg then .ok (.slb (addr.toNat - slbBase)) else .error .straddlesSlbEnd := by
  have hreg : ¬ addr.toNat < 0x010 := by
    rw [show slbBase = 0x40000 from rfl] at h
    omega
  unfold target
  simp only
  rw [if_neg (not_not.2 ha), if_neg hreg, if_pos ⟨h, h'⟩]

theorem target_reserved (ha : addr.toNat % n.bytes = 0) (h : 0x010 ≤ addr.toNat)
    (h' : ¬ (slbBase ≤ addr.toNat ∧ addr.toNat < slbBase + slbSize cfg)) : target cfg n addr = .ok .reserved := by
  unfold target
  simp only
  rw [if_neg (not_not.2 ha), if_neg (by omega), if_neg h']

end

/-- An access without a target is refused, read or write. -/
theorem refused_of_target {s : State} {n : Width} {addr : BitVec 19} {why : Refusal} (v : Word)
    (h : target s.cfg n addr = .error why) :
    ∃ why why', hostAccess (.read n addr) s = .refused why ∧ hostAccess (.write n addr v) s = .refused why' :=
  ⟨why, why, read_refused h, write_refused v h⟩

/-- Settles O11, by where the access goes. -/
theorem undefinedAccessesAreRefusedAndReservedOnesIgnored :
    Obligations.UndefinedAccessesAreRefusedAndReservedOnesIgnored := by
  intro s n addr v
  have misaligned : addr.toNat % n.bytes ≠ 0 →
      ∃ why why', hostAccess (.read n addr) s = .refused why ∧ hostAccess (.write n addr v) s = .refused why' :=
    fun h => refused_of_target v (target_misaligned h)
  refine ⟨misaligned, fun hlow hbad => ?_, fun hlo hhi hbad => ?_, fun ha hout => ?_⟩
  · by_cases ha : addr.toNat % n.bytes = 0
    · have ht := target_register (cfg := s.cfg) ha hlow
      cases n with
      | byte => exact refused_of_target v ht
      | half => exact refused_of_target v ht
      | word => exact (hbad.elim (· rfl) (· ha)).elim
    · exact misaligned ha
  · by_cases ha : addr.toNat % n.bytes = 0
    · have ht := target_slb (cfg := s.cfg) ha hlo hhi
      have hlen : ¬ addr.toNat + n.bytes ≤ slbBase + slbSize s.cfg := Nat.not_le.2 (hbad.resolve_left (not_not.2 ha))
      rw [if_neg hlen] at ht
      exact refused_of_target v ht
    · exact misaligned ha
  · have ht : target s.cfg n addr = .ok .reserved := by
      refine target_reserved ha (by omega) ?_
      rw [show slbBase = 0x40000 from rfl, show slbSize s.cfg = 3 * s.cfg.maxPaddedWidth from rfl]
      omega
    exact ⟨read_answers ht, write_runs v ht⟩

/-! ### The host registers (R32 to R35) -/

/-- A word read of a register answers the register. -/
theorem read_register {s : State} {addr : BitVec 19} (ha : addr.toNat % 4 = 0) (h : addr.toNat < 0x010) :
    hostAccess (.read .word addr) s = .next { s with hostReads := s.hostReads ++ [csrRead s addr.toNat] } :=
  read_answers (target_register (n := .word) ha h)

/-- A word write of a register is the register write of R83. -/
theorem write_register {s : State} {addr : BitVec 19} (v : Word) (ha : addr.toNat % 4 = 0) (h : addr.toNat < 0x010) :
    hostAccess (.write .word addr v) s = csrWrite addr.toNat v s :=
  write_runs v (target_register (n := .word) ha h)

theorem CtlState.code_toNat (c : CtlState) : c.code.toNat =
    match c with
    | .uninit => 0 | .configured => 1 | .accumulating => 2 | .finalized => 3 | .failed => 4 := by
  cases c <;> rfl

theorem ErrCode.code_toNat (e : ErrCode) : e.code.toNat =
    match e with
    | .none => 0 | .invalidParameters => 1 | .allocationFailure => 2 | .sinkWriteFailure => 3
    | .illegalCommand => 4 | .badState => 5 := by
  cases e <;> rfl

/-- Appended bits as a number: the low part, and the high part above it. -/
theorem append_toNat {n m : Nat} (x : BitVec n) (y : BitVec m) : (x ++ y).toNat = x.toNat * 2 ^ m + y.toNat := by
  rw [BitVec.toNat_append, Nat.shiftLeft_eq, Nat.mul_comm, ← Nat.two_pow_add_eq_or_of_lt y.isLt]

/-- STATUS as a number, field by field (R33). -/
theorem status_toNat {s : State} (h : s.rows < 32) :
    s.status.toNat = s.ctl.code.toNat + 8 * (if s.result then 1 else 0) + 16 * s.err.code.toNat + 256 * s.rows := by
  have hb : (BitVec.ofBool s.result).toNat = if s.result then 1 else 0 := by cases s.result <;> rfl
  unfold State.status
  rw [append_toNat, append_toNat, append_toNat, append_toNat, hb, BitVec.toNat_ofNat, BitVec.toNat_ofNat,
    Nat.mod_eq_of_lt h]
  omega

/-- Settles O8: an aligned word read answers the register, and STATUS as a number is the sum of its fields. -/
theorem registerReadsAnswerTheirFields : Obligations.RegisterReadsAnswerTheirFields := by
  intro s h
  refine ⟨read_register (by decide) (by decide), ⟨s.status, read_register (by decide) (by decide), ?_⟩,
    read_register (by decide) (by decide), read_register (by decide) (by decide)⟩
  have hv := status_toNat h
  rw [CtlState.code_toNat, ErrCode.code_toNat] at hv
  exact hv

/-- The defined bits of CFG_MODE (R35). -/
theorem cfgModeMask_getLsbD (i : Nat) :
    cfgModeMask.getLsbD i = decide (i ≤ 6 ∨ (8 ≤ i ∧ i ≤ 9) ∨ (12 ≤ i ∧ i ≤ 13) ∨ i = 16) := by
  by_cases h : i < 32
  · exact (by decide : ∀ i : Fin 32,
      cfgModeMask.getLsbD i = decide (i.val ≤ 6 ∨ (8 ≤ i.val ∧ i.val ≤ 9) ∨ (12 ≤ i.val ∧ i.val ≤ 13) ∨ i.val = 16)) ⟨i, h⟩
  · rw [BitVec.getLsbD_of_ge _ _ (by omega), eq_comm, decide_eq_false_iff_not]
    omega

/-- A field inside the defined bits reads as written (R35). -/
theorem extractLsb'_masked (v : Word) {start len : Nat} (h : cfgModeMask.extractLsb' start len = BitVec.allOnes len) :
    (v &&& cfgModeMask).extractLsb' start len = v.extractLsb' start len := by
  rw [BitVec.extractLsb'_and, h, BitVec.and_allOnes]

/-- The subsampling mode a value of CFG_MODE.SUBSAMP names (R35). -/
def subsampOf : Nat → Subsamp
  | 0 => .grayscale
  | 1 => .s444
  | 2 => .s422
  | _ => .s420

theorem cfgSubsamp_eq (s : State) : s.cfgSubsamp = subsampOf (s.cfgMode.extractLsb' 12 2).toNat := rfl

/-- Settles O9: an aligned word write is the register write of R83, and every field lies inside the mask of R35. -/
theorem registerWritesTakeTheDefinedFields : Obligations.RegisterWritesTakeTheDefinedFields := by
  intro s v
  refine ⟨write_register v (by decide) (by decide), write_register v (by decide) (by decide), ?_, ?_, v &&& cfgModeMask,
    write_register v (by decide) (by decide), fun i => ?_, ?_, ?_, ?_, ?_⟩
  · simp [State.cfgWidth, BitVec.extractLsb'_toNat]
  · have := v.isLt
    simp only [State.cfgHeight, BitVec.extractLsb'_toNat, Nat.shiftRight_eq_div_pow]
    omega
  · rw [BitVec.getLsbD_and, cfgModeMask_getLsbD, Bool.and_comm]
  · simp [State.cfgQuality, extractLsb'_masked v (show cfgModeMask.extractLsb' 0 7 = _ by decide), BitVec.extractLsb'_toNat]
  · simp [State.cfgChannels, extractLsb'_masked v (show cfgModeMask.extractLsb' 8 2 = _ by decide), BitVec.extractLsb'_toNat,
      Nat.shiftRight_eq_div_pow]
  · rw [cfgSubsamp_eq]
    exact congrArg subsampOf (by
      rw [extractLsb'_masked v (by decide), BitVec.extractLsb'_toNat, Nat.shiftRight_eq_div_pow])
  · simp [State.cfgNocd, extractLsb'_masked v (show cfgModeMask.extractLsb' 16 1 = _ by decide), BitVec.extractLsb'_toNat,
      Nat.shiftRight_eq_div_pow, BitVec.toNat_eq]

/-! ### Reset (R60, R440) -/

theorem status_powerOn (cfg : Config) : (State.powerOn cfg).status = 0x00000000#32 :=
  show 0#19 ++ BitVec.ofNat 5 0 ++ ErrCode.none.code ++ BitVec.ofBool false ++ CtlState.uninit.code = 0#32 by decide

/-- Settles O7: a state after reset is the power-on state but for what is not the block's own. -/
theorem resetLeavesTheStatedValues : Obligations.ResetLeavesTheStatedValues := by
  have values : ∀ t : State, t = { State.powerOn t.cfg with
      inputs := t.inputs, answers := t.answers, draws := t.draws, epoch := t.epoch, sinkLog := t.sinkLog
      hostReads := t.hostReads } →
    t.status = 0x00000000#32 ∧ t.ctl = .uninit ∧ t.result = false ∧ t.err = .none ∧ t.rows = 0 ∧
    t.cfgDim = 0x00000000#32 ∧ t.cfgMode = 0x00003355#32 ∧ (∀ c, t.pred.get c = 0) ∧ t.acc = [] ∧ t.ob = [] ∧
    (∀ j, t.slb.read j = none) ∧ (∀ c r x, t.stored c r x = none) := by
    intro t ht
    rw [ht]
    refine ⟨status_powerOn t.cfg, rfl, rfl, rfl, rfl, rfl, rfl, fun c => by cases c <;> rfl, rfl, rfl,
      fun j => rfl, fun c r x => ?_⟩
    show ((State.powerOn t.cfg).row c r).read x = none
    rw [row_powerOn]
    rfl
  rintro t (rfl | ⟨s, rfl⟩)
  · exact values _ rfl
  · exact values _ rfl

/-! ### Operands without a meaning (R50, R123) -/

/-- Settles O43: the loads look at the row buffer's bounds first, the append at its length. -/
theorem operandsOutsideTheirRangeFault : Obligations.OperandsOutsideTheirRangeFault := by
  intro s c r x l v
  have outside : ∀ {row cols : Nat} (t : State), ¬ (row < 16 ∧ cols ≤ s.cfg.maxPaddedWidth) →
      (if s.hasSamples row cols then Flow.going t else .fault .outsideRowBuffer) = .fault .outsideRowBuffer :=
    fun t h => if_neg (mt (hasSamples_iff _ _ _).1 h)
  refine ⟨fun h => ?_, fun h => ⟨?_, ?_⟩, fun h => ?_⟩
  · exact congrArg Flow.toOutcome (outside _ (by omega))
  · exact congrArg Flow.toOutcome (outside _ (by omega))
  · exact congrArg Flow.toOutcome (outside _ (by omega))
  · exact congrArg Flow.toOutcome (if_pos h)

end Sys2Proof.Machine
end

section
/-! PROOFS. No operation but INIT reads the configuration registers (O19). -/

namespace Sys2Proof.Machine

/-- `s` with other values in CFG_DIM and CFG_MODE. -/
def State.setRegisters (dim mode : Word) (s : State) : State := { s with cfgDim := dim, cfgMode := mode }

/-- How an operation ends, with its state changed. -/
def Flow.map (f : State → State) : Flow → Flow
  | .going s => .going (f s)
  | .raised s => .raised (f s)
  | .fault e => .fault e

theorem Flow.map_toOutcome (f : State → State) (x : Flow) : (x.map f).toOutcome = mapNext f x.toOutcome := by
  cases x <;> rfl

theorem Flow.map_bind {f : State → State} {k : State → Flow} (hk : ∀ s, k (f s) = (k s).map f) (x : Flow) :
    (x.map f).bind k = (x.bind k).map f := by
  cases x with
  | going s => exact hk s
  | raised s => rfl
  | fault e => rfl

theorem Flow.map_ite (f : State → State) (p : Prop) [Decidable p] (x y : Flow) :
    (if p then x else y).map f = if p then x.map f else y.map f := by
  split <;> rfl

/-- Run with other values in CFG_DIM and CFG_MODE, the operation ends the same way, in the same state but for them. -/
def IgnoresRegisters (op : State → Flow) : Prop :=
  ∀ dim mode s, op (s.setRegisters dim mode) = (op s).map (State.setRegisters dim mode)

/-- A change of state that commutes with setting the registers. -/
theorem ignores_going {g : State → State} (h : ∀ dim mode s, g (s.setRegisters dim mode) = (g s).setRegisters dim mode) :
    IgnoresRegisters fun s => .going (g s) :=
  fun dim mode s => congrArg Flow.going (h dim mode s)

theorem ignores_fault (e : Fault) : IgnoresRegisters fun _ => .fault e := fun _ _ _ => rfl

theorem IgnoresRegisters.bind {op k : State → Flow} (h : IgnoresRegisters op) (hk : IgnoresRegisters k) :
    IgnoresRegisters fun s => (op s).bind k := fun dim mode s => by
  show (op _).bind k = _
  rw [h dim mode s, Flow.map_bind (hk dim mode)]

theorem ignores_runAll {ops : List (State → Flow)} (h : ∀ op ∈ ops, IgnoresRegisters op) : IgnoresRegisters (runAll ops) := by
  induction ops with
  | nil => exact fun _ _ _ => rfl
  | cons op ops ih => exact (h op (by simp)).bind (ih fun o ho => h o (by simp [ho]))

/-- A choice the registers do not enter. -/
theorem IgnoresRegisters.ite {p : State → Prop} [DecidablePred p] {x y : State → Flow}
    (hp : ∀ dim mode s, p (s.setRegisters dim mode) ↔ p s) (hx : IgnoresRegisters x) (hy : IgnoresRegisters y) :
    IgnoresRegisters fun s => if p s then x s else y s := fun dim mode s => by
  show (if p _ then x _ else y _) = _
  rw [Flow.map_ite, ← hx dim mode s, ← hy dim mode s]
  simp only [hp dim mode s]

/-- An operation with an operand taken from the state, but not from the registers. -/
theorem IgnoresRegisters.operand {α : Type} {op : α → State → Flow} (h : ∀ a, IgnoresRegisters (op a)) {g : State → α}
    (hg : ∀ dim mode s, g (s.setRegisters dim mode) = g s) : IgnoresRegisters fun s => op (g s) s := fun dim mode s => by
  show op (g _) _ = _
  rw [hg, h]

/-- An operation run after a change of state that commutes with setting the registers. -/
theorem IgnoresRegisters.after {op : State → Flow} (h : IgnoresRegisters op) {g : State → State}
    (hg : ∀ dim mode s, g (s.setRegisters dim mode) = (g s).setRegisters dim mode) : IgnoresRegisters fun s => op (g s) :=
  fun dim mode s => by
  show op (g _) = _
  rw [hg, h]

/-! ### The bit writer -/

theorem nextAnswer_setRegisters (dim mode : Word) (s : State) : (s.setRegisters dim mode).nextAnswer = s.nextAnswer := rfl

theorem logTransfer_setRegisters (dim mode : Word) (s : State) (bs : List Byte) (ok : Bool) :
    (s.setRegisters dim mode).logTransfer bs ok = (s.logTransfer bs ok).setRegisters dim mode := by
  have h : (s.setRegisters dim mode).answers = s.answers := rfl
  unfold State.logTransfer State.consumeAnswer
  rw [h]
  cases s.answers <;> rfl

theorem flushBuffer_ignores : IgnoresRegisters flushBuffer := fun dim mode s => by
  have hob : (s.setRegisters dim mode).ob = s.ob := rfl
  rw [flushBuffer_eq, flushBuffer_eq, Flow.map_ite, hob, nextAnswer_setRegisters, logTransfer_setRegisters,
    logTransfer_setRegisters]
  cases s.nextAnswer <;> rfl

theorem obAppend_ignores (b : Byte) : IgnoresRegisters (obAppend b) := by
  refine .after (op := fun t => if t.ob.length = obSize then flushBuffer t else .going t)
    (g := fun s => { s with ob := s.ob ++ [b] }) ?_ fun _ _ _ => rfl
  exact .ite (fun _ _ _ => Iff.rfl) flushBuffer_ignores (ignores_going fun _ _ _ => rfl)

theorem rawBytes_ignores (bs : List Byte) : IgnoresRegisters (rawBytes bs) := by
  refine ignores_runAll fun op hop => ?_
  obtain ⟨b, -, rfl⟩ := List.mem_map.1 hop
  exact obAppend_ignores b

theorem stuffedByte_ignores (b : Byte) : IgnoresRegisters (stuffedByte b) :=
  (obAppend_ignores b).bind (.ite (fun _ _ _ => Iff.rfl) (obAppend_ignores _) (ignores_going fun _ _ _ => rfl))

theorem drainBits_ignores (bits : List Bool) : IgnoresRegisters (drainBits bits) := by
  induction bits using octets_induct with
  | full b7 b6 b5 b4 b3 b2 b1 b0 rest ih =>
    exact ((stuffedByte_ignores _).after (g := fun s => { s with acc := rest }) fun _ _ _ => rfl).bind ih
  | few bits h =>
    intro dim mode s
    rw [drainBits_few h, drainBits_few h]
    rfl

theorem appendBits_ignores (v : BitVec 16) (n : Nat) : IgnoresRegisters (appendBits v n) :=
  .ite (fun _ _ _ => Iff.rfl) (ignores_fault _) (.ite (fun _ _ _ => Iff.rfl) (ignores_going fun _ _ _ => rfl)
    (.operand drainBits_ignores fun _ _ _ => rfl))

/-! ### The Huffman coder -/

theorem emitSymbol_ignores (k : HuffClass) (tb : TableId) (sym : Nat) : IgnoresRegisters (emitSymbol k tb sym) :=
  .operand (op := fun (h : HuffCode) s => if h.len = 0 then .fault .undefinedSymbol else appendBits h.code h.len s)
    (g := fun s => s.huffCode k tb sym)
    (fun _ => .ite (fun _ _ _ => Iff.rfl) (ignores_fault _) (appendBits_ignores _ _)) fun _ _ _ => rfl

theorem codeDiff_ignores (tb : TableId) (diff : Int) : IgnoresRegisters (codeDiff tb diff) :=
  (emitSymbol_ignores _ _ _).bind (.ite (fun _ _ _ => Iff.rfl) (appendBits_ignores _ _) (ignores_going fun _ _ _ => rfl))

theorem uopEncDc_ignores (c : Comp) (tb : TableId) : IgnoresRegisters (uopEncDc c tb) :=
  .operand (op := fun (d : Int) s => codeDiff tb d { s with pred := s.pred.set c s.blkZ[0] })
    (g := fun s => s.blkZ[0] - s.pred.get c)
    (fun d => (codeDiff_ignores tb d).after (g := fun s => { s with pred := s.pred.set c s.blkZ[0] }) fun _ _ _ => rfl) fun _ _ _ => rfl

theorem codeZrl_ignores (tb : TableId) : IgnoresRegisters (codeZrl tb) :=
  (emitSymbol_ignores _ _ _).bind (ignores_going fun _ _ _ => rfl)

theorem codeAc_ignores (tb : TableId) (v : Int) : IgnoresRegisters (codeAc tb v) := by
  refine .ite (fun _ _ _ => Iff.rfl) (ignores_going fun _ _ _ => rfl) (.bind ?_ (.bind ?_ (.bind ?_ ?_)))
  · refine .operand (op := fun n => runAll (List.replicate n (codeZrl tb))) (g := fun s => s.run / 16)
      (fun n => ignores_runAll fun op hop => ?_)
      fun _ _ _ => rfl
    rw [List.eq_of_mem_replicate hop]
    exact codeZrl_ignores tb
  · exact .operand (op := fun run => emitSymbol .ac tb (run <<< 4 ||| cat v)) (g := State.run)
      (fun _ => emitSymbol_ignores _ _ _) fun _ _ _ => rfl
  · exact appendBits_ignores _ _
  · exact ignores_going fun _ _ _ => rfl

theorem uopEncAc_ignores (tb : TableId) : IgnoresRegisters (uopEncAc tb) := by
  refine .bind (.operand (op := fun (vs : List Int) s => runAll (vs.map (codeAc tb)) { s with run := 0 })
    (g := fun s => s.blkZ.toList.drop 1) (fun vs => ?_) fun _ _ _ => rfl)
    (.ite (fun _ _ _ => Iff.rfl) (emitSymbol_ignores _ _ _) (ignores_going fun _ _ _ => rfl))
  refine .after (g := fun s => { s with run := 0 }) (ignores_runAll fun op hop => ?_) fun _ _ _ => rfl
  obtain ⟨v, -, rfl⟩ := List.mem_map.1 hop
  exact codeAc_ignores tb v

/-! ### The MCU row -/

theorem load_ignores (b : BlockLoad) : IgnoresRegisters b.run := by
  cases b with
  | full c br bc => exact .ite (fun _ _ _ => Iff.rfl) (ignores_going fun _ _ _ => rfl) (ignores_fault _)
  | h2v1 c mx => exact .ite (fun _ _ _ => Iff.rfl) (ignores_going fun _ _ _ => rfl) (ignores_fault _)
  | h2v2 c mx => exact .ite (fun _ _ _ => Iff.rfl) (ignores_going fun _ _ _ => rfl) (ignores_fault _)

theorem uopFdct_ignores : IgnoresRegisters uopFdct := ignores_going fun _ _ _ => rfl

theorem uopQuantZz_ignores (tb : TableId) : IgnoresRegisters (uopQuantZz tb) := ignores_going fun _ _ _ => rfl

theorem codeBlock_ignores (mx : Nat) (b : BlockLoad × Nat) : IgnoresRegisters (codeBlock mx b) := by
  refine (ignores_runAll fun op hop => ?_).after (g := fun s => { s with mcuIndex := mx, blockIndex := b.2 }) fun _ _ _ => rfl
  simp only [List.mem_cons, List.not_mem_nil, or_false] at hop
  rcases hop with rfl | rfl | rfl | rfl | rfl
  · exact load_ignores _
  · exact uopFdct_ignores
  · exact uopQuantZz_ignores _
  · exact uopEncDc_ignores _ _
  · exact uopEncAc_ignores _

theorem uopProcessMcuRow_ignores : IgnoresRegisters uopProcessMcuRow := by
  refine .operand (op := fun n => runAll ((List.range n).map codeMcu)) (g := fun s => s.conf.nmcux)
    (fun n => ignores_runAll fun op hop => ?_) fun _ _ _ => rfl
  obtain ⟨mx, -, rfl⟩ := List.mem_map.1 hop
  refine .operand (op := fun bs => runAll (bs.map (codeBlock mx))) (g := fun s => (blockOrder s.conf.ss mx).zipIdx)
    (fun bs => ignores_runAll fun op hop => ?_) fun _ _ _ => rfl
  obtain ⟨b, -, rfl⟩ := List.mem_map.1 hop
  exact codeBlock_ignores mx b

/-! ### The row buffer -/

theorem foldl_writeRow_setRegisters (r x0 : Nat) (f : Comp → List Byte) (dim mode : Word) (cs : List Comp) :
    ∀ s : State, cs.foldl (fun t c => t.writeRow c r x0 (f c)) (s.setRegisters dim mode) =
      (cs.foldl (fun t c => t.writeRow c r x0 (f c)) s).setRegisters dim mode := by
  induction cs with
  | nil => exact fun _ => rfl
  | cons c cs ih => exact fun s => ih (s.writeRow c r x0 (f c))

/-- Rows written from samples the registers do not enter. -/
theorem ignores_writeRows {r : Nat} {x0 : State → Nat} {f : State → Comp → List Byte} {cs : State → List Comp}
    (h : ∀ dim mode s, x0 (s.setRegisters dim mode) = x0 s ∧ f (s.setRegisters dim mode) = f s ∧
      cs (s.setRegisters dim mode) = cs s) :
    IgnoresRegisters fun s => .going ((cs s).foldl (fun t c => t.writeRow c r (x0 s) (f s c)) s) :=
  ignores_going fun dim mode s => by
    obtain ⟨h1, h2, h3⟩ := h dim mode s
    rw [h1, h2, h3]
    exact foldl_writeRow_setRegisters ..

theorem convertRow_ignores (k : Nat) (cs : List Comp) (f : List Byte → Comp → List Byte) (r : Nat) :
    IgnoresRegisters (convertRow k (fun bytes => cs.map fun c => (c, f bytes c)) r) := fun dim mode s => by
  have hw : (s.setRegisters dim mode).conf = s.conf := rfl
  have hs : ∀ n, (s.setRegisters dim mode).hasSamples r n = s.hasSamples r n := fun _ => rfl
  have hb : ∀ n, (s.setRegisters dim mode).sourceBytes n = s.sourceBytes n := fun _ => rfl
  rw [convertRow_eq, convertRow_eq, Flow.map_ite, hw, hs, hb]
  cases s.sourceBytes (k * s.conf.w.toNat) with
  | none => rfl
  | some bytes => simp only [foldl_writeRow_setRegisters]; rfl

theorem convertScanline_ignores (r : Nat) : IgnoresRegisters (convertScanline r) := fun dim mode s => by
  rw [convertScanline_eq, convertScanline_eq]
  exact convertRow_ignores _ _ _ _ dim mode s

theorem uopPadRight_ignores (r : Nat) : IgnoresRegisters (uopPadRight r) :=
  .ite (fun _ _ _ => Iff.rfl) (ignores_writeRows fun _ _ _ => ⟨rfl, rfl, rfl⟩) (ignores_fault _)

theorem uopPadBottom_ignores (r : Nat) : IgnoresRegisters (uopPadBottom r) :=
  .ite (fun _ _ _ => Iff.rfl) (ignores_writeRows (x0 := fun _ => 0) fun _ _ _ => ⟨rfl, rfl, rfl⟩) (ignores_fault _)

/-! ### The commands -/

theorem raiseError_setRegisters (e : ErrCode) (dim mode : Word) (s : State) :
    raiseError e (s.setRegisters dim mode) = (raiseError e s).setRegisters dim mode := by
  cases e <;> rfl

theorem finishRow_ignores : IgnoresRegisters finishRow :=
  .ite (fun _ _ _ => Iff.rfl) (uopProcessMcuRow_ignores.bind (ignores_going fun _ _ _ => rfl)) (ignores_going fun _ _ _ => rfl)

theorem finishPartialRow_ignores : IgnoresRegisters finishPartialRow := by
  refine .ite (fun _ _ _ => Iff.rfl) (ignores_going fun _ _ _ => rfl) (.bind ?_ (ignores_going fun _ _ _ => rfl))
  refine .operand (op := fun rs => runAll (rs.map uopPadBottom ++ [uopProcessMcuRow]))
    (g := fun s => List.range' s.rows (s.conf.ss.mcuH - s.rows))
    (fun rs => ignores_runAll fun op hop => ?_) fun _ _ _ => rfl
  rcases List.mem_append.1 hop with hop | hop
  · obtain ⟨r, -, rfl⟩ := List.mem_map.1 hop
    exact uopPadBottom_ignores r
  · rw [List.mem_singleton.1 hop]
    exact uopProcessMcuRow_ignores

theorem cmdFeed_ignores : IgnoresRegisters cmdFeed := fun dim mode s => by
  have hctl : (s.setRegisters dim mode).ctl = s.ctl := rfl
  unfold cmdFeed
  rw [hctl]
  cases s.ctl.rejects with
  | some e => exact congrArg Flow.raised (raiseError_setRegisters e dim mode s)
  | none =>
    refine ignores_runAll (fun op hop => ?_) dim mode s
    simp only [List.mem_cons, List.not_mem_nil, or_false] at hop
    rcases hop with rfl | rfl | rfl | rfl | rfl
    · exact convertScanline_ignores _
    · exact uopPadRight_ignores _
    · exact ignores_going fun _ _ _ => rfl
    · exact finishRow_ignores
    · exact ignores_going fun _ _ _ => rfl

theorem cmdFinish_ignores : IgnoresRegisters cmdFinish := fun dim mode s => by
  have hctl : (s.setRegisters dim mode).ctl = s.ctl := rfl
  unfold cmdFinish
  rw [hctl]
  cases s.ctl.rejects with
  | some e => exact congrArg Flow.raised (raiseError_setRegisters e dim mode s)
  | none =>
    refine ignores_runAll (fun op hop => ?_) dim mode s
    simp only [List.mem_cons, List.not_mem_nil, or_false] at hop
    rcases hop with rfl | rfl | rfl | rfl | rfl | rfl
    · exact finishPartialRow_ignores
    · exact appendBits_ignores _ _
    · exact flushBuffer_ignores
    · exact rawBytes_ignores _
    · exact flushBuffer_ignores
    · exact ignores_going fun _ _ _ => rfl

/-- Every instruction but INIT is an operation that ignores the registers. -/
theorem exec_ignores {i : Instr} (hi : i ≠ .init) :
    ∃ op : State → Flow, IgnoresRegisters op ∧ ∀ s, exec i s = (op s).toOutcome := by
  cases i with
  | nop => exact ⟨_, ignores_going (g := id) fun _ _ _ => rfl, fun _ => rfl⟩
  | init => exact (hi rfl).elim
  | feed => exact ⟨_, cmdFeed_ignores, fun _ => rfl⟩
  | finish => exact ⟨_, cmdFinish_ignores, fun _ => rfl⟩
  | deinit => exact ⟨_, ignores_going (g := fun s => s.teardown.succeed) fun _ _ _ => rfl, fun _ => rfl⟩
  | convRgbY r => exact ⟨_, convertRow_ignores 3 [.y] (convSamples .three) r.toNat, fun _ => rfl⟩
  | convRgbYcc r => exact ⟨_, convertRow_ignores 3 [.y, .cb, .cr] (convSamples .three) r.toNat, fun _ => rfl⟩
  | convGrayY r => exact ⟨_, convertRow_ignores 1 [.y] (convSamples .one) r.toNat, fun _ => rfl⟩
  | convGrayYcc r => exact ⟨_, convertRow_ignores 1 [.y, .cb, .cr] (convSamples .one) r.toNat, fun _ => rfl⟩
  | padRight r => exact ⟨_, uopPadRight_ignores r.toNat, fun _ => rfl⟩
  | padBottom r => exact ⟨_, uopPadBottom_ignores r.toNat, fun _ => rfl⟩
  | loadFull c r x => exact ⟨_, load_ignores (.full c r.toNat x.toNat), fun _ => rfl⟩
  | loadH2v1 c x => exact ⟨_, load_ignores (.h2v1 c x.toNat), fun _ => rfl⟩
  | loadH2v2 c x => exact ⟨_, load_ignores (.h2v2 c x.toNat), fun _ => rfl⟩
  | fdct => exact ⟨_, uopFdct_ignores, fun _ => rfl⟩
  | quantZz t => exact ⟨_, uopQuantZz_ignores t, fun _ => rfl⟩
  | encDc c t => exact ⟨_, uopEncDc_ignores c t, fun _ => rfl⟩
  | encAc t => exact ⟨_, uopEncAc_ignores t, fun _ => rfl⟩
  | putBits l v => exact ⟨_, appendBits_ignores v l.toNat, fun _ => rfl⟩
  | padFinal => exact ⟨_, appendBits_ignores 0x7F#16 7, fun _ => rfl⟩
  | flush => exact ⟨_, flushBuffer_ignores, fun _ => rfl⟩
  | outByte b => exact ⟨_, obAppend_ignores b, fun _ => rfl⟩
  | buildQt t => exact ⟨uopBuildQt t, ignores_going fun _ _ _ => rfl, fun _ => rfl⟩
  | buildHt k t => exact ⟨uopBuildHt k t, ignores_going fun _ _ _ => rfl, fun _ => rfl⟩
  | emitSoi => exact ⟨_, rawBytes_ignores soiBytes, fun _ => rfl⟩
  | emitApp0 => exact ⟨_, rawBytes_ignores app0Bytes, fun _ => rfl⟩
  | emitDqt t => exact ⟨uopEmitDqt t, .operand rawBytes_ignores fun _ _ _ => rfl, fun _ => rfl⟩
  | emitSof0 => exact ⟨uopEmitSof0, .operand rawBytes_ignores fun _ _ _ => rfl, fun _ => rfl⟩
  | emitDht k t => exact ⟨_, rawBytes_ignores (dhtBytes k t), fun _ => rfl⟩
  | emitSos => exact ⟨uopEmitSos, .operand rawBytes_ignores fun _ _ _ => rfl, fun _ => rfl⟩
  | emitEoi => exact ⟨_, rawBytes_ignores eoiBytes, fun _ => rfl⟩
  | processMcuRow => exact ⟨_, uopProcessMcuRow_ignores, fun _ => rfl⟩

/-- Settles O19: every operation but INIT's commutes with setting the registers. -/
theorem configurationRegistersMatterOnlyToInit : Obligations.ConfigurationRegistersMatterOnlyToInit := by
  intro i s dim mode hi
  obtain ⟨op, hop, hexec⟩ := exec_ignores hi
  rw [hexec, hexec, ← Flow.map_toOutcome]
  exact congrArg Flow.toOutcome (hop dim mode s)

end Sys2Proof.Machine
end

section
/-! PROOFS. The frame of every instruction, and INIT and FEED as whole commands (O18, O27, O39). -/

namespace Sys2Proof.Machine

/-! ### What no instruction writes (R33, R36, R44, R48) -/

/-- The parameters, the registers, the scanline buffer, the inputs and what is not the block's own are as they were. -/
def OutsideKept (s t : State) : Prop :=
  t.cfg = s.cfg ∧ t.cfgDim = s.cfgDim ∧ t.cfgMode = s.cfgMode ∧ t.slb = s.slb ∧ t.issue = s.issue ∧ t.inputs = s.inputs ∧
    t.epoch = s.epoch ∧ t.hostReads = s.hostReads

/-- So are the latched configuration and the tables: what FEED and FINISH keep. -/
def ImageKept (s t : State) : Prop := OutsideKept s t ∧ t.conf = s.conf ∧ t.qt = s.qt ∧ t.huff = s.huff

theorem OutsideKept.refl (s : State) : OutsideKept s s := ⟨rfl, rfl, rfl, rfl, rfl, rfl, rfl, rfl⟩

theorem OutsideKept.trans {s t u : State} (h : OutsideKept s t) (h' : OutsideKept t u) : OutsideKept s u := by
  obtain ⟨a1, a2, a3, a4, a5, a6, a7, a8⟩ := h
  obtain ⟨b1, b2, b3, b4, b5, b6, b7, b8⟩ := h'
  exact ⟨b1.trans a1, b2.trans a2, b3.trans a3, b4.trans a4, b5.trans a5, b6.trans a6, b7.trans a7, b8.trans a8⟩

theorem steady_image : Steady ImageKept :=
  ⟨fun s => ⟨.refl s, rfl, rfl, rfl⟩, fun _ _ _ ⟨h, hc, hq, hh⟩ ⟨h', hc', hq', hh'⟩ =>
    ⟨h.trans h', hc'.trans hc, hq'.trans hq, hh'.trans hh⟩⟩

theorem imageKept_raiseError (e : ErrCode) (s : State) : ImageKept s (raiseError e s) := by
  cases e <;> exact steady_image.refl s

theorem CodingOnly.imageKept {s t : State} (h : CodingOnly s t) : ImageKept s t := by
  rw [h]
  exact steady_image.refl s

theorem RbOnly.imageKept {s t : State} (h : RbOnly s t) : ImageKept s t := by
  rw [h]
  exact steady_image.refl s

/-- However it ends, an operation inside FEED or FINISH keeps the image's configuration and tables. -/
abbrev Flow.KeepsImage (x : Flow) (s : State) : Prop := x.Frame ImageKept s

theorem Flow.Rows.keepsImage {x : Flow} {s : State} (h : x.Rows s) : x.KeepsImage s :=
  h.mono (fun _ ht => ht.1.imageKept) (fun _ hf => hf.elim) fun _ ht => ht

theorem Flow.Frame.keepsImage {x : Flow} {s : State} (h : x.Frame CodingOnly s) : x.KeepsImage s :=
  h.mono fun _ _ => CodingOnly.imageKept

/-- A step's next state keeps what its operations keep, where the report of a refused transfer keeps it too. -/
theorem Flow.Frame.next {A : State → State → Prop} {x : Flow} {s t : State} (h : x.Frame A s)
    (hA : ∀ u, A s u → A s (raiseError .sinkWriteFailure u)) (ht : x.toOutcome = .next t) : A s t := by
  rcases Flow.Ends.next h ht with h | ⟨u, hu, rfl, -⟩
  · exact h
  · exact hA u hu

theorem Flow.KeepsImage.next {x : Flow} {s t : State} (h : x.KeepsImage s) (ht : x.toOutcome = .next t) : ImageKept s t :=
  Flow.Frame.next h (fun u hu => steady_image.trans _ _ _ hu (imageKept_raiseError _ u)) ht

/-- An operation that codes leaves STATUS and `ROWS` alone, but for a refused transfer (R33, R404). -/
theorem Flow.Frame.status {x : Flow} {s t : State} (h : x.Frame CodingOnly s) (ht : x.toOutcome = .next t) :
    (t.ctl = s.ctl ∧ t.rows = s.rows ∧ t.result = s.result ∧ t.err = s.err) ∨ SinkFailed t := by
  rcases Flow.Ends.next h ht with hc | ⟨u, -, rfl, bytes, hlog⟩
  · rw [hc]
    exact .inl ⟨rfl, rfl, rfl, rfl⟩
  · exact .inr ⟨by simp, by simp, by simp, by simp, bytes, by rw [raiseError_sinkLog]; exact hlog⟩

theorem finishRow_keepsImage (s : State) : (finishRow s).KeepsImage s := by
  unfold finishRow
  split
  · exact (uopProcessMcuRow_frame s).keepsImage.bind steady_image fun t => steady_image.refl t
  · exact steady_image.refl s

theorem finishPartialRow_keepsImage (s : State) : (finishPartialRow s).KeepsImage s := by
  unfold finishPartialRow
  split
  · exact steady_image.refl s
  · refine (runAll_frame steady_image (fun op hop t => ?_) s).bind steady_image fun t => steady_image.refl t
    rcases List.mem_append.1 hop with hop | hop
    · obtain ⟨r, -, rfl⟩ := List.mem_map.1 hop
      exact (uopPadBottom_rows r t).keepsImage
    · rw [List.mem_singleton.1 hop]
      exact (uopProcessMcuRow_frame t).keepsImage

theorem cmdFeed_imageKept {s t : State} (ht : (cmdFeed s).toOutcome = .next t) : ImageKept s t := by
  unfold cmdFeed at ht
  split at ht
  · cases ht
    exact imageKept_raiseError _ s
  · refine Flow.KeepsImage.next (runAll_frame steady_image (fun op hop u => ?_) s) ht
    simp only [List.mem_cons, List.not_mem_nil, or_false] at hop
    rcases hop with rfl | rfl | rfl | rfl | rfl
    · exact (convertScanline_rows _ u).keepsImage
    · exact (uopPadRight_rows _ u).keepsImage
    · exact steady_image.refl u
    · exact finishRow_keepsImage u
    · exact steady_image.refl u

theorem cmdFinish_imageKept {s t : State} (ht : (cmdFinish s).toOutcome = .next t) : ImageKept s t := by
  unfold cmdFinish at ht
  split at ht
  · cases ht
    exact imageKept_raiseError _ s
  · refine Flow.KeepsImage.next (runAll_frame steady_image (fun op hop u => ?_) s) ht
    simp only [List.mem_cons, List.not_mem_nil, or_false] at hop
    rcases hop with rfl | rfl | rfl | rfl | rfl | rfl
    · exact finishPartialRow_keepsImage u
    · exact (appendBits_frame _ _ u).writer.keepsImage
    · exact (flushBuffer_frame u).writer.keepsImage
    · exact (rawBytes_frame _ u).writer.keepsImage
    · exact (flushBuffer_frame u).writer.keepsImage
    · exact steady_image.refl u

/-- INIT writes neither the registers nor the memories (R36, R340). -/
theorem cmdInit_kept {s t : State} (ht : (cmdInit s).toOutcome = .next t) : OutsideKept s t ∧ t.rb = s.rb := by
  have header : ∀ {c u}, WriterOnly (s.teardown.headerBuffered c) u → OutsideKept s u ∧ u.rb = s.rb := fun hw => by
    rw [hw]
    exact ⟨.refl s, rfl⟩
  rcases (cmdInit_ends s).next ht with ⟨c, u, -, hw, -, -, rfl⟩ | ⟨e, -, rfl⟩ | ⟨c, u, hw, -, rfl⟩
  · obtain ⟨h, hrb⟩ := header hw
    exact ⟨h.trans (.refl u), hrb⟩
  · exact ⟨(imageKept_raiseError e s.teardown).1, raiseError_rb e _⟩
  · obtain ⟨h, hrb⟩ := header hw
    exact ⟨h.trans (imageKept_raiseError _ u).1, (raiseError_rb _ u).trans hrb⟩

/-- Settles O18: per command, and per kind of unit operation. -/
theorem instructionsWriteOnlyTheirState : Obligations.InstructionsWriteOnlyTheirState := by
  intro i s t ht
  by_cases hi : i.isHostCommand = true
  · rcases eq_of_isHostCommand hi with rfl | rfl | rfl | rfl | rfl
    · cases ht
      simp
    · obtain ⟨hout, hrb⟩ := cmdInit_kept ht
      exact ⟨hout, by simp, by simp, by simp, fun _ _ => hrb, by simp, fun h => by cases h⟩
    · obtain ⟨hout, hconf, hqt, hhuff⟩ := cmdFeed_imageKept ht
      exact ⟨hout, fun _ => hconf, fun _ _ => hqt, fun _ _ => hhuff, by simp, by simp, fun h => by cases h⟩
    · obtain ⟨hout, hconf, hqt, hhuff⟩ := cmdFinish_imageKept ht
      exact ⟨hout, fun _ => hconf, fun _ _ => hqt, fun _ _ => hhuff, by simp, by simp, fun h => by cases h⟩
    · cases ht
      exact ⟨OutsideKept.refl s, fun _ => rfl, fun _ _ => rfl, fun _ _ => rfl, fun _ _ => rfl, fun _ _ => rfl, fun h => by cases h⟩
  · rcases uop_cases i (Bool.not_eq_true _ ▸ hi) s with ⟨x, hx, hf, -, hp⟩ | ⟨x, hx, hr, r, hrow⟩ | ⟨k, rfl⟩ | ⟨k, u, rfl⟩
    · rw [hx] at ht
      obtain ⟨hout, hconf, hqt, hhuff⟩ := hf.keepsImage.next ht
      have hrb : t.rb = s.rb := Flow.Frame.next (A := fun s t => t.rb = s.rb) (hf.mono fun _ _ h => by rw [h])
        (fun u hu => (raiseError_rb _ u).trans hu) ht
      exact ⟨hout, fun _ => hconf, fun _ _ => hqt, fun _ _ => hhuff, fun _ _ => hrb,
        fun hmcu henc => (hp (fun e => hmcu (by simp [e])) henc).next (fun u hu => (raiseError_pred _ u).trans hu) ht,
        fun _ => hf.status ht⟩
    · rw [hx] at ht
      have hk := (hr.next ht).resolve_right id
      obtain ⟨hout, hconf, hqt, hhuff⟩ := hk.1.imageKept
      refine ⟨hout, fun _ => hconf, fun _ _ => hqt, fun _ _ => hhuff, fun _ h => ?_, fun _ _ => ?_, fun _ => .inl ?_⟩
      · obtain ⟨h1, h2, h3, h4, h5, h6⟩ := h r
        rcases hrow with e | e | e | e | e | e
        · exact (h1 e).elim
        · exact (h2 e).elim
        · exact (h3 e).elim
        · exact (h4 e).elim
        · exact (h5 e).elim
        · exact (h6 e).elim
      · rw [hk.1]
      · rw [hk.1]
        exact ⟨rfl, rfl, rfl, rfl⟩
    · cases ht
      exact ⟨OutsideKept.refl s, fun _ => rfl, fun _ h => (h k rfl).elim, fun _ _ => rfl, fun _ _ => rfl, fun _ _ => rfl,
        fun _ => .inl ⟨rfl, rfl, rfl, rfl⟩⟩
    · cases ht
      exact ⟨OutsideKept.refl s, fun _ => rfl, fun _ _ => rfl, fun _ h => (h k u rfl).elim, fun _ _ => rfl, fun _ _ => rfl,
        fun _ => .inl ⟨rfl, rfl, rfl, rfl⟩⟩

/-! ### INIT and FEED -/

theorem headerBuffered_ob_ne_nil (s : State) (c : Conf) : (s.headerBuffered c).ob ≠ [] := by
  intro h
  have hl := headerBytes_length c
  rw [show headerBytes c = [] from h, List.length_nil] at hl
  split at hl <;> cases hl

theorem headerBuffered_nextAnswer (s : State) (c : Conf) : (s.teardown.headerBuffered c).nextAnswer = s.nextAnswer := rfl

/-- Taking the sink's answer and buffering the header are independent. -/
theorem headerBuffered_consumeAnswer (s : State) (c : Conf) :
    (s.teardown.headerBuffered c).consumeAnswer = s.consumeAnswer.teardown.headerBuffered c := by
  have h : (s.teardown.headerBuffered c).answers = s.answers := rfl
  unfold State.consumeAnswer
  rw [h]
  cases s.answers <;> rfl

/-- INIT with a configuration that passes its checks flushes the header, and so makes one transfer (R310, R340). -/
theorem cmdInit_eq {s : State} {c : Conf} (hv : validate s.teardown = .ok c) :
    cmdInit s = (flushBuffer (s.teardown.headerBuffered c)).bind fun t => .going (State.succeed { t with ctl := .configured }) := by
  unfold cmdInit
  rw [hv]
  exact initImage_eq (teardown_ob s)

/-- Settles O27: the header is flushed from the state that has built it. -/
theorem initBuildsTheTablesAndSendsTheHeader : Obligations.InitBuildsTheTablesAndSendsTheHeader := by
  intro s ch hw hh hc hq hq' hp
  simp only
  have hinit := cmdInit_eq (validate_ok (s := s.teardown) hw hh hc hq hq' hp)
  refine ⟨headerBytes_length _, fun ha => ?_, fun ha => ?_⟩
  all_goals
    show (cmdInit s).toOutcome = _
    rw [hinit, flushBuffer_eq, if_neg (headerBuffered_ob_ne_nil _ _), headerBuffered_nextAnswer, ha]
    unfold State.logTransfer
    rw [headerBuffered_consumeAnswer]
    rfl

/-- Settles O39: reset empties the buffer, O18 gives the frame, and FEED's conversion stops at the missing byte. -/
theorem unwrittenSourceBytesFault : Obligations.UnwrittenSourceBytesFault := by
  refine ⟨fun _ _ => rfl, fun i s t _ ht => ?_, fun s hctl hr hw hs => ?_⟩
  · obtain ⟨⟨-, -, -, hslb, -⟩, -⟩ := instructionsWriteOnlyTheirState i s t ht
    exact hslb
  · show (cmdFeed s).toOutcome = _
    rw [cmdFeed_eq (rejects_none hctl), runAll_cons, convertScanline_eq, convertRow_eq,
      if_pos ((hasSamples_iff _ _ _).2 ⟨hr, hw⟩), sourceBytes_none hs]
    rfl

end Sys2Proof.Machine
end

section
/-! PROOFS. Where the step takes its instruction from: decoding of an encoded word, and the step that runs it (O5). -/

namespace Sys2Proof.Machine

/-- Decoding undoes encoding, format by format (R121 to R124). -/
theorem decode_encode {i : Instr} (h : i.wellFormed = true) : decode (encode i) = .ok i := by
  cases i with
  | nop | init | feed | finish | deinit | fdct | padFinal | flush | emitSoi | emitApp0 | emitSof0 | emitSos | emitEoi
  | processMcuRow => rfl
  | convRgbY r | convRgbYcc r | convGrayY r | convGrayYcc r | padRight r | padBottom r =>
    simp only [decode, encode, Encode.u1_fields]
    rfl
  | loadFull c r x | loadH2v1 c x | loadH2v2 c x =>
    simp only [decode, encode, Encode.u1_fields]
    cases c <;> rfl
  | quantZz t | encAc t | buildQt t | emitDqt t =>
    simp only [decode, encode, Encode.u1_fields]
    cases t <;> rfl
  | encDc c t =>
    simp only [decode, encode, Encode.u1_fields]
    cases c <;> cases t <;> rfl
  | buildHt k t | emitDht k t =>
    simp only [decode, encode, Encode.u1_fields]
    cases k <;> cases t <;> rfl
  | putBits l v =>
    have hl : ¬ 16 < l.toNat := Nat.not_lt.2 (of_decide_eq_true h)
    obtain ⟨hop, hz, hl', hv⟩ := Encode.u2_fields l v
    simp only [decode, encode, Decode.fields, Decode.bitAppend, hop, hz, hl', hv, if_neg hl]
    rfl
  | outByte b =>
    obtain ⟨hop, hz, hb⟩ := Encode.u3_fields b
    simp only [decode, encode, Decode.fields, Decode.byteAppend, hop, hz, hb]
    rfl

/-- Bit 31 of a word is 0 exactly for the host commands (R126, R127). -/
theorem encode_msb (i : Instr) : (encode i).msb = !i.isHostCommand := by
  cases i with
  | nop | init | feed | finish | deinit | fdct | padFinal | flush | emitSoi | emitApp0 | emitSof0 | emitSos | emitEoi
  | processMcuRow => exact Laws.CommandWord.bare_msb _
  | convRgbY | convRgbYcc | convGrayY | convGrayYcc | padRight | padBottom | loadFull | loadH2v1 | loadH2v2 | quantZz
  | encAc | buildQt | emitDqt | encDc | buildHt | emitDht => exact Laws.CommandWord.u1_msb _ _ _ _ _ _
  | putBits l v => exact Laws.CommandWord.putBits l v
  | outByte b => exact Laws.CommandWord.outByte b

/-- Where an encoded instruction is placed: a host command in front of the inputs, a uop at the issue port. -/
theorem withFetchWord_encode (s : State) (i : Instr) :
    s.withFetchWord 32 (encode i).toNat = if i.isHostCommand then
        { s with issue := none, inputs := .access (.write .word 0#19 (encode i)) :: s.inputs }
      else { s with issue := some (encode i) } := by
  have hw : BitVec.ofNat 32 ((encode i).toNat % 2 ^ 32) = encode i := by
    rw [Nat.mod_eq_of_lt (encode i).isLt, BitVec.ofNat_toNat, BitVec.setWidth_eq]
  unfold State.withFetchWord
  simp only [hw, encode_msb]
  cases i.isHostCommand <;> rfl

/-- A uop word at the issue port runs (R127). -/
theorem step_issued {s : State} {w : Word} {i : Instr} (hs : s.issue = some w) (hw : decode w = .ok i) :
    step s = exec i { s with issue := none } := by
  unfold step
  simp only [hs, runIssued, hw]

/-- A host command runs when its word is written to CMD (R32, R126). -/
theorem step_command {s : State} {w : Word} {i : Instr} {rest : List Input} (hs : s.issue = none)
    (hi : s.inputs = .access (.write .word 0x000#19 w) :: rest) (hw : decode w = .ok i) (hh : i.isHostCommand = true) :
    step s = exec i { s with inputs := rest } := by
  have hc : commandOf w = some i := by simp only [commandOf, hw, hh, if_true]
  unfold step
  simp only [hs, hi, runInput, write_register (addr := 0x000#19) w (by decide) (by decide)]
  simp only [csrWrite, BitVec.toNat_zero, if_true, issueCommand, hc]

/-- Settles O5: decoding undoes encoding, and bit 31 says which port the word stands at. -/
theorem stepRunsTheDecodedInstruction : Obligations.StepRunsTheDecodedInstruction := by
  refine ⟨fun s w i => step_issued, fun s w i rest => step_command, fun s i hwf => ?_⟩
  rw [withFetchWord_encode]
  split
  · exact step_command rfl rfl (decode_encode hwf) ‹_›
  · exact step_issued rfl (decode_encode hwf)

end Sys2Proof.Machine
end

section
/-! PROOFS. The bytes of the scanline buffer as the host reads and writes them, accesses done twice, and the input a step
serves (O6, O10, O12). -/

namespace Sys2Proof.Machine

/-! ### A memory as the bytes it lists -/

namespace Memory

/-- A memory in canonical form reads exactly the bytes it lists. -/
theorem read_eq_some_iff {m : Memory} (h : Memory.wf m) (a : Nat) (v : Byte) : Memory.read m a = some v ↔ (a, v) ∈ m := by
  induction m with
  | nil => simp [read]
  | cons p rest ih =>
    obtain ⟨k, u⟩ := p
    obtain ⟨hk, hr⟩ := List.pairwise_cons.1 h
    by_cases hka : k = a
    · subst hka
      have hnot : (k, v) ∉ rest := fun hm => Nat.lt_irrefl k (hk _ hm)
      simp [read, hnot, eq_comm]
    · simp [read, hka, Ne.symm hka, ih hr]

/-- Memories in canonical form that read alike are the same. -/
theorem ext_read {m m' : Memory} (h : Memory.wf m) (h' : Memory.wf m') (heq : ∀ a, Memory.read m a = Memory.read m' a) :
    m = m' := by
  have hirr : Std.Irrefl fun p q : Host.Cell => p.1 < q.1 := ⟨fun p => Nat.lt_irrefl p.1⟩
  have hanti : Std.Antisymm fun p q : Host.Cell => p.1 < q.1 := ⟨fun _ _ hpq hqp => (Nat.lt_asymm hpq hqp).elim⟩
  refine h.eq_of_mem_iff h' fun ⟨a, v⟩ => ?_
  rw [← read_eq_some_iff h, ← read_eq_some_iff h', heq]

/-- Writing the same bytes again changes nothing. -/
theorem writeRange_twice {m : Memory} (h : Memory.wf m) (a : Nat) (bs : List Byte) :
    Memory.writeRange (Memory.writeRange m a bs) a bs = Memory.writeRange m a bs := by
  have hwf := writeRange_wf bs a h
  refine ext_read (writeRange_wf bs a hwf) hwf fun x => ?_
  simp only [read_writeRange]
  split <;> rfl

end Memory

/-! ### Little-endian order (R83, R84) -/

theorem wordBytes_length (v : Word) (n : Nat) : (wordBytes v n).length = n := by simp [wordBytes]

/-- Byte `b` of a written word is bits `8b` to `8b+7`. -/
theorem getElem?_wordBytes (v : Word) {n b : Nat} (h : b < n) : (wordBytes v n)[b]? = some (v.extractLsb' (8 * b) 8) := by
  simp [wordBytes, h]

/-- Bit `i` of byte `b` of what a read gathers is bit `i` of `SLB[j+b]`. -/
theorem slbRead_testBit (s : State) (n : Nat) : ∀ (j b i : Nat), i < 8 →
    (slbRead s j n).testBit (8 * b + i) = (decide (b < n) && (s.slbByte (j + b)).getLsbD i) := by
  induction n with
  | zero => intro j b i _; simp [slbRead]
  | succ n ih =>
    intro j b i hi
    rw [slbRead, Nat.add_comm, Nat.testBit_two_pow_mul_add (i := 8) _ (s.slbByte j).isLt]
    cases b with
    | zero => simp [hi, BitVec.getLsbD]
    | succ b =>
      have hsub : 8 * (b + 1) + i - 8 = 8 * b + i := by omega
      rw [if_neg (by omega), hsub, ih (j + 1) b i hi, Nat.add_assoc j, Nat.add_comm 1 b]
      simp

theorem Width.bytes_le (n : Width) : n.bytes ≤ 4 := by cases n <;> decide

theorem Width.bytes_pos (n : Width) : 0 < n.bytes := by cases n <;> decide

/-- An aligned access with all of its bytes in the window of the scanline buffer goes to the buffer (R82, R83). -/
theorem target_slb_inside {cfg : Config} {n : Width} {addr : BitVec 19} (ha : addr.toNat % n.bytes = 0)
    (hlo : slbBase ≤ addr.toNat) (hhi : addr.toNat + n.bytes ≤ slbBase + slbSize cfg) :
    target cfg n addr = .ok (.slb (addr.toNat - slbBase)) := by
  have hpos := n.bytes_pos
  rw [target_slb ha hlo (by omega), if_pos hhi]

/-- Settles O10: a byte written is the word's byte at its place, and a read gathers the bytes in the same order. -/
theorem scanlineBufferAccessesAreLittleEndian : Obligations.ScanlineBufferAccessesAreLittleEndian := by
  intro s n addr v ha hlo hhi
  have ht := target_slb_inside (cfg := s.cfg) ha hlo hhi
  refine ⟨⟨_, write_runs v ht, rfl, fun j => ?_⟩, _, read_answers ht, fun b i hi => ?_⟩
  · show Memory.read (Memory.writeRange s.slb (addr.toNat - 0x40000) (wordBytes v n.bytes)) j = _
    rw [Memory.read_writeRange, wordBytes_length]
    by_cases hj : addr.toNat - 0x40000 ≤ j ∧ j < addr.toNat - 0x40000 + n.bytes
    · rw [if_pos hj, if_pos hj, getElem?_wordBytes v (by omega)]
    · rw [if_neg hj, if_neg hj]
  · have hfit : b < n.bytes → 8 * b + i < 32 := fun hb => by have := n.bytes_le; omega
    show (BitVec.ofNat 32 (slbRead s (addr.toNat - 0x40000) n.bytes)).getLsbD (8 * b + i) = _
    rw [BitVec.getLsbD_ofNat, slbRead_testBit s _ _ b i hi]
    by_cases hb : b < n.bytes
    · simp [hfit hb]
    · simp [hb]

/-! ### The same access twice (R93) -/

/-- An access that goes to a register goes to the one at its own offset (R83). -/
theorem register_target_offset {cfg : Config} {n : Width} {addr : BitVec 19} {offset : Nat}
    (h : target cfg n addr = .ok (.register offset)) : offset = addr.toNat := by
  unfold target at h
  simp only at h
  split at h
  · cases h
  · split at h
    · cases n <;> cases h
      rfl
    · split at h
      · split at h <;> cases h
      · cases h

/-- A register write that issues no command, done twice, is done once (R33 to R35). -/
theorem csrWrite_twice {offset : Nat} (h : offset ≠ 0x000) {v : Word} {s t : State} (ht : csrWrite offset v s = .next t) :
    t.cfg = s.cfg ∧ csrWrite offset v t = .next t := by
  by_cases h8 : offset = 0x008
  · subst h8; cases ht; exact ⟨rfl, rfl⟩
  · by_cases hC : offset = 0x00C
    · subst hC; cases ht; exact ⟨rfl, rfl⟩
    · unfold csrWrite at ht ⊢
      rw [if_neg h, if_neg h8, if_neg hC] at ht ⊢
      cases ht
      exact ⟨rfl, rfl⟩

/-- A write that issues no command, done twice, is done once. -/
theorem writeValue_twice {n : Width} {v : Word} {s t : State} {dest : Target} (hwf : Memory.wf s.slb)
    (hdest : dest ≠ .register 0x000) (ht : writeValue n v s dest = .next t) : t.cfg = s.cfg ∧ writeValue n v t dest = .next t := by
  cases dest with
  | register offset => exact csrWrite_twice (fun h => hdest (h ▸ rfl)) ht
  | slb j =>
    cases ht
    refine ⟨rfl, ?_⟩
    simp only [writeValue]
    rw [Memory.writeRange_twice hwf]
  | reserved => cases ht; exact ⟨rfl, rfl⟩

/-- Settles O12: a read only records its answer, and a write repeated finds its target as it left it. -/
theorem accessesButCommandsAreIdempotent : Obligations.AccessesButCommandsAreIdempotent := by
  intro s t n addr v hwf
  refine ⟨fun ht => ?_, fun hcmd ht => ?_⟩
  · cases hdest : target s.cfg n addr with
    | error why => rw [read_refused hdest] at ht; cases ht
    | ok dest => rw [read_answers hdest] at ht; cases ht; rfl
  · cases hdest : target s.cfg n addr with
    | error why => rw [write_refused v hdest] at ht; cases ht
    | ok dest =>
      rw [write_runs v hdest] at ht
      have hreg : dest ≠ .register 0x000 := fun h => hcmd (register_target_offset (h ▸ hdest)).symm
      obtain ⟨hcfg, hagain⟩ := writeValue_twice hwf hreg ht
      rw [write_runs v (by rw [hcfg]; exact hdest), hagain]

/-! ### The input a step serves (R94) -/

theorem step_input {s : State} {i : Input} {rest : List Input} (hs : s.issue = none) (hi : s.inputs = i :: rest) :
    step s = runInput i { s with inputs := rest } := by
  unfold step
  simp only [hs, hi]

theorem step_idle {s : State} (hs : s.issue = none) (hi : s.inputs = []) : step s = .next s := by
  unfold step
  simp only [hs, hi]

/-- Settles O6: the first input is served, and without one nothing happens. -/
theorem stepServesTheNextInputElseWaits : Obligations.StepServesTheNextInputElseWaits :=
  fun _ hs => ⟨fun _ _ => step_input hs, fun _ => step_input hs, step_idle hs⟩

end Sys2Proof.Machine
end

section
/-! PROOFS. The transfers an instruction makes: their sizes, and that a refused one is the last (O20). -/

namespace Sys2Proof.Machine

/-- `SinkPut` is called with 1 to 2048 bytes (R90). -/
def Transfer.Bounded (x : Transfer) : Prop := 1 ≤ x.bytes.length ∧ x.bytes.length ≤ obSize

/-- From `s` to `t` every transfer was accepted, and the buffer has room. -/
structure Sending (s t : State) : Prop where
  sent : ∃ sent, t.sinkLog = s.sinkLog ++ sent ∧ ∀ x ∈ sent, x.ok = true ∧ x.Bounded
  room : t.ob.length < obSize

/-- An error was raised: outside the sink, by a check, or by the refusal of one more transfer, the last (R404). -/
def SendingEnded (s t : State) : Prop :=
  ∃ u, Sending s u ∧ (t.sinkLog = u.sinkLog ∨
    SinkFailed t ∧ ∃ bytes, t.sinkLog = u.sinkLog ++ [⟨bytes, false⟩] ∧ Transfer.Bounded ⟨bytes, false⟩)

/-- Nothing was sent or buffered. -/
theorem Sending.of_quiet {s t : State} (hlog : t.sinkLog = s.sinkLog) (hroom : t.ob.length < obSize) : Sending s t :=
  ⟨⟨[], by rw [hlog, List.append_nil], fun _ hx => absurd hx List.not_mem_nil⟩, hroom⟩

theorem Sending.trans {s t u : State} (h : Sending s t) (h' : Sending t u) : Sending s u := by
  obtain ⟨⟨a, ha, ha'⟩, -⟩ := h
  obtain ⟨⟨b, hb, hb'⟩, hroom⟩ := h'
  exact ⟨⟨a ++ b, by rw [hb, ha, List.append_assoc], fun x hx => (List.mem_append.1 hx).elim (ha' x) (hb' x)⟩, hroom⟩

/-- Full transfers are bounded ones. -/
theorem Sending.of_full {s t : State} (h : FullTransfers s t) (hroom : t.ob.length < obSize) : Sending s t := by
  obtain ⟨sent, hlog, hfull⟩ := h
  exact ⟨⟨sent, hlog, fun x hx => ⟨(hfull x hx).1, by simp [Transfer.Bounded, (hfull x hx).2, obSize]⟩⟩, hroom⟩

/-- An error that a check raises. -/
theorem SendingEnded.of_error {s t : State} (e : ErrCode) (h : Sending s t) : SendingEnded s (raiseError e t) :=
  ⟨t, h, .inl (raiseError_sinkLog e t)⟩

/-- A refused transfer, after accepted ones. -/
theorem SendingEnded.of_refusal {s u v : State} {bytes : List Byte} (h : Sending s u)
    (hlog : v.sinkLog = u.sinkLog ++ [⟨bytes, false⟩]) (hb : Transfer.Bounded ⟨bytes, false⟩) :
    SendingEnded s (raiseError .sinkWriteFailure v) := by
  refine ⟨u, h, .inr ⟨⟨by simp, by simp, by simp, by simp, bytes, ?_⟩, bytes, ?_, hb⟩⟩
  · rw [raiseError_sinkLog, hlog, List.getLast?_concat]
  · rw [raiseError_sinkLog, hlog]

/-- An operation whose transfers are bounded, and end at the first refused one. -/
def Flow.Sends (x : Flow) (s : State) : Prop := x.Ends (Sending s) (SendingEnded s) fun _ => True

theorem Flow.Sends.after {x : Flow} {s t : State} (hx : x.Sends t) (h : Sending s t) : x.Sends s :=
  Flow.Ends.mono hx (fun _ hu => h.trans hu) (fun _ ⟨u, hu, he⟩ => ⟨u, h.trans hu, he⟩) fun _ hf => hf

theorem Flow.Sends.bind {x : Flow} {f : State → Flow} {s : State} (hx : x.Sends s)
    (hf : ∀ t, t.ob.length < obSize → (f t).Sends t) : (x.bind f).Sends s :=
  Flow.Ends.bind hx fun t ht => (hf t ht.room).after ht

theorem runAll_sends {ops : List (State → Flow)} (h : ∀ op ∈ ops, ∀ t, t.ob.length < obSize → (op t).Sends t) {s : State}
    (hs : s.ob.length < obSize) : (runAll ops s).Sends s :=
  runAll_ends ops (fun op hop t ht => (h op hop t ht.room).after ht) s (.of_quiet rfl hs)

/-! ### Every operation -/

/-- A change of state that neither sends nor buffers. -/
theorem going_sends {s t : State} (hs : s.ob.length < obSize) (hlog : t.sinkLog = s.sinkLog) (hob : t.ob = s.ob) :
    (Flow.going t).Sends s :=
  Sending.of_quiet hlog (hob ▸ hs)

/-- Coding makes full transfers only, a refused one too (R274). -/
theorem Flow.Codes.sends {x : Flow} {s : State} (h : x.Codes s) (hs : s.ob.length < obSize) : x.Sends s := by
  refine h.mono (fun t ht => .of_full ht.sent ht.room) (fun t ht => ?_) fun _ hf => hf
  obtain ⟨u, -, rfl, sent, bytes, hlog, hsent, hlen, -⟩ := ht
  have hacc : Sending s { s with sinkLog := s.sinkLog ++ sent } := .of_full ⟨sent, rfl, hsent⟩ hs
  exact .of_refusal hacc hlog (by simp [Transfer.Bounded, hlen, obSize])

theorem Flow.Rows.sends {x : Flow} {s : State} (h : x.Rows s) (hs : s.ob.length < obSize) : x.Sends s :=
  h.mono (fun t ht => .of_quiet (by rw [ht.1]) (by rw [ht.1]; exact hs)) (fun _ hf => hf.elim) fun _ hf => hf

/-- A flush sends what is in the buffer, if anything (R276). -/
theorem flushBuffer_sends {s : State} (hs : s.ob.length < obSize) : (flushBuffer s).Sends s := by
  have bounded : ∀ ok, s.ob ≠ [] → Transfer.Bounded ⟨s.ob, ok⟩ := fun _ hne =>
    ⟨List.length_pos_iff.2 hne, Nat.le_of_lt hs⟩
  refine (flushBuffer_ends s).mono (fun t ⟨_, _, hob, _, _, hlog⟩ => ?_) (fun t ht => ?_) fun _ _ => trivial
  · refine ⟨⟨_, hlog, fun x hx => ?_⟩, by simp [hob, obSize]⟩
    split at hx
    · exact absurd hx List.not_mem_nil
    · rw [List.mem_singleton.1 hx]
      exact ⟨rfl, bounded true ‹_›⟩
  · obtain ⟨u, -, rfl, -, hne, -, hlog⟩ := ht
    exact .of_refusal (.of_quiet rfl hs) hlog (bounded false hne)

/-- Every unit operation sends bounded transfers, and none after a refused one. -/
theorem uop_sends (i : Instr) (hi : i.isHostCommand = false) {s : State} (hs : s.ob.length < obSize) :
    ∃ x : Flow, exec i s = x.toOutcome ∧ x.Sends s := by
  cases i with
  | nop | init | feed | finish | deinit => cases hi
  | convRgbY r => exact ⟨_, rfl, by rw [uopConvRgbY_eq]; exact (convertRow_rows _ .three _ _).sends hs⟩
  | convRgbYcc r => exact ⟨_, rfl, by rw [uopConvRgbYcc_eq]; exact (convertRow_rows _ .three _ _).sends hs⟩
  | convGrayY r => exact ⟨_, rfl, by rw [uopConvGrayY_eq]; exact (convertRow_rows _ .one _ _).sends hs⟩
  | convGrayYcc r => exact ⟨_, rfl, by rw [uopConvGrayYcc_eq]; exact (convertRow_rows _ .one _ _).sends hs⟩
  | padRight r => exact ⟨_, rfl, (uopPadRight_rows _ s).sends hs⟩
  | padBottom r => exact ⟨_, rfl, (uopPadBottom_rows _ s).sends hs⟩
  | loadFull c r x => exact ⟨_, rfl, (load_codes (.full c r.toNat x.toNat) hs).sends hs⟩
  | loadH2v1 c x => exact ⟨_, rfl, (load_codes (.h2v1 c x.toNat) hs).sends hs⟩
  | loadH2v2 c x => exact ⟨_, rfl, (load_codes (.h2v2 c x.toNat) hs).sends hs⟩
  | fdct => exact ⟨_, rfl, (uopFdct_codes hs).sends hs⟩
  | quantZz t => exact ⟨_, rfl, (uopQuantZz_codes t hs).sends hs⟩
  | encDc c t => exact ⟨_, rfl, (uopEncDc_codes c t hs).sends hs⟩
  | encAc t => exact ⟨_, rfl, (uopEncAc_codes t hs).sends hs⟩
  | putBits | padFinal => exact ⟨_, rfl, (appendBits_codes _ _ hs).sends hs⟩
  | flush => exact ⟨_, rfl, flushBuffer_sends hs⟩
  | outByte b => exact ⟨_, rfl, (obAppend_codes b hs).sends hs⟩
  | buildQt t => exact ⟨uopBuildQt t s, rfl, going_sends hs rfl rfl⟩
  | buildHt k t => exact ⟨uopBuildHt k t s, rfl, going_sends hs rfl rfl⟩
  | emitSoi | emitApp0 | emitDqt | emitSof0 | emitDht | emitSos | emitEoi => exact ⟨_, rfl, (rawBytes_codes _ hs).sends hs⟩
  | processMcuRow => exact ⟨_, rfl, (uopProcessMcuRow_codes hs).sends hs⟩

/-! ### Every command -/

theorem finishRow_sends {s : State} (hs : s.ob.length < obSize) : (finishRow s).Sends s := by
  unfold finishRow
  split
  · exact ((uopProcessMcuRow_codes hs).sends hs).bind fun t ht => going_sends ht rfl rfl
  · exact going_sends hs rfl rfl

theorem finishPartialRow_sends {s : State} (hs : s.ob.length < obSize) : (finishPartialRow s).Sends s := by
  unfold finishPartialRow
  split
  · exact going_sends hs rfl rfl
  · refine (runAll_sends (fun op hop t ht => ?_) hs).bind fun t ht => going_sends ht rfl rfl
    rcases List.mem_append.1 hop with hop | hop
    · obtain ⟨r, -, rfl⟩ := List.mem_map.1 hop
      exact (uopPadBottom_rows r t).sends ht
    · rw [List.mem_singleton.1 hop]
      exact (uopProcessMcuRow_codes ht).sends ht

/-- INIT sends the header in one transfer, if its checks pass (R340). -/
theorem cmdInit_sends (s : State) : (cmdInit s).Sends s := by
  cases hv : validate s.teardown with
  | error e =>
    unfold cmdInit
    rw [hv]
    exact SendingEnded.of_error e (.of_quiet rfl (Nat.succ_pos 2047))
  | ok c =>
    have hfits : (s.teardown.headerBuffered c).ob.length < obSize := by
      show (headerBytes c).length < obSize
      rw [headerBytes_length]
      split <;> decide
    rw [cmdInit_eq hv]
    have hflush : (flushBuffer (s.teardown.headerBuffered c)).Sends s := (flushBuffer_sends hfits).after (.of_quiet rfl hfits)
    exact hflush.bind fun t ht => going_sends ht rfl rfl

theorem cmdFeed_sends {s : State} (hs : s.ob.length < obSize) : (cmdFeed s).Sends s := by
  unfold cmdFeed
  split
  · exact SendingEnded.of_error _ (.of_quiet rfl hs)
  · refine runAll_sends (fun op hop t ht => ?_) hs
    simp only [List.mem_cons, List.not_mem_nil, or_false] at hop
    rcases hop with rfl | rfl | rfl | rfl | rfl
    · exact (convertScanline_rows _ t).sends ht
    · exact (uopPadRight_rows _ t).sends ht
    · exact going_sends ht rfl rfl
    · exact finishRow_sends ht
    · exact going_sends ht rfl rfl

theorem cmdFinish_sends {s : State} (hs : s.ob.length < obSize) : (cmdFinish s).Sends s := by
  unfold cmdFinish
  split
  · exact SendingEnded.of_error _ (.of_quiet rfl hs)
  · refine runAll_sends (fun op hop t ht => ?_) hs
    simp only [List.mem_cons, List.not_mem_nil, or_false] at hop
    rcases hop with rfl | rfl | rfl | rfl | rfl | rfl
    · exact finishPartialRow_sends ht
    · exact (appendBits_codes _ _ ht).sends ht
    · exact flushBuffer_sends ht
    · exact (rawBytes_codes _ ht).sends ht
    · exact flushBuffer_sends ht
    · exact going_sends ht rfl rfl

/-- Every instruction sends bounded transfers, and none after a refused one. -/
theorem exec_sends (i : Instr) {s : State} (hs : s.ob.length < obSize) : ∃ x : Flow, exec i s = x.toOutcome ∧ x.Sends s := by
  by_cases hi : i.isHostCommand = true
  · rcases eq_of_isHostCommand hi with rfl | rfl | rfl | rfl | rfl
    · exact ⟨.going s, rfl, going_sends hs rfl rfl⟩
    · exact ⟨_, rfl, cmdInit_sends s⟩
    · exact ⟨_, rfl, cmdFeed_sends hs⟩
    · exact ⟨_, rfl, cmdFinish_sends hs⟩
    · exact ⟨.going s.teardown.succeed, rfl, Sending.of_quiet rfl (Nat.succ_pos 2047)⟩
  · exact uop_sends i (Bool.not_eq_true _ ▸ hi) hs

/-- What O20 says of the transfers made from `s` to `t`. -/
def TransfersStopAtARefusal (s t : State) : Prop :=
  ∃ sent : List Transfer, t.sinkLog = s.sinkLog ++ sent ∧ (∀ x ∈ sent, x.Bounded) ∧ (∀ x ∈ sent.dropLast, x.ok = true) ∧
    (∀ x, sent.getLast? = some x → x.ok = false → t.ctl = .failed ∧ t.rows = 0 ∧ t.result = false ∧ t.err = .sinkWriteFailure)

theorem Sending.stops {s u t : State} (h : Sending s u) (hlog : t.sinkLog = u.sinkLog) : TransfersStopAtARefusal s t := by
  obtain ⟨⟨sent, hsent, hx⟩, -⟩ := h
  refine ⟨sent, hlog.trans hsent, fun x h => (hx x h).2, fun x h => (hx x (List.mem_of_mem_dropLast h)).1, fun x h hno => ?_⟩
  rw [(hx x (List.mem_of_getLast? h)).1] at hno
  cases hno

theorem SendingEnded.stops {s t : State} (h : SendingEnded s t) : TransfersStopAtARefusal s t := by
  obtain ⟨u, hu, hlog | ⟨⟨hctl, hrows, hres, herr, -⟩, bytes, hlog, hb⟩⟩ := h
  · exact hu.stops hlog
  · obtain ⟨⟨sent, hsent, hx⟩, -⟩ := hu
    refine ⟨sent ++ [⟨bytes, false⟩], by rw [hlog, hsent, List.append_assoc], fun x h => ?_, fun x h => ?_,
      fun _ _ _ => ⟨hctl, hrows, hres, herr⟩⟩
    · rcases List.mem_append.1 h with h | h
      · exact (hx x h).2
      · rw [List.mem_singleton.1 h]; exact hb
    · rw [List.dropLast_concat] at h
      exact (hx x h).1

/-- Settles O20: accepted transfers are bounded, and a refused one ends the instruction. -/
theorem transfersAreBoundedAndStopAtARefusal : Obligations.TransfersAreBoundedAndStopAtARefusal := by
  intro i s t hs ht
  obtain ⟨x, hx, hsends⟩ := exec_sends i hs
  rw [hx] at ht
  exact (Flow.Ends.next hsends ht).elim (fun h => h.stops rfl) SendingEnded.stops

end Sys2Proof.Machine
end

section
/-! PROOFS. Words and instructions are one to one: decoding undoes encoding and encoding undoes decoding, reserved words decode
to nothing, and every word but the five commands is an illegal command (O1 to O4, O13). -/

namespace Sys2Proof

/-- `w` is the word of the well-formed instruction `i`. -/
def IsWordOf (w : Word) (i : Instr) : Prop := i.wellFormed = true ∧ encode i = w

theorem IsWordOf.of_eq {v w : Word} {i : Instr} (hi : IsWordOf v i) (h : v = w) : IsWordOf w i := h ▸ hi

namespace Decode

/-! ### What decodes is the word of what it decodes to, format by format -/

section
variable {w : Word} {op : BitVec 8} {j : Instr} (ho : w.extractLsb' 24 8 = op)
include ho

theorem bare_isWordOf {i : Instr} (hi : IsWordOf (Encode.bare op) i) (h : bare w i = .ok j) : IsWordOf w j := by
  obtain ⟨rfl, rfl⟩ := bare_ok ho h
  exact hi

theorem rowOnly_isWordOf {i : BitVec 4 → Instr} (hi : ∀ r, IsWordOf (Encode.u1 op 0 0 0 r 0) (i r))
    (h : rowOnly (fields w) i = .ok j) : IsWordOf w j := by
  obtain ⟨r, rfl, rfl⟩ := rowOnly_ok ho h
  exact hi r

theorem tableOnly_isWordOf {i : TableId → Instr} (hi : ∀ t, IsWordOf (Encode.u1 op 0 0 (Encode.tableId t) 0 0) (i t))
    (h : tableOnly (fields w) i = .ok j) : IsWordOf w j := by
  obtain ⟨t, rfl, rfl⟩ := tableOnly_ok ho h
  exact hi t

theorem classTable_isWordOf {i : HuffClass → TableId → Instr}
    (hi : ∀ k t, IsWordOf (Encode.u1 op 0 (Encode.huffClass k) (Encode.tableId t) 0 0) (i k t))
    (h : classTable (fields w) i = .ok j) : IsWordOf w j := by
  obtain ⟨k, t, rfl, rfl⟩ := classTable_ok ho h
  exact hi k t

/-- LOAD_FULL's form: `C`, `R` and `X` are used. -/
theorem compRowColumn_isWordOf {i : Comp → BitVec 4 → BitVec 16 → Instr}
    (hi : ∀ c r x, IsWordOf (Encode.u1 op (Encode.comp c) 0 0 r x) (i c r x))
    (h : withComp ((fields w).k = 0#1 && (fields w).t = 0#1) (fields w).c (i · (fields w).r (fields w).x) = .ok j) :
    IsWordOf w j := by
  obtain ⟨c, hc, hz, rfl⟩ := withComp_ok h
  simp only [Bool.and_eq_true, decide_eq_true_eq] at hz
  obtain ⟨hk, ht⟩ := hz
  exact (hi _ _ _).of_eq (u1_ok ho hc.symm hk ht rfl rfl)

/-- The form of LOAD_H2V1 and LOAD_H2V2: `C` and `X` are used. -/
theorem compColumn_isWordOf {i : Comp → BitVec 16 → Instr}
    (hi : ∀ c x, IsWordOf (Encode.u1 op (Encode.comp c) 0 0 0 x) (i c x))
    (h : withComp ((fields w).k = 0#1 && (fields w).t = 0#1 && (fields w).r = 0#4) (fields w).c (i · (fields w).x) = .ok j) :
    IsWordOf w j := by
  obtain ⟨c, hc, hz, rfl⟩ := withComp_ok h
  simp only [Bool.and_eq_true, decide_eq_true_eq] at hz
  obtain ⟨⟨hk, ht⟩, hr⟩ := hz
  exact (hi _ _).of_eq (u1_ok ho hc.symm hk ht hr rfl)

/-- ENC_DC's form: `C` and `T` are used. -/
theorem compTable_isWordOf {i : Comp → TableId → Instr}
    (hi : ∀ c t, IsWordOf (Encode.u1 op (Encode.comp c) 0 (Encode.tableId t) 0 0) (i c t))
    (h : withComp ((fields w).k = 0#1 && (fields w).r = 0#4 && (fields w).x = 0#16) (fields w).c
      (i · (tableId (fields w).t)) = .ok j) : IsWordOf w j := by
  obtain ⟨c, hc, hz, rfl⟩ := withComp_ok h
  simp only [Bool.and_eq_true, decide_eq_true_eq] at hz
  obtain ⟨⟨hk, hr⟩, hx⟩ := hz
  exact (hi _ _).of_eq (u1_ok ho hc.symm hk (Encode.tableId_tableId _).symm hr hx)

end

section
variable {w : Word} {j : Instr}

theorem bitAppend_isWordOf (ho : w.extractLsb' 24 8 = 0x8D#8) (h : bitAppend w = .ok j) : IsWordOf w j := by
  obtain ⟨l, v, hl, rfl, rfl⟩ := bitAppend_ok ho h
  exact ⟨decide_eq_true hl, rfl⟩

theorem byteAppend_isWordOf (ho : w.extractLsb' 24 8 = 0x90#8) (h : byteAppend w = .ok j) : IsWordOf w j := by
  obtain ⟨b, rfl, rfl⟩ := byteAppend_ok ho h
  exact ⟨rfl, rfl⟩

end

/-! ### Reserved field values (R121, R123, R129) -/

theorem bare_error {w : Word} (i : Instr) (h : w.extractLsb' 0 24 ≠ 0#24) : bare w i = .error .nonZeroUnusedField :=
  if_neg (mt of_decide_eq_true h)

theorem withComp_error {c : BitVec 2} (b : Bool) (i : Comp → Instr) (h : c = 3#2) :
    withComp b c i = .error .reservedComponent := by
  subst h
  rfl

theorem bitAppend_error {w : Word} (h : 16 < (w.extractLsb' 16 5).toNat) : bitAppend w = .error .reservedLength :=
  if_pos h

end Decode

namespace Machine

/-- A word that decodes is the word of what it decodes to: per row of `decode` (case `h_n` is its row `n`), by the row's format
(R121 to R127). -/
theorem isWordOf_of_decode {w : Word} {i : Instr} (h : decode w = .ok i) : IsWordOf w i := by
  unfold decode at h
  dsimp only at h
  split at h
  case h_1 ho | h_2 ho | h_3 ho | h_4 ho | h_5 ho | h_15 ho | h_20 ho | h_21 ho | h_25 ho | h_26 ho | h_28 ho |
    h_30 ho | h_31 ho | h_32 ho =>
    exact Decode.bare_isWordOf (Decode.opcode_eq ho) ⟨rfl, rfl⟩ h
  case h_6 ho | h_7 ho | h_8 ho | h_9 ho | h_10 ho | h_11 ho =>
    exact Decode.rowOnly_isWordOf (Decode.opcode_eq ho) (fun _ => ⟨rfl, rfl⟩) h
  case h_12 ho =>
    exact Decode.compRowColumn_isWordOf (Decode.opcode_eq ho) (fun _ _ _ => ⟨rfl, rfl⟩) h
  case h_13 ho | h_14 ho =>
    exact Decode.compColumn_isWordOf (Decode.opcode_eq ho) (fun _ _ => ⟨rfl, rfl⟩) h
  case h_17 ho =>
    exact Decode.compTable_isWordOf (Decode.opcode_eq ho) (fun _ _ => ⟨rfl, rfl⟩) h
  case h_16 ho | h_18 ho | h_23 ho | h_27 ho =>
    exact Decode.tableOnly_isWordOf (Decode.opcode_eq ho) (fun _ => ⟨rfl, rfl⟩) h
  case h_24 ho | h_29 ho =>
    exact Decode.classTable_isWordOf (Decode.opcode_eq ho) (fun _ _ => ⟨rfl, rfl⟩) h
  case h_19 ho =>
    exact Decode.bitAppend_isWordOf (Decode.opcode_eq ho) h
  case h_22 ho =>
    exact Decode.byteAppend_isWordOf (Decode.opcode_eq ho) h
  case h_33 => cases h

/-- An opcode of R129's reserved ranges decodes to nothing. -/
theorem decode_reservedOpcode {w : Word} {n : Nat} (ho : (Decode.fields w).op.toNat = n)
    (h : (5 ≤ n ∧ n < 0x80) ∨ 0x9A < n) : decode w = .error .reservedOpcode := by
  unfold decode
  dsimp only
  split
  case h_33 => rfl
  all_goals omega

/-- Settles O4, clause by clause from the opcode's format. -/
theorem reservedWordsDecodeToNothing : Obligations.ReservedWordsDecodeToNothing := by
  refine fun w => ⟨decode_reservedOpcode rfl, fun hop hx => ?_, fun hop hc => ?_, fun hop hl => ?_⟩
  · interval_cases ho : (w.extractLsb' 24 8).toNat
    all_goals simp only [decode, Decode.fields, ho, Decode.bare_error _ hx]
  · simp only [List.mem_cons, List.not_mem_nil, or_false] at hop
    rcases hop with ho | ho | ho | ho
    all_goals simp only [decode, Decode.fields, ho, Decode.withComp_error _ _ hc]
  · simp only [decode, Decode.fields, hop, Decode.bitAppend_error hl]

/-- Settles O2, by the format of each instruction. -/
theorem decodeOfEncodeIsTheInstruction : Obligations.DecodeOfEncodeIsTheInstruction :=
  fun _ => decode_encode

/-- Settles O3, by the format of each opcode. -/
theorem encodeOfDecodeIsTheWord : Obligations.EncodeOfDecodeIsTheWord :=
  fun _ _ => isWordOf_of_decode

/-- Settles O1: each word is the encoding of its instruction. -/
theorem decodesWordsWrittenOutFromTheFormats : Obligations.DecodesWordsWrittenOutFromTheFormats :=
  ⟨decode_encode (i := .init) rfl, decode_encode (i := .convRgbYcc 5#4) rfl, decode_encode (i := .loadFull .cr 1#4 3#16) rfl,
    decode_encode (i := .encDc .cb .chroma) rfl, decode_encode (i := .putBits 6#5 15#16) rfl,
    decode_encode (i := .outByte 0xFF#8) rfl, decode_encode (i := .emitDht .ac .chroma) rfl,
    decode_encode (i := .processMcuRow) rfl⟩

/-! ### Illegal commands (R128) -/

/-- A CMD write accepts the words of the host commands only (R126). -/
theorem isWordOf_of_commandOf {w : Word} {i : Instr} (h : commandOf w = some i) : i.isHostCommand = true ∧ IsWordOf w i := by
  unfold commandOf at h
  split at h
  next j hj =>
    obtain ⟨hc, hij⟩ := Option.ite_none_right_eq_some.1 h
    cases hij
    exact ⟨hc, isWordOf_of_decode hj⟩
  next => cases h

/-- Any other word issues no command. -/
theorem commandOf_eq_none {w : Word}
    (hw : w ∉ [0x00000000#32, 0x01000000#32, 0x02000000#32, 0x03000000#32, 0x04000000#32]) : commandOf w = none := by
  refine Option.eq_none_iff_forall_ne_some.2 fun i hi => hw ?_
  obtain ⟨hc, -, rfl⟩ := isWordOf_of_commandOf hi
  rcases eq_of_isHostCommand hc with rfl | rfl | rfl | rfl | rfl
  all_goals decide

/-- Settles O13: the write goes to CMD, and the word issues no command. -/
theorem illegalCommandOnlyReportsItself : Obligations.IllegalCommandOnlyReportsItself := by
  intro s w hw
  rw [write_register w (by decide) (by decide)]
  show issueCommand w s = _
  unfold issueCommand
  rw [commandOf_eq_none hw]
  rfl

end Machine

end Sys2Proof
end

section
/-! PROOFS. The colour converter: what each conversion and PAD_RIGHT leave in the row buffer, and the FEED that only buffers its
row (O30, O36, O37, O38, O40). -/

namespace Sys2Proof.Machine

/-! ### Samples compared as numbers -/

/-- A stored byte with a natural number as its value, read as an integer or as a natural number. -/
theorem map_toInt_eq_natCast {o : Option Byte} {n : Nat} :
    (o.map fun b => (b.toNat : Int)) = some (n : Int) ↔ o.map BitVec.toNat = some n := by
  cases o <;> simp only [Option.map_none, Option.map_some, reduceCtorEq, Option.some.injEq, Nat.cast_inj]

/-- A stored byte is known by its value. -/
theorem eq_some_of_map_toInt {o : Option Byte} {b : Byte} (h : (o.map fun b => (b.toNat : Int)) = some (b.toNat : Int)) :
    o = some b := by
  obtain ⟨b', rfl, hb⟩ := Option.map_eq_some_iff.1 (map_toInt_eq_natCast.1 h)
  rw [BitVec.eq_of_toNat_eq hb]

/-! ### The conversions (R150 to R153) -/

/-- `s` with the channel count a conversion instruction stands for, whatever the latched one: `State.converted` reads the
scanline and this count alone. -/
abbrev State.withChannels (s : State) (ch : Channels) : State := { s with conf := { s.conf with ch := ch } }

/-- A conversion instruction that completes: the samples it writes, and that no other sample and no other state changes. -/
theorem toOutcome_convertRow {cs : List Comp} (hn : cs.Nodup) (ch : Channels) (r : BitVec 4) {s : State}
    (hw : s.conf.w.toNat ≤ s.cfg.maxPaddedWidth) (hs : s.SourceWritten (ch.bytes * s.conf.w.toNat)) :
    ∃ t, (convertRow ch.bytes (fun b => cs.map fun c => (c, convSamples ch b c)) r.toNat s).toOutcome = .next t ∧ RbOnly s t ∧
      (∀ c ∈ cs, ∀ x < s.conf.w.toNat, (t.stored c r.toNat x).map (fun b => (b.toNat : Int)) =
        some ((s.withChannels ch).converted c x)) ∧
      ∀ c r' x, ¬ (c ∈ cs ∧ r' = r.toNat ∧ x < s.conf.w.toNat) → t.stored c r' x = s.stored c r' x := by
  obtain ⟨t, ht, hrb, hst⟩ := convertRow_completes cs hn ch r.isLt hw hs
  refine ⟨t, by rw [ht]; rfl, hrb, fun c hc x hx => ?_, fun c r' x h => ?_⟩
  · have := hst c r.toNat x
    rwa [if_pos ⟨hc, rfl, hx⟩] at this
  · have := hst c r' x
    rwa [if_neg h] at this

/-- Luma is never clamped (R150, R151). -/
theorem converted_three_luma (s : State) (x : Nat) : (s.withChannels .three).converted .y x =
    ((s.source (3 * x) * 19595 + s.source (3 * x + 1) * 38470 + s.source (3 * x + 2) * 7471 + 32768) / 65536 : Nat) := rfl

/-- Gray luma is the source byte (R152, R153). -/
theorem converted_one_luma {s : State} {x : Nat} {b : Byte} (h : s.slb.read x = some b) :
    (s.withChannels .one).converted .y x = (b.toNat : Int) := by
  show ((s.source x : Nat) : Int) = _
  rw [State.source, h]
  rfl

/-- A sample that holds the gray luma of a written source byte holds that byte. -/
theorem stored_gray_luma {s t : State} {r x n : Nat} (hs : s.SourceWritten n) (hx : x < n)
    (h : (t.stored .y r x).map (fun b => (b.toNat : Int)) = some ((s.withChannels .one).converted .y x)) :
    t.stored .y r x = s.slb.read x := by
  obtain ⟨b, hb⟩ := Option.isSome_iff_exists.1 (hs x hx)
  rw [converted_one_luma hb] at h
  rw [hb]
  exact eq_some_of_map_toInt h

/-- Settles O36: the conversion of luma alone from three channels. -/
theorem convertRgbToLuma : Obligations.ConvertRgbToLuma := by
  intro s r hw hs
  obtain ⟨t, ht, hrb, hval, hkeep⟩ := toOutcome_convertRow (List.nodup_singleton Comp.y) .three r hw hs
  refine ⟨t, ht, hrb, fun x hx => ?_, fun c r' x h => hkeep c r' x fun ⟨hc, h'⟩ => h ⟨List.mem_singleton.1 hc, h'⟩⟩
  have hy := hval .y (List.mem_singleton_self _) x hx
  rw [converted_three_luma] at hy
  exact map_toInt_eq_natCast.1 hy

/-- Settles O37: the conversion of every component from three channels. -/
theorem convertRgbToYcc : Obligations.ConvertRgbToYcc := by
  intro s r hw hs
  obtain ⟨t, ht, hrb, hval, hkeep⟩ := toOutcome_convertRow (comps_nodup .s444) .three r hw hs
  refine ⟨t, ht, hrb, fun x hx => ⟨?_, ?_, ?_⟩, fun c r' x h => hkeep c r' x fun ⟨_, h'⟩ => h h'⟩
  · exact hval .y (by decide) x hx
  · exact hval .cb (by decide) x hx
  · exact hval .cr (by decide) x hx

/-- Settles O38: the two conversions from one channel. -/
theorem convertGrayCopiesLuma : Obligations.ConvertGrayCopiesLuma := by
  intro s r hw hs
  have hs1 : s.SourceWritten (Channels.one.bytes * s.conf.w.toNat) := by rwa [Channels.bytes, Nat.one_mul]
  constructor
  · obtain ⟨t, ht, hrb, hval, hkeep⟩ := toOutcome_convertRow (List.nodup_singleton Comp.y) .one r hw hs1
    exact ⟨t, ht, hrb, fun x hx => stored_gray_luma hs hx (hval .y (List.mem_singleton_self _) x hx),
      fun c r' x h => hkeep c r' x fun ⟨hc, h'⟩ => h ⟨List.mem_singleton.1 hc, h'⟩⟩
  · obtain ⟨t, ht, hrb, hval, hkeep⟩ := toOutcome_convertRow (comps_nodup .s444) .one r hw hs1
    refine ⟨t, ht, hrb, fun x hx => ⟨?_, ?_, ?_⟩, fun c r' x h => hkeep c r' x fun ⟨_, h'⟩ => h h'⟩
    · exact stored_gray_luma hs hx (hval .y (by decide) x hx)
    · exact eq_some_of_map_toInt (hval .cb (by decide) x hx)
    · exact eq_some_of_map_toInt (hval .cr (by decide) x hx)

/-! ### Padding and FEED (R155, R350) -/

/-- Settles O40: a 4-bit row is one the row buffer has. -/
theorem padRightCopiesTheLastPixel : Obligations.PadRightCopiesTheLastPixel := by
  intro s r hw
  obtain ⟨t, ht, hrb, hst⟩ := uopPadRight_completes r.isLt hw
  exact ⟨t, congrArg Flow.toOutcome ht, hrb, hst⟩

/-- A row that does not complete the MCU row is only buffered (R350). -/
theorem finishRow_incomplete {s : State} (h : s.rows ≠ s.conf.ss.mcuH) : finishRow s = .going s := if_neg h

/-- Settles O30: the row is converted and padded, and the MCU row is not complete. -/
theorem feedBuffersTheRow : Obligations.FeedBuffersTheRow := by
  intro s hctl hrows hw hs
  have hH := mcuH_le s.conf.ss
  obtain ⟨t, ht, hrb, hbuf⟩ := feedRow_completes (by omega) hw hs
  have hconf : t.conf = s.conf := by rw [hrb]
  have hlast : finishRow { t with rows := s.rows + 1, ctl := .accumulating } =
      .going { t with rows := s.rows + 1, ctl := .accumulating } :=
    finishRow_incomplete (by rw [hconf]; exact Nat.ne_of_lt hrows)
  refine ⟨State.succeed { t with rows := s.rows + 1, ctl := .accumulating }, ?_, by rw [hrb]; rfl, hbuf⟩
  show (cmdFeed s).toOutcome = _
  rw [cmdFeed_eq (rejects_none hctl), ht, Flow.bind_going, hlast]
  rfl

end Sys2Proof.Machine
end

section
/-! PROOFS. The block sampler: what each load puts into `S`, entry by entry (O41, O42). -/

namespace Sys2Proof.Machine

/-- A load inside the row buffer completes and changes `S` alone. -/
theorem toOutcome_load {s : State} {b : BlockLoad} (h : b.inside s.cfg) :
    (b.run s).toOutcome = .next { s with blkS := s.sampleBlock b } := by
  rw [load_run h]
  rfl

/-! ### The entries of a loaded block (R170 to R173) -/

/-- The rounding bias is a natural number, so an average can be taken of natural numbers (R171). -/
theorem bias_eq_natCast (i j odd : Nat) : bias i j odd = ((if (i + j) % 2 = 0 then 0 else odd : Nat) : Int) :=
  (apply_ite Nat.cast _ 0 odd).symm

theorem at_sampleBlock_full (s : State) (c : Comp) (br bc : Nat) (i j : Fin 8) :
    (s.sampleBlock (.full c br bc)).at i j = (s.sample c (8 * br + i) (8 * bc + j)).toNat - 128 :=
  at_blockOf _ i j

theorem at_sampleBlock_h2v1 (s : State) (c : Comp) (mx : Nat) (i j : Fin 8) :
    (s.sampleBlock (.h2v1 c mx)).at i j =
      (((s.sample c i (16 * mx + 2 * j)).toNat + (s.sample c i (16 * mx + 2 * j + 1)).toNat +
        (if (i.val + j.val) % 2 = 0 then 0 else s.cfg.h2v1OddBias) : Nat) : Int) / 2 - 128 := by
  rw [State.sampleBlock, at_blockOf, pairAverage, bias_eq_natCast]
  rfl

theorem at_sampleBlock_h2v2 (s : State) (c : Comp) (mx : Nat) (i j : Fin 8) :
    (s.sampleBlock (.h2v2 c mx)).at i j =
      (((s.sample c (2 * i) (16 * mx + 2 * j)).toNat + (s.sample c (2 * i) (16 * mx + 2 * j + 1)).toNat +
        (s.sample c (2 * i + 1) (16 * mx + 2 * j)).toNat + (s.sample c (2 * i + 1) (16 * mx + 2 * j + 1)).toNat +
        (if (i.val + j.val) % 2 = 0 then 0 else 2) : Nat) : Int) / 4 - 128 := by
  rw [State.sampleBlock, at_blockOf, quadAverage, bias_eq_natCast]
  rfl

/-! ### The loads -/

/-- Settles O41: block rows 0 and 1 are the rows the row buffer has. -/
theorem loadFullCentresABlock : Obligations.LoadFullCentresABlock := by
  intro s c r x hr hx
  have inside : (BlockLoad.full c r.toNat x.toNat).inside s.cfg := ⟨by omega, hx⟩
  exact ⟨_, toOutcome_load inside, at_sampleBlock_full s c r.toNat x.toNat⟩

/-- Settles O42: both filters read the 16 columns of MCU `x`, and their biased sums are natural numbers. -/
theorem chromaLoadsAverageWithTheAlternatingBias : Obligations.ChromaLoadsAverageWithTheAlternatingBias := by
  intro s c x hx
  constructor
  · exact ⟨_, toOutcome_load (b := .h2v1 c x.toNat) hx, at_sampleBlock_h2v1 s c x.toNat⟩
  · exact ⟨_, toOutcome_load (b := .h2v2 c x.toNat) hx, at_sampleBlock_h2v2 s c x.toNat⟩

end Sys2Proof.Machine
end

section
/-! PROOFS. The forward DCT: the block FDCT leaves in `P`, its DC coefficient, and the ranges of a sampled block before and
after quantization (O44, O45, O46). -/

namespace Sys2Proof.Machine

theorem exec_fdct (s : State) : exec .fdct s = .next { s with blkP := forwardDct s.blkS } := rfl

theorem exec_quantZz (t : TableId) (s : State) :
    exec (.quantZz t) s = .next { s with blkZ := quantBlock s.blkP (s.qt.get t) } := rfl

/-- What FDCT leaves. -/
theorem eq_of_exec_fdct {s a : State} (h : exec .fdct s = .next a) : a = { s with blkP := forwardDct s.blkS } := by
  rw [exec_fdct] at h
  exact (Host.Outcome.next.inj h).symm

/-- What QUANT_ZZ leaves. -/
theorem eq_of_exec_quantZz {t : TableId} {a b : State} (h : exec (.quantZz t) a = .next b) :
    b = { a with blkZ := quantBlock a.blkP (a.qt.get t) } := by
  rw [exec_quantZz] at h
  exact (Host.Outcome.next.inj h).symm

/-- Settles O44: the two passes entry by entry, and the transform of a constant block. -/
theorem forwardDctIsTwoMatrixPasses : Obligations.ForwardDctIsTwoMatrixPasses := by
  intro s
  exact ⟨forwardDct s.blkS, exec_fdct s, forwardDct_at s.blkS, fun _ => forwardDct_const⟩

/-- Settles O45: the first coefficient is the rounded sum, so the box of the samples bounds it. -/
theorem dcCoefficientIsTheRoundedSum : Obligations.DcCoefficientIsTheRoundedSum := by
  intro s
  exact ⟨forwardDct s.blkS, exec_fdct s, forwardDct_zero s.blkS, forwardDct_dc_centred, forwardDct_dc⟩

/-- Settles O46: the ranges of the transform, which quantization keeps, bound every category. -/
theorem coefficientsStayInRange : Obligations.CoefficientsStayInRange := by
  intro s a b t hbox hdiv ha hb
  obtain rfl := eq_of_exec_fdct ha
  obtain rfl := eq_of_exec_quantZz hb
  obtain ⟨hdc, hac⟩ := coefBlock_bounds hbox hdiv
  refine ⟨fun k hk => forwardDct_ac hbox hk, hdc.1, hdc.2, fun k hk => ⟨hac k hk, ?_⟩, fun p hp hp' => ?_⟩
  · exact cat_le (Nat.lt_of_le_of_lt (hac k hk) (by decide : 1022 < 2 ^ 10))
  · exact cat_diff_le hdc ⟨hp, hp'⟩

end Sys2Proof.Machine
end

section
/-! PROOFS. The quantizer: the table BUILD_QT leaves, and the block QUANT_ZZ leaves in `Z` (O47, O48). -/

namespace Sys2Proof.Machine

/-! ### BUILD_QT (R212 to R214) -/

theorem exec_buildQt (t : TableId) (s : State) :
    exec (.buildQt t) s = .next { s with qt := s.qt.set t (quantTable s.conf.q.toNat s.conf.nocd t) } := rfl

/-- The two pieces of the scale, for a quality R212 states one for. -/
theorem qualityScale_of_mem {q : Nat} (h1 : 1 ≤ q) (h100 : q ≤ 100) :
    qualityScale q = if q < 50 then 5000 / q else 200 - 2 * q := if_pos ⟨h1, h100⟩

/-- The luma base serves both tables under NOCD (R211, R213). -/
theorem baseTable_eq (t : TableId) (nocd : Bool) :
    baseTable t nocd = if t = .luma ∨ nocd = true then stdLuma else stdChroma := by
  cases t <;> cases nocd <;> rfl

/-- A built entry, in zig-zag order, is its base entry scaled, rounded and kept in 1..255 (R213). -/
theorem quantTable_toNat (q : Nat) (nocd : Bool) (t : TableId) (i : Fin 64) :
    (quantTable q nocd t)[i].toNat = max 1 (min 255 (((baseTable t nocd)[zz[i]] * qualityScale q + 50) / 100)) := by
  rw [quantTable_get]
  exact (quantEntry_pos _ _).2

/-- Settles O47: the table is the model's, entry by entry, at the stated scale and base. -/
theorem buildQtScalesTheBaseTable : Obligations.BuildQtScalesTheBaseTable := by
  intro s t
  refine ⟨quantTable s.conf.q.toNat s.conf.nocd t, exec_buildQt t s, fun h1 h100 i => ?_,
    quantTable_pos s.conf.q.toNat s.conf.nocd t⟩
  rw [← qualityScale_of_mem h1 h100, ← baseTable_eq]
  exact quantTable_toNat s.conf.q.toNat s.conf.nocd t i

/-! ### QUANT_ZZ (R215, R216) -/

/-- A quotient rounded half up is a nearest multiple of its divisor. -/
theorem halfUpQuotient_nearest (n : Nat) {d : Nat} (hd : 1 ≤ d) :
    2 * ((n + d / 2) / d) * d ≤ 2 * n + d ∧ 2 * n + d < 2 * ((n + d / 2) / d) * d + 2 * d := by
  have hdiv : (n + d / 2) / d * d + (n + d / 2) % d = n + d / 2 := Nat.div_add_mod' _ _
  have hmod : (n + d / 2) % d < d := Nat.mod_lt _ hd
  rw [Nat.mul_assoc]
  omega

/-- Settles O48: the block is the model's, entry by entry, and its magnitudes are quotients rounded half up. -/
theorem quantZzDividesAndReorders : Obligations.QuantZzDividesAndReorders := by
  intro s t
  refine ⟨quantBlock s.blkP (s.qt.get t), exec_quantZz t s, fun i hd => ⟨?_, halfUpQuotient_nearest _ hd⟩⟩
  rw [quantBlock_get]
  exact quant_eq hd

end Sys2Proof.Machine
end

section
/-! PROOFS. The entropy coder: what ENC_DC, ENC_AC and PROCESS_MCU_ROW append when every symbol has a code and the sink
accepts, and where a symbol without a code stops ENC_DC and ENC_AC (O34, O52, O53, O54). -/

namespace Sys2Proof.Machine

/-! ### The meanings, and operations whose transfers are accepted -/

theorem exec_encDc (c : Comp) (t : TableId) (s : State) : exec (.encDc c t) s = (uopEncDc c t s).toOutcome := rfl

theorem exec_encAc (t : TableId) (s : State) : exec (.encAc t) s = (uopEncAc t s).toOutcome := rfl

theorem exec_processMcuRow (s : State) : exec .processMcuRow s = (uopProcessMcuRow s).toOutcome := rfl

/-- An operation of at most `obSize` bytes makes a step if the sink accepts its next transfer: it needs no second one. -/
theorem Flow.Writes.next {x : Flow} {s : State} {n : Nat} {P : PerComp Int → Prop} {G : State → Prop}
    (h : x.Writes s n P G) (hs : s.nextAnswer = .accepted) (hn : n ≤ obSize) : ∃ u, x.toOutcome = .next u ∧ G u := by
  obtain ⟨u, rfl, -⟩ := h.accepted s 0 hs (Sent.refl s) (by omega)
  exact ⟨u, rfl, h.ends.2⟩

/-- An operation whose transfers are all accepted makes a step, and draws no free answer. -/
theorem Flow.Takes.next {x : Flow} {s : State} {n : Nat} {P : PerComp Int → Prop} {G : State → Prop}
    (h : x.Takes s n P G) (hs : s.SinkAccepts n) :
    ∃ u, x.toOutcome = .next u ∧ CodingOnly s u ∧ u.draws = s.draws ∧ G u := by
  obtain ⟨u, rfl, -, hdraws⟩ := h.accepted 0 hs
  exact ⟨u, rfl, h.ends.1.only, hdraws, h.ends.2⟩

/-! ### ENC_DC and ENC_AC (R246, R247) -/

/-- The value bits of no difference are none, so DC bits need no case for it. -/
theorem dcBits_eq (table : HuffTable) (diff : Int) :
    dcBits table diff = codeBits (table.symbol (cat diff)) ++ (if diff = 0 then [] else valueBits diff) := by
  unfold dcBits
  split
  · rename_i h
    rw [h, valueBits_zero]
  · rfl

/-- Settles O52: ENC_DC appends at most 8 bytes, and its predictor is set before it appends. -/
theorem encDcAppendsTheDifference : Obligations.EncDcAppendsTheDifference := by
  intro s c t hready hs diff hcat hcode
  have hwrites := uopEncDc_writes (P := fun _ => True) c t hcat hready hcode trivial
  obtain ⟨u, hu, honly, happ⟩ := hwrites.next hs (by decide)
  rw [dcBits_eq] at happ
  exact ⟨u, hu, happ, honly⟩

/-- Settles O53: the 63 coefficients of a block append at most 520 bytes. -/
theorem encAcAppendsRunsAndSizes : Obligations.EncAcAppendsRunsAndSizes := by
  intro s t hready hs hrange hcodes
  have hwrites := uopEncAc_writes (P := fun _ => True) t hrange hready hcodes trivial
  obtain ⟨u, hu, honly, happ⟩ := hwrites.next hs (by decide)
  exact ⟨u, hu, happ, honly⟩

/-! ### A symbol without a code (R248) -/

theorem uopEncDc_no_code {s : State} {c : Comp} {t : TableId}
    (h : (s.huffCode .dc t (cat (s.blkZ[0] - s.pred.get c))).len = 0) : uopEncDc c t s = .fault .undefinedSymbol := by
  have hsym : emitSymbol .dc t (cat (s.blkZ[0] - s.pred.get c)) { s with pred := s.pred.set c s.blkZ[0] } =
    .fault .undefinedSymbol := emitSymbol_no_code h
  unfold uopEncDc codeDiff
  simp only [hsym, Flow.bind_fault]

/-- Zeros only lengthen the run. -/
theorem runAll_codeAc_zeros (t : TableId) (vs : List Int) : ∀ {s : State}, (∀ v ∈ vs, v = 0) →
    runAll (vs.map (codeAc t)) s = .going { s with run := s.run + vs.length } := by
  induction vs with
  | nil => intro s _; rfl
  | cons v vs ih =>
    intro s hz
    obtain ⟨rfl, hvs⟩ := List.forall_mem_cons.1 hz
    rw [List.map_cons, runAll_cons, codeAc, if_pos rfl, Flow.bind_going, ih hvs, List.length_cons, Nat.add_assoc,
      Nat.add_comm 1]

/-- A block without AC coefficients is its EOB alone. -/
theorem uopEncAc_zeros (t : TableId) {s : State} (hz : ∀ k : Fin 64, k ≠ 0 → s.blkZ[k] = 0) :
    uopEncAc t s = emitSymbol .ac t 0x00 { s with run := 63 } := by
  unfold uopEncAc
  rw [runAll_codeAc_zeros t _ (mem_drop_of_block (p := fun v => v = 0) hz), Flow.bind_going]
  have hrun : 0 + (s.blkZ.toList.drop 1).length = 63 := by simp
  rw [codeEob, if_pos (by simp only [hrun]; decide), hrun]

/-- Before any zero the run/size symbol of a coefficient is its category, with no ZRL before it. -/
theorem codeAc_no_code {s : State} {t : TableId} {v : Int} (hrun : s.run = 0) (hv : v ≠ 0)
    (h : (s.huffCode .ac t (cat v)).len = 0) : codeAc t v s = .fault .undefinedSymbol := by
  have hsym : s.run <<< 4 ||| cat v = cat v := by rw [hrun]; simp
  unfold codeAc
  rw [if_neg hv, hrun]
  simp only [Nat.zero_div, List.replicate_zero, runAll_nil, Flow.bind_going]
  rw [hsym, emitSymbol_no_code h]
  rfl

theorem block_drop_one (z : Block) : z.toList.drop 1 = z[1] :: z.toList.drop 2 := by
  rw [List.drop_eq_getElem_cons (by simp)]
  rfl

/-- Settles O54: each clause is the first symbol without a code that the operation reaches. -/
theorem symbolsWithoutACodeFault : Obligations.SymbolsWithoutACodeFault := by
  intro s c t
  refine ⟨fun h => ?_, fun h hz => ?_, fun h hv => ?_, fun hready hs hlen hcat hsym => ?_⟩
  · rw [exec_encDc, uopEncDc_no_code h]
    rfl
  · rw [exec_encAc, uopEncAc_zeros t hz, emitSymbol_no_code (t := { s with run := 63 }) h]
    rfl
  · rw [exec_encAc, uopEncAc, block_drop_one, List.map_cons, runAll_cons, codeAc_no_code (s := { s with run := 0 }) rfl hv h]
    rfl
  · rw [exec_encAc, uopEncAc_faults t hcat hready hlen hs hsym]
    rfl

/-! ### PROCESS_MCU_ROW (R352, R353) -/

/-- Settles O34: the row is its blocks in coding order, each of which takes at most one of the sink's answers. -/
theorem processMcuRowCodesEveryBlockInOrder : Obligations.ProcessMcuRowCodesEveryBlockInOrder := by
  intro s hready hs
  obtain ⟨u, hu, honly, hdraws, happ, hpred⟩ := (uopProcessMcuRow_takes hready).next hs
  refine ⟨u, hu, happ, ?_⟩
  rw [← hpred, ← hdraws]
  exact honly

end Sys2Proof.Machine
end

section
/-! PROOFS. Bits as numbers, and the magnitude category and value bits of a coefficient (O51). -/

namespace Sys2Proof.Machine

/-! ### Bits read as a number (R86) -/

theorem bitsToNat_concat (bits : List Bool) (b : Bool) : bitsToNat (bits ++ [b]) = 2 * bitsToNat bits + b.toNat := by
  simp [bitsToNat, List.foldl_append]

theorem bitsToNat_lt (bits : List Bool) : bitsToNat bits < 2 ^ bits.length := by
  induction bits using List.reverseRecOn with
  | nil => decide
  | append_singleton bits b ih =>
    have hb := b.toNat_le
    rw [bitsToNat_concat, List.length_append, List.length_singleton, Nat.pow_succ]
    omega

theorem bitsToNat_append (xs ys : List Bool) : bitsToNat (xs ++ ys) = bitsToNat xs * 2 ^ ys.length + bitsToNat ys := by
  induction ys using List.reverseRecOn with
  | nil => rw [List.append_nil, List.length_nil, Nat.pow_zero, Nat.mul_one]; rfl
  | append_singleton ys b ih =>
    rw [← List.append_assoc, bitsToNat_concat, ih, bitsToNat_concat, List.length_append, List.length_singleton, Nat.pow_succ]
    ring

/-- The first bits of a list are its number shifted right. -/
theorem bitsToNat_of_prefix {xs ys : List Bool} (h : xs <+: ys) :
    bitsToNat xs = bitsToNat ys / 2 ^ (ys.length - xs.length) := by
  obtain ⟨zs, rfl⟩ := h
  rw [bitsToNat_append, List.length_append, Nat.add_sub_cancel_left, Nat.mul_comm,
    Nat.mul_add_div (Nat.two_pow_pos _), Nat.div_eq_of_lt (bitsToNat_lt zs), Nat.add_zero]

/-- The first bit is the one of the highest weight. -/
theorem head?_eq_true_iff {bits : List Bool} (h : bits ≠ []) :
    bits.head? = some true ↔ 2 ^ (bits.length - 1) ≤ bitsToNat bits := by
  obtain ⟨b, rest, rfl⟩ := List.exists_cons_of_ne_nil h
  have happ := bitsToNat_append [b] rest
  have hlt := bitsToNat_lt rest
  rw [List.singleton_append] at happ
  rw [happ, List.length_cons, Nat.add_sub_cancel]
  cases b with
  | false =>
    have h0 : bitsToNat [false] = 0 := rfl
    simpa [h0] using hlt
  | true =>
    have h1 : bitsToNat [true] = 1 := rfl
    simp [h1]

/-- The number of all 1 bits. -/
theorem bitsToNat_replicate_true (n : Nat) : bitsToNat (List.replicate n true) + 1 = 2 ^ n := by
  induction n with
  | zero => rfl
  | succ n ih =>
    rw [List.replicate_succ', bitsToNat_concat, Nat.pow_succ, ← ih, Bool.toNat_true]
    ring

theorem lowBits_succ (v : BitVec 16) (n : Nat) : lowBits v (n + 1) = v.getLsbD n :: lowBits v n := by
  unfold lowBits
  rw [List.range_succ_eq_map, List.map_cons, List.map_map]
  refine congrArg₂ List.cons rfl (List.map_congr_left fun i _ => ?_)
  show v.getLsbD (n + 1 - 1 - (i + 1)) = v.getLsbD (n - 1 - i)
  congr 1
  omega

/-- The low `n` bits are the value modulo `2^n` (R270). -/
theorem bitsToNat_lowBits (v : BitVec 16) (n : Nat) : bitsToNat (lowBits v n) = v.toNat % 2 ^ n := by
  induction n with
  | zero => simp [lowBits, bitsToNat, Nat.mod_one]
  | succ n ih =>
    have happ := bitsToNat_append [v.getLsbD n] (lowBits v n)
    have hbit : bitsToNat [v.getLsbD n] = v.toNat / 2 ^ n % 2 := by
      rw [← Nat.toNat_testBit, BitVec.testBit_toNat]
      cases v.getLsbD n <;> rfl
    rw [List.singleton_append, hbit, ih, lowBits_length] at happ
    rw [lowBits_succ, happ, Nat.pow_succ, Nat.mod_mul, Nat.mul_comm, Nat.add_comm]

/-! ### Magnitude category and value bits (R244, R245) -/

/-- A value but 0 fills its category: it needs the highest of its bits. -/
theorem two_pow_cat_pred_le {v : Int} (hv : v ≠ 0) : 2 ^ (cat v - 1) ≤ v.natAbs := by
  by_contra hlt
  have hle := cat_le (Nat.lt_of_not_le hlt)
  have hpos := cat_pos hv
  omega

theorem length_valueBits (v : Int) : (valueBits v).length = cat v := lowBits_length _ _

/-- The low bits of `v - 1`, for a negative `v`, are `v - 1` with `2^cat v` added (R245). -/
theorem sub_one_emod_two_pow_cat {v : Int} (hv : v < 0) : (v - 1) % 2 ^ cat v = v - 1 + 2 ^ cat v := by
  have hlt : (v.natAbs : Int) < 2 ^ cat v := by exact_mod_cast natAbs_lt_cat v
  rw [← Int.add_emod_right, Int.emod_eq_of_lt (by omega) (by omega)]

/-- The value bits as a number, when they fit one append (R245). -/
theorem bitsToNat_valueBits {v : Int} (h : cat v ≤ 16) :
    (bitsToNat (valueBits v) : Int) = if 0 ≤ v then v else (v - 1) % 2 ^ cat v := by
  have hlt : (v.natAbs : Int) < 2 ^ cat v := by exact_mod_cast natAbs_lt_cat v
  have hpow : (2 : Int) ^ cat v ≤ 2 ^ 16 := pow_le_pow_right₀ (by decide) h
  have hrange : 0 ≤ (if 0 ≤ v then v else (v - 1) % 2 ^ cat v) ∧
      (if 0 ≤ v then v else (v - 1) % 2 ^ cat v) < 2 ^ cat v := by
    split
    · omega
    · rw [sub_one_emod_two_pow_cat (by omega)]
      omega
  unfold valueBits vbits
  generalize (if 0 ≤ v then v else (v - 1) % 2 ^ cat v) = x at hrange ⊢
  obtain ⟨h0, hx⟩ := hrange
  have hmod : x % 2 ^ 16 = x := Int.emod_eq_of_lt h0 (by omega)
  rw [bitsToNat_lowBits, BitVec.toNat_ofInt, Int.natCast_emod, Nat.cast_pow, Nat.cast_ofNat, hmod, Int.toNat_of_nonneg h0,
    Nat.cast_pow, Nat.cast_ofNat, Int.emod_eq_of_lt h0 hx]

theorem bitsToNat_valueBits_pos {v : Int} (h : cat v ≤ 16) (hv : 0 < v) : bitsToNat (valueBits v) = v.natAbs := by
  have hx := bitsToNat_valueBits h
  rw [if_pos hv.le] at hx
  omega

/-- The value bits of a negative value are its magnitude's bits inverted (R245). -/
theorem bitsToNat_valueBits_neg {v : Int} (h : cat v ≤ 16) (hv : v < 0) :
    bitsToNat (valueBits v) + v.natAbs + 1 = 2 ^ cat v := by
  have hx := bitsToNat_valueBits h
  rw [if_neg (by omega), sub_one_emod_two_pow_cat hv] at hx
  zify
  rw [hx, abs_of_neg hv]
  ring

/-- The value bits of a positive value lie in the upper half of their category, those of a negative one in the lower (R245). -/
theorem two_pow_le_valueBits_iff {v : Int} (hv : v ≠ 0) (h : cat v ≤ 16) :
    2 ^ (cat v - 1) ≤ bitsToNat (valueBits v) ↔ 0 < v := by
  have hlow := two_pow_cat_pred_le hv
  have hhalves : 2 ^ cat v = 2 * 2 ^ (cat v - 1) := by
    rw [← Nat.pow_succ', Nat.succ_eq_add_one, Nat.sub_add_cancel (cat_pos hv)]
  rcases lt_or_gt_of_ne hv with hneg | hpos
  · have hx := bitsToNat_valueBits_neg h hneg
    omega
  · have hx := bitsToNat_valueBits_pos h hpos
    omega

/-- Settles O51: the half of its category that the value bits lie in tells the sign, and so which rule undoes them. -/
theorem valueBitsDecodeBack : Obligations.ValueBitsDecodeBack := by
  intro v
  refine ⟨⟨natAbs_lt_cat v, fun n => cat_le⟩, fun hv hmax => ?_⟩
  have hcat : cat v ≤ 16 := cat_le (by omega)
  have hne : valueBits v ≠ [] := List.ne_nil_of_length_pos (by rw [length_valueBits]; exact cat_pos hv)
  refine ⟨length_valueBits v, bitsToNat_valueBits hcat, ?_, ?_⟩
  · rw [head?_eq_true_iff hne, length_valueBits, two_pow_le_valueBits_iff hv hcat]
  · simp only [two_pow_le_valueBits_iff hv hcat]
    split
    · rw [bitsToNat_valueBits hcat, if_pos (by omega)]
    · have hx : (bitsToNat (valueBits v) + v.natAbs + 1 : Int) = 2 ^ cat v := by
        exact_mod_cast bitsToNat_valueBits_neg hcat (by omega)
      omega

end Sys2Proof.Machine
end

section
/-! PROOFS. Canonical Huffman codes: their order, what BUILD_HT assigns to each symbol, and why no code begins
another (O49, O50). -/

namespace Sys2Proof.Machine

/-! ### The canonical codes as numbers (R241) -/

/-- A code from its number and its length. -/
def codeOf (p : Nat × Nat) : HuffCode := ⟨BitVec.ofNat 16 p.1, p.2⟩

theorem codeOf_code_toNat {p : Nat × Nat} (hlen : p.2 ≤ 16) (hfit : p.1 < 2 ^ p.2) : (codeOf p).code.toNat = p.1 :=
  (BitVec.toNat_ofNat _ _).trans (Nat.mod_eq_of_lt (hfit.trans_le (Nat.pow_le_pow_right (by decide) hlen)))

/-- The canonical codes of a table, from their numbers. -/
theorem canonicalCodes_eq_map (bits : List Nat) : ∀ len code : Nat,
    canonicalCodes bits len code = (codeValues bits len code).map codeOf := by
  induction bits with
  | nil => intro len code; rfl
  | cons n rest ih =>
    intro len code
    rw [canonicalCodes, codeValues, ih, List.map_append, List.map_map]
    rfl

theorem length_codeValues (bits : List Nat) : ∀ len code : Nat, (codeValues bits len code).length = bits.sum := by
  induction bits with
  | nil => intro len code; rfl
  | cons n rest ih =>
    intro len code
    rw [codeValues, List.length_append, List.length_map, List.length_range, ih, List.sum_cons]

theorem map_snd_sameLength (n len code : Nat) :
    ((List.range n).map fun j => (code + j, len)).map (·.2) = List.replicate n len := by
  rw [List.map_map]
  exact (List.map_const' (l := List.range n) (b := len)).trans (by rw [List.length_range])

/-- The lengths the histogram counts off, in order (R241). -/
theorem map_snd_codeValues (bits : List Nat) : ∀ len code : Nat, (codeValues bits len code).map (·.2) =
    (List.range bits.length).flatMap fun l => List.replicate (bits.getD l 0) (len + l) := by
  induction bits with
  | nil => intro len code; rfl
  | cons n rest ih =>
    intro len code
    rw [codeValues, List.map_append, ih, map_snd_sameLength, List.length_cons, List.range_succ_eq_map, List.flatMap_cons,
      List.flatMap_map]
    congr 2
    funext l
    simp [Nat.add_assoc, Nat.add_comm 1]

/-- The lengths of the codes are those of the histogram. -/
theorem len_of_mem_codeValues {bits : List Nat} : ∀ {len code : Nat} {p : Nat × Nat}, p ∈ codeValues bits len code →
    len ≤ p.2 ∧ p.2 < len + bits.length := by
  induction bits with
  | nil => intro len code p hp; cases hp
  | cons n rest ih =>
    intro len code p hp
    rw [List.length_cons]
    rcases List.mem_append.1 hp with hp | hp
    · obtain ⟨j, -, rfl⟩ := List.mem_map.1 hp
      dsimp only
      omega
    · have := ih hp
      omega

/-- As many codes have a length as the histogram says (R242). -/
theorem count_codeValues (bits : List Nat) : ∀ len code l : Nat,
    ((codeValues bits len code).map (·.2)).count (len + l) = bits.getD l 0 := by
  induction bits with
  | nil => intro len code l; rfl
  | cons n rest ih =>
    intro len code l
    rw [codeValues, List.map_append, List.count_append, map_snd_sameLength, List.count_replicate]
    cases l with
    | zero =>
      have hlater : ((codeValues rest (len + 1) ((code + n) * 2)).map (·.2)).count (len + 0) = 0 :=
        List.count_eq_zero.2 fun hmem => by
          obtain ⟨p, hp, hlen⟩ := List.mem_map.1 hmem
          have := len_of_mem_codeValues hp
          omega
      rw [hlater]
      simp
    | succ l =>
      rw [show len + (l + 1) = len + 1 + l by omega, ih, if_neg (by simp; omega), List.getD_cons_succ, Nat.zero_add]

/-- The next canonical code: the predecessor plus 1, shifted left by the growth in length (R241). -/
def NextCode (p q : Nat × Nat) : Prop := p.2 ≤ q.2 ∧ q.1 = (p.1 + 1) * 2 ^ (q.2 - p.2)

/-- The first code is the one it was started from, shifted left to its length. -/
theorem head_codeValues (bits : List Nat) : ∀ len code : Nat, ∀ q ∈ (codeValues bits len code).head?,
    len ≤ q.2 ∧ q.1 = code * 2 ^ (q.2 - len) := by
  induction bits with
  | nil => intro len code q hq; cases hq
  | cons n rest ih =>
    intro len code q hq
    cases n with
    | zero =>
      obtain ⟨hlen, hcode⟩ := ih (len + 1) ((code + 0) * 2) q hq
      refine ⟨by omega, ?_⟩
      rw [hcode, show q.2 - len = q.2 - (len + 1) + 1 by omega, Nat.pow_succ]
      ring
    | succ n =>
      rw [codeValues, List.range_succ_eq_map] at hq
      cases hq
      simp

/-- Each canonical code follows from its predecessor (R241). -/
theorem isChain_codeValues (bits : List Nat) : ∀ len code : Nat, (codeValues bits len code).IsChain NextCode := by
  induction bits with
  | nil => intro len code; exact .nil
  | cons n rest ih =>
    intro len code
    have hsame : ((List.range n).map fun j => (code + j, len)).IsChain NextCode := by
      rw [List.isChain_map, List.isChain_range]
      exact fun j _ => ⟨Nat.le_refl _, by simp [Nat.add_assoc]⟩
    refine hsame.append (ih _ _) fun p hp q hq => ?_
    obtain ⟨hlen, hcode⟩ := head_codeValues rest (len + 1) ((code + n) * 2) q hq
    rw [List.getLast?_map, List.getLast?_range] at hp
    split at hp
    · cases hp
    · cases hp
      refine ⟨by dsimp only; omega, ?_⟩
      rw [hcode, show q.2 - len = q.2 - (len + 1) + 1 by omega, Nat.pow_succ, show code + (n - 1) + 1 = code + n by omega]
      ring

/-- Code `q` is no shorter than code `p` and lies beyond every code of its length that begins with `p`. -/
def Beyond (p q : Nat × Nat) : Prop := p.2 ≤ q.2 ∧ (p.1 + 1) * 2 ^ (q.2 - p.2) ≤ q.1

theorem Beyond.trans {p q r : Nat × Nat} (h : Beyond p q) (h' : Beyond q r) : Beyond p r := by
  obtain ⟨hlen, hcode⟩ := h
  obtain ⟨hlen', hcode'⟩ := h'
  refine ⟨Nat.le_trans hlen hlen', ?_⟩
  calc (p.1 + 1) * 2 ^ (r.2 - p.2) = (p.1 + 1) * 2 ^ (q.2 - p.2) * 2 ^ (r.2 - q.2) := by
        rw [Nat.mul_assoc, ← Nat.pow_add]; congr 2; omega
    _ ≤ (q.1 + 1) * 2 ^ (r.2 - q.2) := Nat.mul_le_mul_right _ (by omega)
    _ ≤ r.1 := hcode'

/-- Each canonical code lies beyond all that come before it. -/
theorem pairwise_codeValues (bits : List Nat) (len code : Nat) : (codeValues bits len code).Pairwise Beyond := by
  have : Trans Beyond Beyond Beyond := ⟨Beyond.trans⟩
  exact ((isChain_codeValues bits len code).imp fun _ _ h => ⟨h.1, h.2.ge⟩).pairwise

/-! ### The code of a symbol (R241) -/

/-- Pairs of other symbols leave the code of a symbol as it is. -/
theorem foldl_assign_of_not_mem {l : List (Byte × HuffCode)} {sym : Nat} (h : ∀ p ∈ l, p.1.toNat ≠ sym) (c : HuffCode) :
    l.foldl (fun c p => if p.1.toNat = sym then p.2 else c) c = c := by
  induction l with
  | nil => rfl
  | cons p l ih =>
    obtain ⟨hp, hl⟩ := List.forall_mem_cons.1 h
    rw [List.foldl_cons, if_neg hp, ih hl]

/-- A symbol that one pair names, and no other, has the code of that pair. -/
theorem foldl_assign_of_mem {l : List (Byte × HuffCode)} {a : Byte} {h : HuffCode} (hmem : (a, h) ∈ l)
    (hl : (l.map (·.1)).Nodup) (c : HuffCode) : l.foldl (fun c p => if p.1.toNat = a.toNat then p.2 else c) c = h := by
  induction l generalizing c with
  | nil => cases hmem
  | cons p l ih =>
    obtain ⟨hp, hl⟩ := List.nodup_cons.1 hl
    rw [List.foldl_cons]
    rcases List.mem_cons.1 hmem with rfl | hmem
    · rw [if_pos rfl, foldl_assign_of_not_mem]
      intro q hq hqa
      exact hp (List.mem_map.2 ⟨q, hq, BitVec.eq_of_toNat_eq hqa⟩)
    · exact ih hmem hl _

/-- The symbols of a specification with the numbers of their codes. -/
def HuffSpec.assignment (spec : HuffSpec) : List (Byte × (Nat × Nat)) := spec.vals.zip (codeValues spec.bits 1 0)

/-- The symbol at place `j` of the list has the code at place `j` of the canonical codes (R241). -/
theorem HuffSpec.mem_assignment {spec : HuffSpec} {j : Nat} (hj : j < spec.vals.length)
    (hj' : j < (codeValues spec.bits 1 0).length) :
    (spec.vals.getD j 0, (codeValues spec.bits 1 0)[j]) ∈ spec.assignment := by
  rw [← List.getElem_eq_getD (h := hj), HuffSpec.assignment, ← List.getElem_zip (h := by rw [List.length_zip]; omega)]
  exact List.getElem_mem _

/-- The code the table gives a symbol. -/
theorem huffTable_symbol_eq_foldl (spec : HuffSpec) (a : Byte) : (huffTable spec).symbol a.toNat =
    (spec.assignment.map (Prod.map id codeOf)).foldl (fun c p => if p.1.toNat = a.toNat then p.2 else c) ⟨0#16, 0⟩ := by
  rw [huffTable_symbol spec a.isLt, assignedCode, canonicalCodes_eq_map, HuffSpec.assignment, List.zip_map_right]

/-- A symbol that is not in the list has no code (R241). -/
theorem huffTable_symbol_of_not_mem {spec : HuffSpec} {a : Byte} (h : a ∉ spec.vals) :
    ((huffTable spec).symbol a.toNat).len = 0 := by
  rw [huffTable_symbol_eq_foldl, foldl_assign_of_not_mem]
  intro p hp hpa
  obtain ⟨⟨b, q⟩, hbq, rfl⟩ := List.mem_map.1 hp
  obtain rfl : b = a := BitVec.eq_of_toNat_eq hpa
  exact h (List.of_mem_zip hbq).1

section
variable {spec : HuffSpec} (hfits : spec.Fits)
include hfits

theorem HuffSpec.Fits.length_codeValues : spec.vals.length = (codeValues spec.bits 1 0).length :=
  hfits.count.trans (Machine.length_codeValues _ _ _).symm

theorem HuffSpec.Fits.map_fst_assignment : spec.assignment.map (·.1) = spec.vals :=
  List.map_fst_zip hfits.length_codeValues.le

theorem HuffSpec.Fits.map_snd_assignment : spec.assignment.map (·.2) = codeValues spec.bits 1 0 :=
  List.map_snd_zip hfits.length_codeValues.ge

theorem HuffSpec.Fits.exists_mem_assignment {a : Byte} (ha : a ∈ spec.vals) : ∃ p, (a, p) ∈ spec.assignment := by
  rw [← hfits.map_fst_assignment] at ha
  obtain ⟨⟨b, p⟩, hp, rfl⟩ := List.mem_map.1 ha
  exact ⟨p, hp⟩

/-- A symbol of the list has the code of its place (R241). -/
theorem HuffSpec.Fits.symbol_eq {a : Byte} {p : Nat × Nat} (hp : (a, p) ∈ spec.assignment) :
    (huffTable spec).symbol a.toNat = codeOf p := by
  rw [huffTable_symbol_eq_foldl]
  refine foldl_assign_of_mem (List.mem_map.2 ⟨(a, p), hp, rfl⟩) ?_ _
  rw [List.map_map]
  exact hfits.map_fst_assignment ▸ hfits.distinct

theorem HuffSpec.Fits.bounds {a : Byte} {p : Nat × Nat} (hp : (a, p) ∈ spec.assignment) :
    1 ≤ p.2 ∧ p.2 ≤ 16 ∧ p.1 < 2 ^ p.2 := by
  have hmem := (List.of_mem_zip hp).2
  have hlen := len_of_mem_codeValues hmem
  have hbits := hfits.lengths
  exact ⟨hlen.1, by omega, hfits.fit p hmem⟩

/-- Two symbols' codes: one lies beyond the other. -/
theorem HuffSpec.Fits.beyond {a b : Byte} {p q : Nat × Nat} (hp : (a, p) ∈ spec.assignment) (hq : (b, q) ∈ spec.assignment)
    (hab : a ≠ b) : Beyond p q ∨ Beyond q p := by
  have hpair : spec.assignment.Pairwise fun x y => Beyond x.2 y.2 :=
    List.pairwise_map.1 (hfits.map_snd_assignment ▸ pairwise_codeValues spec.bits 1 0)
  have hsymm : Std.Symm fun x y : Byte × (Nat × Nat) => Beyond x.2 y.2 ∨ Beyond y.2 x.2 := ⟨fun _ _ h => h.symm⟩
  have hpair' : spec.assignment.Pairwise fun x y => Beyond x.2 y.2 ∨ Beyond y.2 x.2 := hpair.imp Or.inl
  exact hpair'.forall hp hq fun h => hab (congrArg Prod.fst h)

end

/-! ### Prefix codes (R242) -/

theorem length_codeBits (h : HuffCode) : (codeBits h).length = h.len := lowBits_length _ _

/-- The bits of a code that fits its length are its number. -/
theorem bitsToNat_codeBits {p : Nat × Nat} (hlen : p.2 ≤ 16) (hfit : p.1 < 2 ^ p.2) :
    bitsToNat (codeBits (codeOf p)) = p.1 := by
  rw [codeBits, bitsToNat_lowBits, codeOf_code_toNat hlen hfit]
  exact Nat.mod_eq_of_lt hfit

/-- Of two codes one of which lies beyond the other, neither begins with the other. -/
theorem not_prefix_of_beyond {p q : Nat × Nat} (hp : p.2 ≤ 16 ∧ p.1 < 2 ^ p.2) (hq : q.2 ≤ 16 ∧ q.1 < 2 ^ q.2)
    (h : Beyond p q) :
    ¬ codeBits (codeOf p) <+: codeBits (codeOf q) ∧ ¬ codeBits (codeOf q) <+: codeBits (codeOf p) := by
  obtain ⟨hlen, hcode⟩ := h
  constructor
  · intro hpre
    have hnum := bitsToNat_of_prefix hpre
    rw [bitsToNat_codeBits hp.1 hp.2, bitsToNat_codeBits hq.1 hq.2, length_codeBits, length_codeBits] at hnum
    have hle : p.1 + 1 ≤ q.1 / 2 ^ (q.2 - p.2) := (Nat.le_div_iff_mul_le (Nat.two_pow_pos _)).2 hcode
    exact absurd hnum (by simp only [codeOf]; omega)
  · intro hpre
    have hlen' := hpre.length_le
    have hnum := bitsToNat_of_prefix hpre
    rw [length_codeBits, length_codeBits] at hlen' hnum
    rw [bitsToNat_codeBits hp.1 hp.2, bitsToNat_codeBits hq.1 hq.2] at hnum
    simp only [codeOf] at hlen' hnum
    obtain heq : q.2 = p.2 := Nat.le_antisymm hlen' hlen
    rw [heq, Nat.sub_self, Nat.pow_zero, Nat.div_one] at hnum
    rw [heq, Nat.sub_self, Nat.pow_zero, Nat.mul_one] at hcode
    omega

/-- A code below the largest number of its length has a 0 bit (R242). -/
theorem false_mem_codeBits {p : Nat × Nat} (hlen : p.2 ≤ 16) (hfit : p.1 + 1 < 2 ^ p.2) : false ∈ codeBits (codeOf p) := by
  by_contra hnone
  have hones : codeBits (codeOf p) = List.replicate p.2 true := by
    refine List.eq_replicate_iff.2 ⟨length_codeBits _, fun b hb => ?_⟩
    cases b with
    | false => exact absurd hb hnone
    | true => rfl
  have hnum := bitsToNat_codeBits hlen (Nat.lt_of_succ_lt hfit)
  have hmax := bitsToNat_replicate_true p.2
  rw [hones] at hnum
  omega

/-- The codes of the standard specifications fit their lengths, and none is the largest number of its length. -/
theorem codeValues_huffSpec_fit (k : HuffClass) (t : TableId) :
    ∀ p ∈ codeValues (huffSpec k t).bits 1 0, p.1 + 1 < 2 ^ p.2 := by
  cases k <;> cases t <;> decide +kernel

theorem length_bits_huffSpec (k : HuffClass) (t : TableId) : (huffSpec k t).bits.length = 16 := by
  cases k <;> cases t <;> rfl

theorem huffSpec_fits (k : HuffClass) (t : TableId) : (huffSpec k t).Fits where
  lengths := (length_bits_huffSpec k t).le
  count := by cases k <;> cases t <;> decide +kernel
  distinct := by cases k <;> cases t <;> decide +kernel
  fit := fun p hp => Nat.lt_of_succ_lt (codeValues_huffSpec_fit k t p hp)

/-- As many symbols have a code of length `l + 1` as the histogram says (R242). -/
theorem HuffSpec.Fits.length_filter_len {spec : HuffSpec} (hfits : spec.Fits) (l : Nat) :
    (spec.vals.filter fun a => ((huffTable spec).symbol a.toNat).len = l + 1).length = spec.bits.getD l 0 := by
  have hlen : ∀ x ∈ spec.assignment,
      decide (((huffTable spec).symbol x.1.toNat).len = l + 1) = true ↔ (x.2.2 == l + 1) = true := by
    intro x hx
    rw [hfits.symbol_eq hx, decide_eq_true_iff, beq_iff_eq, codeOf]
  calc (spec.vals.filter fun a => ((huffTable spec).symbol a.toNat).len = l + 1).length
      = spec.assignment.countP fun x => ((huffTable spec).symbol x.1.toNat).len = l + 1 := by
        rw [← List.countP_eq_length_filter, ← hfits.map_fst_assignment, List.countP_map]
        rfl
    _ = spec.assignment.countP fun x => x.2.2 == l + 1 := List.countP_congr hlen
    _ = ((codeValues spec.bits 1 0).map (·.2)).count (1 + l) := by
        rw [← hfits.map_snd_assignment, List.map_map, List.count, List.countP_map, Nat.add_comm 1]
        rfl
    _ = spec.bits.getD l 0 := count_codeValues spec.bits 1 0 l

/-- Settles O50: of two canonical codes one lies beyond the other, so neither begins with the other. -/
theorem canonicalCodesAreAPrefixCode : Obligations.CanonicalCodesAreAPrefixCode := by
  refine ⟨fun k t => ⟨huffSpec_fits k t, fun a ha => ?_⟩, fun spec hfits => ⟨fun a ha => ?_, fun a ha b hb hab => ?_,
    fun l _ => hfits.length_filter_len l⟩⟩
  · have hfits := huffSpec_fits k t
    obtain ⟨p, hp⟩ := hfits.exists_mem_assignment ha
    rw [hfits.symbol_eq hp]
    exact false_mem_codeBits (hfits.bounds hp).2.1 (codeValues_huffSpec_fit k t p (List.of_mem_zip hp).2)
  · obtain ⟨p, hp⟩ := hfits.exists_mem_assignment ha
    obtain ⟨hpos, hlen, -⟩ := hfits.bounds hp
    rw [hfits.symbol_eq hp]
    exact ⟨hpos, hlen⟩
  · obtain ⟨p, hp⟩ := hfits.exists_mem_assignment ha
    obtain ⟨q, hq⟩ := hfits.exists_mem_assignment hb
    rw [hfits.symbol_eq hp, hfits.symbol_eq hq]
    rcases hfits.beyond hp hq hab with h | h
    · exact (not_prefix_of_beyond (hfits.bounds hp).2 (hfits.bounds hq).2 h).1
    · exact (not_prefix_of_beyond (hfits.bounds hq).2 (hfits.bounds hp).2 h).2

/-! ### BUILD_HT (R241) -/

theorem exec_buildHt (k : HuffClass) (t : TableId) (s : State) : exec (.buildHt k t) s =
    .next { s with huff := s.huff.set k ((s.huff.get k).set t (huffTable (huffSpec k t))) } := rfl

section
variable {spec : HuffSpec} (hfits : spec.Fits)
include hfits

theorem HuffSpec.Fits.code_toNat {a : Byte} {p : Nat × Nat} (hp : (a, p) ∈ spec.assignment) :
    ((huffTable spec).symbol a.toNat).code.toNat = p.1 := by
  obtain ⟨-, hlen, hfit⟩ := hfits.bounds hp
  rw [hfits.symbol_eq hp, codeOf_code_toNat hlen hfit]

/-- The first code is 0 (R241). -/
theorem HuffSpec.Fits.first_code (hpos : 0 < spec.vals.length) :
    ((huffTable spec).symbol (spec.vals.getD 0 0).toNat).code = 0 := by
  have hpos' : 0 < (codeValues spec.bits 1 0).length := hfits.length_codeValues ▸ hpos
  have hhead := head_codeValues spec.bits 1 0 _ (List.head?_eq_getElem? ▸ List.getElem?_eq_getElem hpos')
  refine BitVec.eq_of_toNat_eq ?_
  rw [hfits.code_toNat (HuffSpec.mem_assignment hpos hpos'), hhead.2, Nat.zero_mul]
  rfl

/-- The lengths are those the histogram counts off (R241). -/
theorem HuffSpec.Fits.code_len {j : Nat} (hj : j < spec.vals.length) :
    ((huffTable spec).symbol (spec.vals.getD j 0).toNat).len =
      ((List.range spec.bits.length).flatMap fun l => List.replicate (spec.bits.getD l 0) (l + 1)).getD j 0 := by
  have hj' : j < (codeValues spec.bits 1 0).length := hfits.length_codeValues ▸ hj
  have hlens := map_snd_codeValues spec.bits 1 0
  simp only [Nat.add_comm 1] at hlens
  rw [hfits.symbol_eq (HuffSpec.mem_assignment hj hj'), ← hlens,
    ← List.getElem_eq_getD (h := by rw [List.length_map]; exact hj'), List.getElem_map, codeOf]

/-- The next code is its predecessor plus 1, shifted left by the growth in length (R241). -/
theorem HuffSpec.Fits.next_code {j : Nat} (hj : j + 1 < spec.vals.length) :
    (let code (j : Nat) := (huffTable spec).symbol (spec.vals.getD j 0).toNat
     (code (j + 1)).code.toNat = ((code j).code.toNat + 1) * 2 ^ ((code (j + 1)).len - (code j).len)) := by
  have hj' : j + 1 < (codeValues spec.bits 1 0).length := hfits.length_codeValues ▸ hj
  have hp := HuffSpec.mem_assignment (Nat.lt_of_succ_lt hj) (Nat.lt_of_succ_lt hj')
  have hq := HuffSpec.mem_assignment hj hj'
  simp only
  rw [hfits.code_toNat hp, hfits.code_toNat hq, hfits.symbol_eq hp, hfits.symbol_eq hq]
  exact ((isChain_codeValues spec.bits 1 0).getElem j hj').2

end

/-- Settles O49: the table is the model's, whose codes are the canonical ones in the order of the list. -/
theorem buildHtAssignsCanonicalCodes : Obligations.BuildHtAssignsCanonicalCodes := by
  intro s k t
  have hfits := huffSpec_fits k t
  have hpos : 0 < (huffSpec k t).vals.length := by
    rw [hfits.count]
    cases k <;> cases t <;> decide
  have hlen := fun j => hfits.code_len (j := j)
  rw [length_bits_huffSpec] at hlen
  exact ⟨huffTable (huffSpec k t), exec_buildHt k t s, hfits.first_code hpos, hlen, fun j => hfits.next_code,
    fun _ => huffTable_symbol_of_not_mem⟩

end Sys2Proof.Machine
end

section
/-! PROOFS. The bit writer: the bits PUT_BITS and PAD_FINAL append, what OUT_BYTE and FLUSH transfer, and that FEED makes
transfers of full buffers only (O21, O55 to O58). -/

namespace Sys2Proof.Machine

/-! ### PUT_BITS (R270, R271) -/

/-- An append whose transfer, if it makes one, the sink accepts is a step. -/
theorem appendBits_next (v : BitVec 16) {n : Nat} (hn : n ≤ 16) {s : State} (hs : s.WriterReady)
    (ha : s.nextAnswer = .accepted) :
    ∃ t, (appendBits v n s).toOutcome = .next t ∧ WriterOnly s t ∧ t.WriterReady ∧ Appended s t (lowBits v n) := by
  obtain ⟨t, ht, -, happ, hbits⟩ := appendBits_accepted v hn ha (Sent.refl s) hs (by decide)
  exact ⟨t, congrArg Flow.toOutcome ht, happ.only, hbits.ready happ, hbits⟩

/-- Settles O55: the bits named in the statement are `lowBits`. -/
theorem putBitsAppendsTheLowBits : Obligations.PutBitsAppendsTheLowBits :=
  fun _ _ v hl hs ha => appendBits_next v hl hs ha

/-! ### Stuffing undone (R272) -/

/-- PUT_BITS takes at most one of the sink's answers. -/
theorem exec_putBits_accepted {l : BitVec 5} (v : BitVec 16) (hl : l.toNat ≤ 16) {s : State} {m : Nat} (hs : s.WriterReady)
    (ha : s.SinkAccepts (1 + m)) :
    ∃ t, exec (.putBits l v) s = .next t ∧ t.WriterReady ∧ t.SinkAccepts m ∧ Appended s t (lowBits v l.toNat) := by
  have htakes := (appendBits_writes (P := fun _ => True) v hl hs trivial).takes (by decide)
  obtain ⟨t, ht, hrest, -⟩ := htakes.accepted m ha
  have hends := htakes.ends
  rw [ht] at hends
  obtain ⟨hcoding, -, hbits⟩ := hends
  exact ⟨t, congrArg Flow.toOutcome ht, hcoding.ready hs, hrest, hbits⟩

/-- A sequence of PUT_BITS appends the bits of all of them, in order. -/
theorem execAll_putBits (appends : List (BitVec 5 × BitVec 16)) : ∀ {s : State}, (∀ p ∈ appends, p.1.toNat ≤ 16) →
    s.WriterReady → s.SinkAccepts appends.length →
    ∃ t, execAll (appends.map fun p => Instr.putBits p.1 p.2) s = .next t ∧
      Appended s t (appends.flatMap fun p => lowBits p.2 p.1.toNat) := by
  induction appends with
  | nil => exact fun {s} _ hs _ => ⟨s, rfl, .nil hs.1⟩
  | cons p rest ih =>
    intro s hlen hs ha
    rw [List.length_cons, Nat.add_comm] at ha
    obtain ⟨t, ht, hready, hrest, hbits⟩ := exec_putBits_accepted p.2 (hlen p List.mem_cons_self) hs ha
    obtain ⟨u, hu, hbits'⟩ := ih (fun q hq => hlen q (List.mem_cons_of_mem p hq)) hready hrest
    refine ⟨u, ?_, hbits.trans hbits'⟩
    rw [List.map_cons, execAll, ht]
    exact hu

/-- In stuffed data a 0x00 follows every 0xFF (R272). -/
theorem stuff_zero_after_ff (data : List Byte) :
    ∀ i, (stuff data)[i]? = some 0xFF#8 → (stuff data)[i + 1]? = some 0x00#8 := by
  induction data with
  | nil => exact fun i h => absurd h (by simp [stuff])
  | cons b data ih =>
    intro i h
    rw [stuff_cons] at h ⊢
    by_cases hb : b = 0xFF#8
    · rw [if_pos hb] at h ⊢
      match i with
      | 0 => rfl
      | 1 => exact absurd h (by simp)
      | i + 2 => exact ih i h
    · rw [if_neg hb] at h ⊢
      match i with
      | 0 => exact absurd (Option.some.inj h) hb
      | i + 1 => exact ih i h

/-- Settles O56: the new bytes of the stream are stuffed data bytes, and those hold all the bits but the pending ones. -/
theorem stuffingIsUndoneExactly : Obligations.StuffingIsUndoneExactly := by
  intro s appends hlen hs ha
  obtain ⟨t, ht, data, hbits, hpending, hstream⟩ := execAll_putBits appends hlen hs ha
  exact ⟨t, stuff data, ht, hstream, by rw [unstuff_stuff, hbits], hpending, fun i _ => stuff_zero_after_ff data i⟩

/-! ### PAD_FINAL (R278) -/

/-- Of the seven 1 bits, those past the byte boundary stay pending (R278). -/
theorem pad_rest {bits : List Bool} (h : bits.length < 8) {data : List Byte} {rest : List Bool} (hr : rest.length < 8)
    (e : bits ++ List.replicate 7 true = data.flatMap byteBits ++ rest) :
    rest = List.replicate (7 - (8 - bits.length) % 8) true := by
  rw [← pad_to_byte h hr e, List.append_assoc, List.append_cancel_left_eq] at e
  rw [← List.drop_replicate, e, List.drop_left' List.length_replicate]

/-- Settles O57: the pending bits and the pad hold no whole byte if nothing was pending, and one byte otherwise. -/
theorem padFinalEndsOnAByteBoundary : Obligations.PadFinalEndsOnAByteBoundary := by
  intro s hs ha
  obtain ⟨t, ht, honly, -, data, hbits, hpending, hstream⟩ := appendBits_next 0x7F#16 (n := 7) (by decide) hs ha
  rw [show lowBits 0x7F#16 7 = List.replicate 7 true by decide] at hbits
  have hbyte := pad_to_byte hs.1 hpending hbits
  have hrest := pad_rest hs.1 hpending hbits
  have hlen := congrArg List.length hbyte
  rw [List.length_append, List.length_replicate, flatMap_byteBits_length] at hlen
  refine ⟨t, ht, honly, fun hnil => ?_, fun hne => ?_⟩
  · rw [hnil] at hlen hrest
    obtain rfl : data = [] := List.length_eq_zero_iff.1 (by simpa using hlen)
    exact ⟨hrest, by rw [hstream]; exact List.append_nil _⟩
  · have hpos := List.length_pos_iff.2 hne
    have hlt := hs.1
    have hmod : (8 - s.acc.length) % 8 = 8 - s.acc.length := Nat.mod_eq_of_lt (by omega)
    rw [hmod] at hbyte hrest hlen
    obtain ⟨b, rfl⟩ : ∃ b, data = [b] := List.length_eq_one_iff.1 (by omega)
    refine ⟨?_, b, ?_, ?_⟩
    · rw [hrest, show 7 - (8 - s.acc.length) = s.acc.length - 1 by omega]
    · rw [hbyte, List.flatMap_singleton]
    · rw [hstream, stuff, List.flatMap_singleton]

/-! ### OUT_BYTE and FLUSH (R274, R276, R404, R456) -/

/-- After a transfer of `bytes`, all that was buffered, answered `ok`. -/
def State.sentBy (s : State) (bytes : List Byte) (ok : Bool) : State :=
  { s.consumeAnswer with ob := [], sinkLog := s.sinkLog ++ [⟨bytes, ok⟩] }

/-- `o` is the step that transfers `bytes` from `s`, by the sink's answer. -/
structure TransferStep (s : State) (bytes : List Byte) (o : Host.Outcome State Fault Refusal) : Prop where
  accepted : s.nextAnswer = .accepted → o = .next (s.sentBy bytes true)
  rejected : s.nextAnswer = .rejected → o = .next (raiseError .sinkWriteFailure (s.sentBy bytes false))
  silent : s.nextAnswer = .silent → o = .fault .sinkNeverAnswers

/-- A transfer that empties the buffer leaves the same state whatever was buffered before. -/
theorem logTransfer_sentBy (s : State) (bytes : List Byte) (ok : Bool) :
    { State.logTransfer { s with ob := bytes } bytes ok with ob := [] } = s.sentBy bytes ok := by
  unfold State.logTransfer State.sentBy State.consumeAnswer
  cases s.answers <;> rfl

/-- A flush of a buffer that is not empty transfers what is in it (R276). -/
theorem flushBuffer_transferStep (s : State) {bytes : List Byte} (h : bytes ≠ []) :
    TransferStep s bytes (flushBuffer { s with ob := bytes }).toOutcome := by
  have hnext : State.nextAnswer { s with ob := bytes } = s.nextAnswer := nextAnswer_congr rfl rfl
  rw [flushBuffer_eq, if_neg h, hnext]
  constructor <;> intro ha <;> simp only [ha, logTransfer_sentBy, Flow.toOutcome]

/-- A byte that does not fill the buffer is only buffered (R274). -/
theorem obAppend_room (b : Byte) {s : State} (h : s.ob.length + 1 < obSize) :
    obAppend b s = .going { s with ob := s.ob ++ [b] } :=
  if_neg (by rw [List.length_append, List.length_singleton]; exact Nat.ne_of_lt h)

/-- The byte that fills the buffer flushes it (R274). -/
theorem obAppend_fills (b : Byte) {s : State} (h : s.ob.length + 1 = obSize) :
    obAppend b s = flushBuffer { s with ob := s.ob ++ [b] } :=
  if_pos (by rw [List.length_append, List.length_singleton]; exact h)

/-- Settles O58: OUT_BYTE and FLUSH transfer what is buffered, by one rule. -/
theorem outputBufferFillsAndFlushes : Obligations.OutputBufferFillsAndFlushes := by
  intro s b _
  refine ⟨fun hroom => ?_, fun hfull => ?_, fun hnil => ?_, fun hne => ?_⟩
  · exact congrArg Flow.toOutcome (obAppend_room b hroom)
  · obtain ⟨hacc, hrej, hsil⟩ := flushBuffer_transferStep s (List.concat_ne_nil b s.ob)
    rw [← obAppend_fills b hfull] at hacc hrej hsil
    exact ⟨hacc, hrej, hsil⟩
  · show (flushBuffer s).toOutcome = _
    rw [flushBuffer_eq, if_pos hnil]
    rfl
  · obtain ⟨hacc, hrej, hsil⟩ := flushBuffer_transferStep s hne
    exact ⟨hacc, hrej, hsil⟩

/-! ### The transfers of FEED (R277) -/

/-- From `s` to `t` every transfer, a refused one too, was of a full buffer. -/
def OnlyFull (s t : State) : Prop :=
  ∃ sent : List Transfer, t.sinkLog = s.sinkLog ++ sent ∧ ∀ x ∈ sent, x.bytes.length = obSize

theorem OnlyFull.of_log_eq {s t : State} (h : t.sinkLog = s.sinkLog) : OnlyFull s t :=
  ⟨[], by rw [h, List.append_nil], fun _ hx => absurd hx List.not_mem_nil⟩

theorem OnlyFull.trans {s t u : State} (h : OnlyFull s t) (h' : OnlyFull t u) : OnlyFull s u := by
  obtain ⟨a, ha, ha'⟩ := h
  obtain ⟨b, hb, hb'⟩ := h'
  exact ⟨a ++ b, by rw [hb, ha, List.append_assoc], fun x hx => (List.mem_append.1 hx).elim (ha' x) (hb' x)⟩

theorem FullTransfers.onlyFull {s t : State} (h : FullTransfers s t) : OnlyFull s t := by
  obtain ⟨sent, hlog, hfull⟩ := h
  exact ⟨sent, hlog, fun x hx => (hfull x hx).2⟩

theorem CodingRaised.onlyFull {s t : State} (h : CodingRaised s t) : OnlyFull s t := by
  obtain ⟨u, -, rfl, sent, bytes, hlog, hsent, hlen, -⟩ := h
  refine ⟨sent ++ [⟨bytes, false⟩], by rw [raiseError_sinkLog, hlog, List.append_assoc], fun x hx => ?_⟩
  rcases List.mem_append.1 hx with hx | hx
  · exact (hsent x hx).2
  · rw [List.mem_singleton.1 hx]
    exact hlen

/-- An operation whose transfers are of full buffers, and which leaves room in the buffer when it goes on. -/
def Flow.SendsFull (x : Flow) (s : State) : Prop :=
  x.Ends (fun t => OnlyFull s t ∧ t.ob.length < obSize) (OnlyFull s) fun _ => True

theorem Flow.SendsFull.after {x : Flow} {s t : State} (hx : x.SendsFull t) (h : OnlyFull s t) : x.SendsFull s :=
  Flow.Ends.mono hx (fun _ hu => ⟨h.trans hu.1, hu.2⟩) (fun _ hu => h.trans hu) fun _ hf => hf

/-- A change of state that neither sends nor buffers. -/
theorem going_sendsFull {s t : State} (hs : s.ob.length < obSize) (hlog : t.sinkLog = s.sinkLog) (hob : t.ob = s.ob) :
    (Flow.going t).SendsFull s :=
  ⟨.of_log_eq hlog, hob ▸ hs⟩

theorem Flow.Codes.sendsFull {x : Flow} {s : State} (h : x.Codes s) : x.SendsFull s :=
  h.mono (fun _ ht => ⟨ht.sent.onlyFull, ht.room⟩) (fun _ ht => ht.onlyFull) fun _ hf => hf

theorem Flow.Rows.sendsFull {x : Flow} {s : State} (h : x.Rows s) (hs : s.ob.length < obSize) : x.SendsFull s :=
  h.mono (fun t ht => ⟨.of_log_eq (by rw [ht.1]), by rw [ht.1]; exact hs⟩) (fun _ hf => hf.elim) fun _ hf => hf

theorem finishRow_sendsFull {s : State} (hs : s.ob.length < obSize) : (finishRow s).SendsFull s := by
  unfold finishRow
  split
  · exact Flow.Ends.bind (uopProcessMcuRow_codes hs).sendsFull fun t ⟨hfull, hroom⟩ =>
      (going_sendsFull hroom rfl rfl).after hfull
  · exact going_sendsFull hs rfl rfl

/-- FEED flushes nothing itself: only the coding of a complete MCU row sends (R277, R350). -/
theorem cmdFeed_sendsFull {s : State} (hs : s.ob.length < obSize) : (cmdFeed s).SendsFull s := by
  unfold cmdFeed
  split
  · exact OnlyFull.of_log_eq (raiseError_sinkLog _ s)
  · refine runAll_ends _ (fun op hop t ⟨hfull, hroom⟩ => Flow.SendsFull.after ?_ hfull) s ⟨.of_log_eq rfl, hs⟩
    simp only [List.mem_cons, List.not_mem_nil, or_false] at hop
    rcases hop with rfl | rfl | rfl | rfl | rfl
    · exact (convertScanline_rows _ t).sendsFull hroom
    · exact (uopPadRight_rows _ t).sendsFull hroom
    · exact going_sendsFull hroom rfl rfl
    · exact finishRow_sendsFull hroom
    · exact going_sendsFull hroom rfl rfl

/-- Settles O21: FEED sends only full buffers, whether or not it ends in a refusal. -/
theorem feedTransfersOnlyFullBuffers : Obligations.FeedTransfersOnlyFullBuffers :=
  fun _ _ hs ht => (Flow.Ends.next (cmdFeed_sendsFull hs) ht).elim And.left id

end Sys2Proof.Machine
end

section
/-! PROOFS. The marker emitter: the bytes each segment appends to the output buffer (O59, O60). -/

namespace Sys2Proof.Machine

/-- Raw bytes are a step when the sink accepts their transfer, the only one that no more than a buffer of them make (R273,
R274). -/
theorem rawBytes_next {bs bytes : List Byte} (h : bs = bytes) (hn : bytes.length ≤ obSize) {s : State}
    (hs : s.ob.length < obSize) (ha : s.nextAnswer = .accepted) :
    ∃ t, (rawBytes bs s).toOutcome = .next t ∧ AppendedRaw s t bytes := by
  subst h
  obtain ⟨t, ht, -, happ, hacc, hstream⟩ := rawBytes_accepted bs ha (Sent.refl s) hs (by omega)
  exact ⟨t, congrArg Flow.toOutcome ht, happ.only, hacc, hstream, happ.room, happ.sent⟩

/-! ### The bytes of the segments -/

/-- A 16-bit field, most significant byte first (R85). -/
theorem be16_toNat (v : BitVec 16) : be16 v.toNat = [v.extractLsb' 8 8, v.extractLsb' 0 8] := by
  simp [be16, BitVec.extractLsb', Nat.shiftRight_eq_div_pow]

/-- The entry of each component follows the two dimensions (R305). -/
theorem sof0Bytes_eq (c : Conf) : sof0Bytes c =
    [0xFF, 0xC0, 0x00, if c.ss = .grayscale then 0x0B else 0x11, 0x08, c.h.extractLsb' 8 8, c.h.extractLsb' 0 8,
      c.w.extractLsb' 8 8, c.w.extractLsb' 0 8] ++
    match c.ss with
    | .grayscale => [0x01, 0x01, 0x11, 0x00]
    | .s444 => [0x03, 0x01, 0x11, 0x00, 0x02, 0x11, 0x01, 0x03, 0x11, 0x01]
    | .s422 => [0x03, 0x01, 0x21, 0x00, 0x02, 0x11, 0x01, 0x03, 0x11, 0x01]
    | .s420 => [0x03, 0x01, 0x22, 0x00, 0x02, 0x11, 0x01, 0x03, 0x11, 0x01] := by
  rw [sof0Bytes, be16_toNat, be16_toNat]
  cases c.ss <;> rfl

theorem sosBytes_eq (ss : Subsamp) : sosBytes ss =
    if ss = .grayscale then [0xFF, 0xDA, 0x00, 0x08, 0x01, 0x01, 0x00, 0x00, 0x3F, 0x00]
    else [0xFF, 0xDA, 0x00, 0x0C, 0x03, 0x01, 0x00, 0x02, 0x11, 0x03, 0x11, 0x00, 0x3F, 0x00] := by
  cases ss <;> rfl

theorem dqtBytes_eq (t : TableId) (table : Vector Byte 64) : dqtBytes t table =
    [0xFF, 0xDB, 0x00, 0x43, if t = .luma then 0x00 else 0x01] ++ table.toList := by
  cases t <;> rfl

/-- The symbols of the standard tables: 12 DC categories, 162 AC run/size pairs (R240). -/
theorem length_vals_huffSpec (k : HuffClass) (t : TableId) : (huffSpec k t).vals.length = if k = .dc then 12 else 162 := by
  cases k <;> cases t <;> rfl

theorem dhtBytes_eq (k : HuffClass) (t : TableId) : dhtBytes k t =
    [0xFF, 0xC4, 0x00, if k = .dc then 0x1F else 0xB5,
      (if k = .dc then 0x00 else 0x10) + (if t = .luma then 0x00 else 0x01)] ++
      (huffSpec k t).bits.map (BitVec.ofNat 8) ++ (huffSpec k t).vals := by
  rw [dhtBytes, length_vals_huffSpec]
  generalize huffSpec k t = spec
  cases k <;> cases t <;> rfl

/-! ### The segments as steps -/

/-- Settles O59: each segment is raw bytes, fewer than a buffer. -/
theorem emitFixedAndFrameSegments : Obligations.EmitFixedAndFrameSegments := by
  intro s hs ha
  refine ⟨rawBytes_next (bs := soiBytes) rfl (by decide) hs ha, rawBytes_next (bs := app0Bytes) rfl (by decide) hs ha,
    rawBytes_next (sof0Bytes_eq s.conf) ?_ hs ha, rawBytes_next (sosBytes_eq s.conf.ss) ?_ hs ha,
    rawBytes_next (bs := eoiBytes) rfl (by decide) hs ha⟩
  all_goals cases s.conf.ss <;> simp [obSize]

/-- Settles O60: each segment is raw bytes, fewer than a buffer. -/
theorem emitTableSegments : Obligations.EmitTableSegments := by
  intro s k t hs ha
  refine ⟨rawBytes_next (dqtBytes_eq t _) ?_ hs ha, rawBytes_next (dhtBytes_eq k t) ?_ hs ha⟩
  · simp [obSize]
  · cases k <;> simp [length_bits_huffSpec, length_vals_huffSpec, obSize]

end Sys2Proof.Machine
end

section
/-! PROOFS. What an image depends on: operations run from two states that are alike in the samples they read, the tables, the
predictors and the bit writer make the same transfers and end in states alike again. -/

namespace Sys2Proof.Machine

/-! ### States alike in the middle of a command -/

/-- `s` with `n` rows counted as buffered. -/
abbrev State.withRows (s : State) (n : Nat) : State := { s with rows := n }

/-- In the middle of a command that began in `s₀`, and in `s₀'`: `s` and `s'` are alike as images, with the rows below `n`
compared, which are the rows buffered and those padded below them, and the same transfers were made so far. -/
structure Alike (s₀ s₀' : State) (n : Nat) (s s' : State) : Prop where
  image : SameImage (s.withRows n) (s'.withRows n)
  rows : s'.rows = s.rows
  rows_le : s.rows ≤ n
  conf : s.conf = s₀.conf
  transfers : SameTransfers s₀ s s₀' s'

/-- At the end of a command: the states are alike as images, and what was sent and is reported is the same. -/
def EndsAlike (s₀ s₀' s s' : State) : Prop :=
  SameImage s s' ∧ SameTransfers s₀ s s₀' s' ∧ s'.result = s.result ∧ s'.err = s.err

/-- Unless `x` faults, `x'` ends as it does: going on in a state related by `G`, or in the report of the same error. -/
structure Flow.Agrees (s₀ s₀' : State) (G : State → State → Prop) (x x' : Flow) : Prop where
  ends : x.Ends (fun s => ∃ s', x' = .going s' ∧ G s s') (fun s => ∃ s', x' = .raised s' ∧ EndsAlike s₀ s₀' s s') fun _ => True

theorem SameTransfers.refl (s s' : State) : SameTransfers s s s' s' :=
  ⟨[], (List.append_nil _).symm, (List.append_nil _).symm⟩

theorem SameImage.alike {s s' : State} (h : SameImage s s') : Alike s s' s.rows s s' := by
  refine ⟨?_, h.rows, Nat.le_refl _, rfl, .refl s s'⟩
  unfold State.withRows
  exact { h with rows := rfl }

section
variable {s₀ s₀' s s' : State} {n : Nat} {G G' : State → State → Prop}

theorem Flow.agrees_going (h : G s s') : (Flow.going s).Agrees s₀ s₀' G (.going s') := ⟨s', rfl, h⟩

theorem Flow.agrees_raised (h : EndsAlike s₀ s₀' s s') : (Flow.raised s).Agrees s₀ s₀' G (.raised s') := ⟨s', rfl, h⟩

theorem Flow.agrees_fault (f : Fault) (x : Flow) : (Flow.fault f).Agrees s₀ s₀' G x := ⟨trivial⟩

theorem Flow.Agrees.mono {x x' : Flow} (h : x.Agrees s₀ s₀' G x') (hG : ∀ s s', G s s' → G' s s') :
    x.Agrees s₀ s₀' G' x' :=
  ⟨h.ends.mono (fun s ⟨s', hx, hs⟩ => ⟨s', hx, hG s s' hs⟩) (fun _ h => h) fun _ h => h⟩

theorem Flow.Agrees.bind {x x' : Flow} {k k' : State → Flow} (h : x.Agrees s₀ s₀' G x')
    (hk : ∀ s s', G s s' → (k s).Agrees s₀ s₀' G' (k' s')) : (x.bind k).Agrees s₀ s₀' G' (x'.bind k') := by
  cases x with
  | going s =>
    obtain ⟨s', rfl, hs⟩ := h.ends
    exact hk s s' hs
  | raised s =>
    obtain ⟨s', rfl, hs⟩ := h.ends
    exact Flow.agrees_raised hs
  | fault f => exact Flow.agrees_fault f _

theorem runAll_agrees {ops : List (State → Flow)} (h : ∀ op ∈ ops, ∀ s s', G s s' → (op s).Agrees s₀ s₀' G (op s')) :
    ∀ s s', G s s' → (runAll ops s).Agrees s₀ s₀' G (runAll ops s') := by
  induction ops with
  | nil => exact fun s s' hs => Flow.agrees_going hs
  | cons op ops ih =>
    exact fun s s' hs => (h op (by simp) s s' hs).bind (ih fun o ho => h o (by simp [ho]))

theorem Flow.Agrees.cons {op : State → Flow} {ops : List (State → Flow)} (h : (op s).Agrees s₀ s₀' G (op s'))
    (hops : ∀ t t', G t t' → (runAll ops t).Agrees s₀ s₀' G' (runAll ops t')) :
    (runAll (op :: ops) s).Agrees s₀ s₀' G' (runAll (op :: ops) s') :=
  h.bind hops

/-- Two operations that agree keep what the frame of each says it keeps. -/
theorem Flow.Agrees.frame {A : State → State → Prop} {x x' : Flow} (h : x.Agrees s₀ s₀' G x') (hx : x.Frame A s)
    (hx' : x'.Frame A s') : x.Agrees s₀ s₀' (fun t t' => G t t' ∧ A s t ∧ A s' t') x' := by
  cases x with
  | going t =>
    obtain ⟨t', rfl, ht⟩ := h.ends
    exact Flow.agrees_going ⟨ht, hx, hx'⟩
  | raised t => exact ⟨h.ends⟩
  | fault f => exact Flow.agrees_fault f _

/-- The step that ends a command makes the same step from the other state. -/
theorem Flow.Agrees.next {x x' : Flow} (h : x.Agrees s₀ s₀' (EndsAlike s₀ s₀') x') {t : State} (ht : x.toOutcome = .next t) :
    ∃ t', x'.toOutcome = .next t' ∧ EndsAlike s₀ s₀' t t' := by
  rcases h.ends.next ht with ⟨t', rfl, h'⟩ | ⟨t', rfl, h'⟩
  all_goals exact ⟨t', rfl, h'⟩

/-! ### What alike states share, and the changes that keep them alike -/

theorem Alike.confs (h : Alike s₀ s₀' n s s') : s'.conf = s.conf := h.image.conf

/-- The samples below row `n` read alike. -/
theorem Alike.sample (h : Alike s₀ s₀' n s s') {c : Comp} (hc : c ∈ s.conf.ss.comps) {r x : Nat} (hr : r < n)
    (hx : x < s.conf.wpad) : s'.sample c r x = s.sample c r x := by
  have hepoch : s'.epoch = s.epoch := h.image.epoch
  have hst : s'.stored c r x = s.stored c r x := h.image.samples c hc r x hr hx
  rw [sample_eq, sample_eq, hst, hepoch]

theorem Alike.setAcc (h : Alike s₀ s₀' n s s') (bits : List Bool) :
    Alike s₀ s₀' n { s with acc := bits } { s' with acc := bits } :=
  ⟨{ h.image with acc := rfl }, h.rows, h.rows_le, h.conf, h.transfers⟩

theorem Alike.setOb (h : Alike s₀ s₀' n s s') (bs : List Byte) :
    Alike s₀ s₀' n { s with ob := bs } { s' with ob := bs } :=
  ⟨{ h.image with ob := rfl }, h.rows, h.rows_le, h.conf, h.transfers⟩

theorem Alike.setPred (h : Alike s₀ s₀' n s s') (p : PerComp Int) :
    Alike s₀ s₀' n { s with pred := p } { s' with pred := p } :=
  ⟨{ h.image with pred := rfl }, h.rows, h.rows_le, h.conf, h.transfers⟩

/-- The transient state of each block does not enter. -/
theorem Alike.setTransient (h : Alike s₀ s₀' n s s') {a p z a' p' z' : Block} {i j k i' j' k' : Nat} :
    Alike s₀ s₀' n { s with blkS := a, blkP := p, blkZ := z, run := i, mcuIndex := j, blockIndex := k }
      { s' with blkS := a', blkP := p', blkZ := z', run := i', mcuIndex := j', blockIndex := k' } :=
  ⟨{ h.image with }, h.rows, h.rows_le, h.conf, h.transfers⟩

theorem Alike.logTransfer (h : Alike s₀ s₀' n s s') (bs : List Byte) (ok : Bool) :
    Alike s₀ s₀' n (s.logTransfer bs ok) (s'.logTransfer bs ok) := by
  have hans : s'.answers = s.answers := h.image.answers
  have hdraws : s'.draws = s.draws := h.image.draws
  obtain ⟨sent, hlog, hlog'⟩ := h.transfers
  have htr : SameTransfers s₀ (s.logTransfer bs ok) s₀' (s'.logTransfer bs ok) :=
    ⟨sent ++ [⟨bs, ok⟩], by rw [logTransfer_sinkLog, hlog, List.append_assoc],
      by rw [logTransfer_sinkLog, hlog', List.append_assoc]⟩
  refine ⟨?_, by simpa using h.rows, by simpa using h.rows_le, by simpa using h.conf, htr⟩
  unfold State.logTransfer State.consumeAnswer
  rw [hans]
  cases s.answers with
  | nil => exact { h.image with answers := rfl, draws := congrArg (· + 1) hdraws }
  | cons a rest => exact { h.image with answers := rfl }

/-- A refused transfer leaves no row to compare (R404). -/
theorem Alike.raise_sinkWriteFailure (h : Alike s₀ s₀' n s s') :
    EndsAlike s₀ s₀' (raiseError .sinkWriteFailure s) (raiseError .sinkWriteFailure s') :=
  ⟨{ h.image with ctl := rfl, rows := rfl, samples := fun _ _ _ _ hr => absurd hr (Nat.not_lt_zero _) }, h.transfers, rfl, rfl⟩

/-- Setting `ROWS`, to no more rows than are alike. -/
theorem Alike.setRows (h : Alike s₀ s₀' n s s') {m : Nat} (hm : m ≤ n) :
    Alike s₀ s₀' n { s with rows := m } { s' with rows := m } :=
  ⟨{ h.image with }, rfl, hm, h.conf, h.transfers⟩

theorem Alike.setCtl (h : Alike s₀ s₀' n s s') (ctl : CtlState) :
    Alike s₀ s₀' n { s with ctl := ctl } { s' with ctl := ctl } :=
  ⟨{ h.image with ctl := rfl }, h.rows, h.rows_le, h.conf, h.transfers⟩

/-- The last operation of FEED and FINISH. -/
theorem Alike.succeed (h : Alike s₀ s₀' n s s') : EndsAlike s₀ s₀' s.succeed s'.succeed :=
  ⟨{ h.image with
      rows := h.rows, samples := fun c hc r x hr hx => h.image.samples c hc r x (Nat.lt_of_lt_of_le hr h.rows_le) hx },
    h.transfers, rfl, rfl⟩

theorem SameImage.raiseError (h : SameImage s s') (e : ErrCode) : EndsAlike s s' (raiseError e s) (raiseError e s') := by
  cases e with
  | sinkWriteFailure => exact h.alike.raise_sinkWriteFailure
  | none | invalidParameters | allocationFailure | illegalCommand | badState =>
    exact ⟨{ h with }, .refl s s', rfl, rfl⟩

/-! ### The bit writer -/

theorem flushBuffer_agrees (h : Alike s₀ s₀' n s s') :
    (flushBuffer s).Agrees s₀ s₀' (Alike s₀ s₀' n) (flushBuffer s') := by
  have hob : s'.ob = s.ob := h.image.ob
  have hnext : s'.nextAnswer = s.nextAnswer := nextAnswer_congr h.image.answers h.image.draws
  rw [flushBuffer_eq, flushBuffer_eq, hob, hnext]
  split
  · exact Flow.agrees_going h
  · cases s.nextAnswer with
    | accepted => exact Flow.agrees_going ((h.logTransfer _ _).setOb _)
    | rejected => exact Flow.agrees_raised ((h.logTransfer _ _).setOb _).raise_sinkWriteFailure
    | silent => exact Flow.agrees_fault _ _

theorem obAppend_agrees (b : Byte) (h : Alike s₀ s₀' n s s') :
    (obAppend b s).Agrees s₀ s₀' (Alike s₀ s₀' n) (obAppend b s') := by
  have hob : s'.ob = s.ob := h.image.ob
  unfold obAppend
  simp only [hob]
  split
  · exact flushBuffer_agrees (h.setOb _)
  · exact Flow.agrees_going (h.setOb _)

theorem rawBytes_agrees (bs : List Byte) (h : Alike s₀ s₀' n s s') :
    (rawBytes bs s).Agrees s₀ s₀' (Alike s₀ s₀' n) (rawBytes bs s') := by
  refine runAll_agrees (fun op hop t t' ht => ?_) s s' h
  obtain ⟨b, -, rfl⟩ := List.mem_map.1 hop
  exact obAppend_agrees b ht

theorem stuffedByte_agrees (b : Byte) (h : Alike s₀ s₀' n s s') :
    (stuffedByte b s).Agrees s₀ s₀' (Alike s₀ s₀' n) (stuffedByte b s') := by
  refine (obAppend_agrees b h).bind fun t t' ht => ?_
  split
  · exact obAppend_agrees _ ht
  · exact Flow.agrees_going ht

theorem drainBits_agrees (bits : List Bool) : ∀ {s s' : State}, Alike s₀ s₀' n s s' →
    (drainBits bits s).Agrees s₀ s₀' (Alike s₀ s₀' n) (drainBits bits s') := by
  induction bits using octets_induct with
  | full b7 b6 b5 b4 b3 b2 b1 b0 rest ih =>
    exact fun h => (stuffedByte_agrees _ (h.setAcc rest)).bind fun _ _ ht => ih ht
  | few bits hfew =>
    intro s s' h
    rw [drainBits_few hfew, drainBits_few hfew]
    exact Flow.agrees_going (h.setAcc bits)

theorem appendBits_agrees (v : BitVec 16) (k : Nat) (h : Alike s₀ s₀' n s s') :
    (appendBits v k s).Agrees s₀ s₀' (Alike s₀ s₀' n) (appendBits v k s') := by
  have hacc : s'.acc = s.acc := h.image.acc
  unfold appendBits
  split
  · exact Flow.agrees_fault _ _
  · split
    · exact Flow.agrees_going h
    · rw [hacc]
      exact drainBits_agrees _ h

/-! ### The entropy coder -/

theorem emitSymbol_agrees (k : HuffClass) (tb : TableId) (sym : Nat) (h : Alike s₀ s₀' n s s') :
    (emitSymbol k tb sym s).Agrees s₀ s₀' (Alike s₀ s₀' n) (emitSymbol k tb sym s') := by
  have hcode : s'.huffCode k tb sym = s.huffCode k tb sym := huffCode_congr h.image.huff k tb sym
  unfold emitSymbol
  simp only [hcode]
  split
  · exact Flow.agrees_fault _ _
  · exact appendBits_agrees _ _ h

theorem codeDiff_agrees (tb : TableId) (diff : Int) (h : Alike s₀ s₀' n s s') :
    (codeDiff tb diff s).Agrees s₀ s₀' (Alike s₀ s₀' n) (codeDiff tb diff s') := by
  refine (emitSymbol_agrees .dc tb _ h).bind fun t t' ht => ?_
  split
  · exact appendBits_agrees _ _ ht
  · exact Flow.agrees_going ht

/-- Alike, and with the same transient value `v` of the block being coded. -/
def AlikeIn (s₀ s₀' : State) (n : Nat) {α : Type} (v : State → α) (s s' : State) : Prop :=
  Alike s₀ s₀' n s s' ∧ v s' = v s

theorem uopEncDc_agrees (c : Comp) (tb : TableId) (h : AlikeIn s₀ s₀' n State.blkZ s s') :
    (uopEncDc c tb s).Agrees s₀ s₀' (AlikeIn s₀ s₀' n State.blkZ) (uopEncDc c tb s') := by
  obtain ⟨h, hz⟩ := h
  have hpred : s'.pred = s.pred := h.image.pred
  have hz0 : s'.blkZ[0] = s.blkZ[0] := by rw [hz]
  unfold uopEncDc
  rw [hz0, hpred]
  refine ((codeDiff_agrees tb _ (h.setPred _)).frame (codeDiff_frame _ _ _) (codeDiff_frame _ _ _)).mono
    fun t t' ⟨ht, hw, hw'⟩ => ⟨ht, ?_⟩
  rw [hw.blkZ, hw'.blkZ]
  exact hz

theorem codeZrl_agrees (tb : TableId) (h : AlikeIn s₀ s₀' n State.run s s') :
    (codeZrl tb s).Agrees s₀ s₀' (AlikeIn s₀ s₀' n State.run) (codeZrl tb s') := by
  refine ((emitSymbol_agrees .ac tb 0xF0 h.1).frame (emitSymbol_frame _ _ _ _) (emitSymbol_frame _ _ _ _)).bind
    fun t t' ⟨ht, hw, hw'⟩ => Flow.agrees_going ⟨ht.setTransient, ?_⟩
  show t'.run - 16 = t.run - 16
  rw [hw.run, hw'.run, h.2]

theorem codeAc_agrees (tb : TableId) (v : Int) (h : AlikeIn s₀ s₀' n State.run s s') :
    (codeAc tb v s).Agrees s₀ s₀' (AlikeIn s₀ s₀' n State.run) (codeAc tb v s') := by
  have hrun : s'.run = s.run := h.2
  unfold codeAc
  split
  · exact Flow.agrees_going ⟨h.1.setTransient, congrArg (· + 1) hrun⟩
  · rw [hrun]
    refine (runAll_agrees (fun op hop t t' ht => ?_) s s' h).bind fun t t' ⟨ht, hr⟩ => ?_
    · rw [List.eq_of_mem_replicate hop]
      exact codeZrl_agrees tb ht
    · rw [show t'.run = t.run from hr]
      exact (emitSymbol_agrees _ _ _ ht).bind fun u u' hu => (appendBits_agrees _ _ hu).bind fun w w' hw =>
        Flow.agrees_going ⟨hw.setTransient, rfl⟩

theorem uopEncAc_agrees (tb : TableId) (h : AlikeIn s₀ s₀' n State.blkZ s s') :
    (uopEncAc tb s).Agrees s₀ s₀' (Alike s₀ s₀' n) (uopEncAc tb s') := by
  obtain ⟨h, hz⟩ := h
  unfold uopEncAc
  rw [hz]
  refine (runAll_agrees (G := AlikeIn s₀ s₀' n State.run) (fun op hop t t' ht => ?_) _ _
    ⟨h.setTransient, rfl⟩).bind fun t t' ⟨ht, hr⟩ => ?_
  · obtain ⟨v, -, rfl⟩ := List.mem_map.1 hop
    exact codeAc_agrees tb v ht
  · unfold codeEob
    rw [show t'.run = t.run from hr]
    split
    · exact emitSymbol_agrees _ _ _ ht
    · exact Flow.agrees_going ht

/-! ### An MCU row -/

/-- The samples a block is made of: components in use, rows below `n`, columns of the padded width (R174). -/
def BlockLoad.Reads (conf : Conf) (n : Nat) : BlockLoad → Prop
  | .full c br bc => c ∈ conf.ss.comps ∧ 8 * br + 8 ≤ n ∧ 8 * bc + 8 ≤ conf.wpad
  | .h2v1 c mx => c ∈ conf.ss.comps ∧ 8 ≤ n ∧ 16 * mx + 16 ≤ conf.wpad
  | .h2v2 c mx => c ∈ conf.ss.comps ∧ 16 ≤ n ∧ 16 * mx + 16 ≤ conf.wpad

/-- The blocks of an MCU row read nothing outside its rows and the padded width (R353). -/
theorem blockOrder_reads (conf : Conf) {mx : Nat} (hmx : mx < conf.nmcux) (hn : conf.ss.mcuH ≤ n) :
    ∀ b ∈ blockOrder conf.ss mx, b.Reads conf n := by
  have hw : conf.ss.mcuW * (mx + 1) ≤ conf.wpad := by
    rw [wpad_eq]
    exact Nat.mul_le_mul_left _ hmx
  intro b hb
  cases hss : conf.ss <;> rw [hss] at hb hw hn <;>
    simp only [blockOrder, Subsamp.mcuW, Subsamp.mcuH, List.mem_cons, List.not_mem_nil, or_false] at hb hw hn
  case grayscale =>
    subst hb
    simp [BlockLoad.Reads, hss, Subsamp.comps]
    omega
  case s444 => rcases hb with rfl | rfl | rfl <;> simp [BlockLoad.Reads, hss, Subsamp.comps] <;> omega
  case s422 => rcases hb with rfl | rfl | rfl | rfl <;> simp [BlockLoad.Reads, hss, Subsamp.comps] <;> omega
  case s420 => rcases hb with rfl | rfl | rfl | rfl | rfl | rfl <;> simp [BlockLoad.Reads, hss, Subsamp.comps] <;> omega

theorem blockOf_congr {f g : Nat → Nat → Int} (h : ∀ i < 8, ∀ j < 8, f i j = g i j) : blockOf f = blockOf g := by
  unfold blockOf
  congr 1
  funext k
  exact h _ (by omega) _ (by omega)

/-- Alike states load the same block. -/
theorem Alike.sampleBlock (h : Alike s₀ s₀' n s s') {b : BlockLoad} (hb : b.Reads s.conf n) :
    s'.sampleBlock b = s.sampleBlock b := by
  have hcfg : s'.cfg = s.cfg := h.image.cfg
  have hs {c : Comp} (hc : c ∈ s.conf.ss.comps) {r x : Nat} (hr : r < n) (hx : x < s.conf.wpad) :
      s'.sampleInt c r x = s.sampleInt c r x := by
    unfold State.sampleInt
    rw [h.sample hc hr hx]
  cases b with
  | full c br bc =>
    obtain ⟨hc, hr, hx⟩ := hb
    refine blockOf_congr fun i hi j hj => ?_
    unfold fullSample
    rw [hs hc (by omega) (by omega)]
  | h2v1 c mx =>
    obtain ⟨hc, hr, hx⟩ := hb
    refine blockOf_congr fun i hi j hj => ?_
    simp only [pairAverage, hcfg]
    rw [hs hc (by omega) (by omega), hs hc (by omega) (by omega)]
  | h2v2 c mx =>
    obtain ⟨hc, hr, hx⟩ := hb
    refine blockOf_congr fun i hi j hj => ?_
    simp only [quadAverage]
    rw [hs hc (by omega) (by omega), hs hc (by omega) (by omega), hs hc (by omega) (by omega), hs hc (by omega) (by omega)]

/-- A load outside the row buffer stops (R50). -/
theorem load_outside {b : BlockLoad} (h : ¬ b.inside s.cfg) : b.run s = .fault .outsideRowBuffer := by
  cases b with
  | full c br bc => exact if_neg (mt (hasSamples_iff _ _ _).1 h)
  | h2v1 c mx => exact if_neg (mt (hasSamples_iff _ _ _).1 fun hs => h hs.2)
  | h2v2 c mx => exact if_neg (mt (hasSamples_iff _ _ _).1 fun hs => h hs.2)

theorem load_agrees {b : BlockLoad} (hb : b.Reads s.conf n) (h : Alike s₀ s₀' n s s') :
    (b.run s).Agrees s₀ s₀' (AlikeIn s₀ s₀' n State.blkS) (b.run s') := by
  by_cases hin : b.inside s.cfg
  · have hcfg : s'.cfg = s.cfg := h.image.cfg
    rw [load_run hin, load_run (by rw [hcfg]; exact hin)]
    exact Flow.agrees_going ⟨h.setTransient, h.sampleBlock hb⟩
  · rw [load_outside hin]
    exact Flow.agrees_fault _ _

theorem uopFdct_agrees (h : AlikeIn s₀ s₀' n State.blkS s s') :
    (uopFdct s).Agrees s₀ s₀' (AlikeIn s₀ s₀' n State.blkP) (uopFdct s') :=
  Flow.agrees_going ⟨h.1.setTransient, congrArg forwardDct h.2⟩

theorem uopQuantZz_agrees (tb : TableId) (h : AlikeIn s₀ s₀' n State.blkP s s') :
    (uopQuantZz tb s).Agrees s₀ s₀' (AlikeIn s₀ s₀' n State.blkZ) (uopQuantZz tb s') := by
  have hqt : s'.qt = s.qt := h.1.image.qt
  refine Flow.agrees_going ⟨h.1.setTransient, ?_⟩
  show quantBlock s'.blkP (s'.qt.get tb) = quantBlock s.blkP (s.qt.get tb)
  rw [h.2, hqt]

theorem codeBlock_agrees (mx i : Nat) {b : BlockLoad} (hb : b.Reads s.conf n) (h : Alike s₀ s₀' n s s') :
    (codeBlock mx (b, i) s).Agrees s₀ s₀' (Alike s₀ s₀' n) (codeBlock mx (b, i) s') := by
  unfold codeBlock
  exact .cons (load_agrees hb h.setTransient) fun _ _ ht => .cons (uopFdct_agrees ht) fun _ _ ht =>
    .cons (uopQuantZz_agrees _ ht) fun _ _ ht => .cons (uopEncDc_agrees _ _ ht) fun _ _ ht =>
      .cons (uopEncAc_agrees _ ht) fun _ _ ht => Flow.agrees_going ht

theorem codeMcu_agrees {mx : Nat} (hmx : mx < s₀.conf.nmcux) (hn : s₀.conf.ss.mcuH ≤ n) (h : Alike s₀ s₀' n s s') :
    (codeMcu mx s).Agrees s₀ s₀' (Alike s₀ s₀' n) (codeMcu mx s') := by
  unfold codeMcu
  rw [h.confs, h.conf]
  refine runAll_agrees (fun op hop t t' ht => ?_) s s' h
  obtain ⟨⟨b, i⟩, hb, rfl⟩ := List.mem_map.1 hop
  refine codeBlock_agrees mx i ?_ ht
  rw [ht.conf]
  exact blockOrder_reads _ hmx hn b (List.fst_mem_of_mem_zipIdx hb)

/-- An MCU row whose rows are all alike is coded alike (R356). -/
theorem uopProcessMcuRow_agrees (hn : s₀.conf.ss.mcuH ≤ n) (h : Alike s₀ s₀' n s s') :
    (uopProcessMcuRow s).Agrees s₀ s₀' (Alike s₀ s₀' n) (uopProcessMcuRow s') := by
  unfold uopProcessMcuRow
  rw [h.confs, h.conf]
  refine runAll_agrees (fun op hop t t' ht => ?_) s s' h
  obtain ⟨mx, hmx, rfl⟩ := List.mem_map.1 hop
  exact codeMcu_agrees (List.mem_range.1 hmx) hn ht

end
end Sys2Proof.Machine
end

section
/-! PROOFS. FEED, FINISH and INIT from two states that are alike in what they read (O22, O23). -/

namespace Sys2Proof.Machine

/-! ### Commands turned away (R340, R368, R404) -/

theorem cmdFeed_rejected {s : State} {e : ErrCode} (h : s.ctl.rejects = some e) : cmdFeed s = .raised (raiseError e s) := by
  unfold cmdFeed
  rw [h]

theorem cmdFinish_rejected {s : State} {e : ErrCode} (h : s.ctl.rejects = some e) : cmdFinish s = .raised (raiseError e s) := by
  unfold cmdFinish
  rw [h]

/-- INIT raises what its checks answer, from the state it has torn down (R340, R404). -/
theorem cmdInit_raised {s : State} {e : ErrCode} (h : validate s.teardown = .error e) :
    cmdInit s = .raised (raiseError e s.teardown) := by
  unfold cmdInit
  rw [h]

section
variable {s₀ s₀' s s' : State} {n : Nat}

/-! ### FEED (R350) -/

/-- A change of the row buffer alone that makes the rows below `m` alike. -/
theorem Alike.of_rbOnly (h : Alike s₀ s₀' n s s') {t t' : State} (ht : RbOnly s t) (ht' : RbOnly s' t') {m : Nat}
    (hm : s.rows ≤ m) (hst : ∀ c ∈ s.conf.ss.comps, ∀ r x, r < m → x < s.conf.wpad → t'.stored c r x = t.stored c r x) :
    Alike s₀ s₀' m t t' := by
  unfold RbOnly at ht ht'
  rw [ht, ht']
  rw [ht, ht'] at hst
  exact ⟨{ h.image with rows := rfl, samples := hst }, h.rows, hm, h.conf, h.transfers⟩

/-- A scanline that was buffered came from a written source and fits the row buffer. -/
theorem feedRow_ends_inside (s : State) : (runAll [convertScanline s.rows, uopPadRight s.rows] s).Ends
    (fun _ => s.rows < 16 ∧ s.conf.wpad ≤ s.cfg.maxPaddedWidth ∧ s.SourceWritten (s.conf.ch.bytes * s.conf.w.toNat))
    (fun _ => False) fun _ => True := by
  rw [runAll_two, convertScanline_eq]
  refine ((convertRow_ends s.conf.ss.comps s.conf.ch s.rows s).mono (fun _ h => h) (fun _ h => h) fun _ _ => trivial).bind
    fun t ⟨hrb, hr, _, hsrc, _⟩ => ?_
  unfold uopPadRight
  simp only
  split
  · rename_i hin
    have hw := ((hasSamples_iff _ _ _).1 hin).2
    rw [hrb] at hw
    exact ⟨hr, hw, hsrc⟩
  · trivial

/-- The converted samples depend on the scanline and the configuration alone (R150 to R154). -/
theorem SameImage.converted (h : SameImage s s') (c : Comp) (x : Nat) : s'.converted c x = s.converted c x := by
  unfold State.converted State.source
  rw [h.conf, h.slb]

/-- Stored bytes are equal if their values are. -/
theorem eq_of_map_toInt {o o' : Option Byte} (h : (o'.map fun b => (b.toNat : Int)) = o.map fun b => (b.toNat : Int)) :
    o' = o :=
  Option.map_injective (fun _ _ hab => BitVec.eq_of_toNat_eq (Int.ofNat_inj.1 hab)) h

theorem feedRow_agrees (h : SameImage s s') :
    (runAll [convertScanline s.rows, uopPadRight s.rows] s).Agrees s s' (Alike s s' (s.rows + 1))
      (runAll [convertScanline s'.rows, uopPadRight s'.rows] s') := by
  have hends := feedRow_ends_inside s
  cases hx : runAll [convertScanline s.rows, uopPadRight s.rows] s with
  | fault f => exact Flow.agrees_fault _ _
  | raised u => rw [hx] at hends; exact hends.elim
  | going u =>
    rw [hx] at hends
    obtain ⟨hr, hw, hsrc⟩ := hends
    obtain ⟨t, ht, hrb, hst⟩ := feedRow_completes hr hw hsrc
    obtain ⟨t', ht', hrb', hst'⟩ := feedRow_completes (s := s') (by rw [h.rows]; exact hr)
      (by rw [h.conf, h.cfg]; exact hw) (by unfold State.SourceWritten; rw [h.conf, h.slb]; exact hsrc)
    rw [← hx, ht, ht']
    refine Flow.agrees_going (h.alike.of_rbOnly hrb hrb' (Nat.le_succ _) fun c hc r x hr hx => eq_of_map_toInt ?_)
    rw [hst c r x, hst' c r x, h.conf, h.rows, h.converted]
    by_cases hrow : r = s.rows
    · rw [if_pos ⟨hc, hrow, hx⟩, if_pos ⟨hc, hrow, hx⟩]
    · rw [if_neg fun hn => hrow hn.2.1, if_neg fun hn => hrow hn.2.1, h.samples c hc r x (by omega) hx]

theorem finishRow_agrees (hn : s.rows = n) (h : Alike s₀ s₀' n s s') :
    (finishRow s).Agrees s₀ s₀' (Alike s₀ s₀' n) (finishRow s') := by
  unfold finishRow
  rw [h.rows, h.confs]
  split
  · rename_i hfull
    refine (uopProcessMcuRow_agrees ?_ h).bind fun t t' ht => Flow.agrees_going (ht.setRows (Nat.zero_le _))
    rw [← h.conf, ← hfull, hn]
  · exact Flow.agrees_going h

theorem cmdFeed_agrees (h : SameImage s s') : (cmdFeed s).Agrees s s' (EndsAlike s s') (cmdFeed s') := by
  cases hrej : s.ctl.rejects with
  | some e =>
    rw [cmdFeed_rejected hrej, cmdFeed_rejected (by rw [h.ctl]; exact hrej)]
    exact Flow.agrees_raised (h.raiseError e)
  | none =>
    rw [cmdFeed_eq hrej, cmdFeed_eq (by rw [h.ctl]; exact hrej)]
    refine (feedRow_agrees h).bind fun t t' ht => ?_
    rw [h.rows]
    exact (finishRow_agrees rfl ((ht.setRows (Nat.le_refl _)).setCtl _)).bind fun u u' hu => Flow.agrees_going hu.succeed

/-! ### FINISH (R358, R359, R362) -/

theorem uopPadBottom_agrees (hrows : 1 ≤ s.rows) (h : Alike s₀ s₀' n s s') :
    (uopPadBottom n s).Agrees s₀ s₀' (fun t t' => Alike s₀ s₀' (n + 1) t t' ∧ 1 ≤ t.rows) (uopPadBottom n s') := by
  by_cases hin : s.hasSamples n s.conf.wpad
  · obtain ⟨hr, hw⟩ := (hasSamples_iff _ _ _).1 hin
    have hcfg : s'.cfg = s.cfg := h.image.cfg
    obtain ⟨t, ht, hrb, hst⟩ := uopPadBottom_completes hr hw
    obtain ⟨t', ht', hrb', hst'⟩ := uopPadBottom_completes (s := s') hr (by rw [h.confs, hcfg]; exact hw)
    rw [ht, ht']
    have hle := h.rows_le
    refine Flow.agrees_going ⟨h.of_rbOnly hrb hrb' (Nat.le_succ_of_le hle) fun c hc r x hr hx => ?_, by rw [hrb]; exact hrows⟩
    rw [hst, hst', h.confs]
    by_cases hrow : r = n
    · rw [if_pos ⟨hc, hrow, hx⟩, if_pos ⟨hc, hrow, hx⟩, lastRowSample_eq _ _ _ hrows,
        lastRowSample_eq _ _ _ (by rw [h.rows]; exact hrows), h.rows, h.sample hc (by omega) hx]
    · rw [if_neg fun hn => hrow hn.2.1, if_neg fun hn => hrow hn.2.1]
      exact h.image.samples c hc r x (by show r < n; omega) hx
  · unfold uopPadBottom
    rw [if_neg hin]
    exact Flow.agrees_fault _ _

/-- Rows padded one below another are alike down to the last. -/
theorem padRows_agrees (k : Nat) : ∀ {n : Nat} {s s' : State}, 1 ≤ s.rows → Alike s₀ s₀' n s s' →
    (runAll ((List.range' n k).map uopPadBottom) s).Agrees s₀ s₀' (Alike s₀ s₀' (n + k))
      (runAll ((List.range' n k).map uopPadBottom) s') := by
  induction k with
  | zero => exact fun _ h => Flow.agrees_going h
  | succ k ih =>
    intro n s s' hrows h
    rw [List.range'_succ, List.map_cons, runAll_cons, runAll_cons, show n + (k + 1) = n + 1 + k by omega]
    exact (uopPadBottom_agrees hrows h).bind fun t t' ⟨ht, hr⟩ => ih hr ht

/-- With no row buffered nothing of the row buffer need be alike. -/
theorem Alike.noRows (h : Alike s₀ s₀' n s s') : Alike s₀ s₀' 0 { s with rows := 0 } { s' with rows := 0 } :=
  ⟨{ h.image with rows := rfl, samples := fun _ _ _ _ hr => absurd hr (Nat.not_lt_zero _) }, rfl, Nat.le_refl _, h.conf,
    h.transfers⟩

theorem finishPartialRow_agrees (h : SameImage s s') :
    (finishPartialRow s).Agrees s s' (Alike s s' 0) (finishPartialRow s') := by
  unfold finishPartialRow
  rw [h.rows, h.conf]
  split
  · rename_i h0
    have h' := h.alike
    rw [h0] at h'
    exact Flow.agrees_going h'
  · rw [runAll_append, runAll_append]
    have hrows : 1 ≤ s.rows := by omega
    have hcode : ∀ t t', Alike s s' (s.rows + (s.conf.ss.mcuH - s.rows)) t t' → (runAll [uopProcessMcuRow] t).Agrees s s'
        (Alike s s' (s.rows + (s.conf.ss.mcuH - s.rows))) (runAll [uopProcessMcuRow] t') := fun t t' ht =>
      (uopProcessMcuRow_agrees (by omega) ht).cons fun _ _ hu => Flow.agrees_going hu
    exact ((padRows_agrees _ hrows h.alike).bind hcode).bind fun _ _ ht => Flow.agrees_going ht.noRows

theorem cmdFinish_agrees (h : SameImage s s') : (cmdFinish s).Agrees s s' (EndsAlike s s') (cmdFinish s') := by
  cases hrej : s.ctl.rejects with
  | some e =>
    rw [cmdFinish_rejected hrej, cmdFinish_rejected (by rw [h.ctl]; exact hrej)]
    exact Flow.agrees_raised (h.raiseError e)
  | none =>
    rw [cmdFinish_eq hrej, cmdFinish_eq (by rw [h.ctl]; exact hrej)]
    exact (finishPartialRow_agrees h).bind fun _ _ ha => (appendBits_agrees _ _ ha).bind fun _ _ hb =>
      (flushBuffer_agrees hb).bind fun _ _ hc => (rawBytes_agrees _ hc).bind fun _ _ hd =>
        (flushBuffer_agrees hd).bind fun _ _ he => Flow.agrees_going (he.setCtl .finalized).succeed

end

/-- Settles O22: both commands run alike from states alike in the rows they read. -/
theorem imageDependsOnlyOnItsOwnRows : Obligations.ImageDependsOnlyOnItsOwnRows := by
  intro i s s' t hi h ht
  rcases List.mem_pair.1 hi with rfl | rfl
  · exact (cmdFeed_agrees h).next ht
  · exact (cmdFinish_agrees h).next ht

/-! ### INIT (R340, R372) -/

/-- The states from which INIT flushes the header are alike, whatever image there was before. -/
theorem headerBuffered_alike {s s' : State} (c : Conf) (hcfg : s'.cfg = s.cfg) (hslb : s'.slb = s.slb)
    (hans : s'.answers = s.answers) (hdraws : s'.draws = s.draws) (hepoch : s'.epoch = s.epoch) :
    SameImage (s.teardown.headerBuffered c) (s'.teardown.headerBuffered c) :=
  ⟨hcfg, rfl, rfl, rfl, hslb, rfl, rfl, rfl, rfl, rfl, hans, hdraws, hepoch, fun _ _ _ _ hr => absurd hr (Nat.not_lt_zero _)⟩

/-- The checks read the configuration registers and the capacity (R341). -/
theorem validate_congr {s s' : State} (hcfg : s'.cfg = s.cfg) (hdim : s'.cfgDim = s.cfgDim) (hmode : s'.cfgMode = s.cfgMode) :
    validate s' = validate s := by
  unfold validate State.cfgWidth State.cfgHeight State.cfgQuality State.cfgChannels State.cfgSubsamp State.cfgNocd
  rw [hcfg, hdim, hmode]

/-- Settles O23: all that INIT builds comes from the registers, and what it drops is gone. -/
theorem initForgetsTheLastImage : Obligations.InitForgetsTheLastImage := by
  intro s s' t hcfg hdim hmode hslb hans hdraws hepoch ht hctl
  have hval : validate s'.teardown = validate s.teardown := validate_congr hcfg hdim hmode
  cases hv : validate s.teardown with
  | error e =>
    change (cmdInit s).toOutcome = _ at ht
    rw [cmdInit_raised hv] at ht
    cases ht
    rcases validate_error hv with rfl | rfl
    all_goals exact (hctl rfl).elim
  | ok c =>
    have h := headerBuffered_alike c hcfg hslb hans hdraws hepoch
    have hinit : (cmdInit s).Agrees (s.teardown.headerBuffered c) (s'.teardown.headerBuffered c)
        (EndsAlike (s.teardown.headerBuffered c) (s'.teardown.headerBuffered c)) (cmdInit s') := by
      rw [cmdInit_eq hv, cmdInit_eq (hval.trans hv)]
      exact (flushBuffer_agrees h.alike).bind fun _ _ hu => Flow.agrees_going (hu.setCtl .configured).succeed
    exact hinit.next ht

end Sys2Proof.Machine
end

section
/-! PROOFS. The host commands: NOP and DEINIT, the checks of INIT, FEED and FINISH where they are turned away, the FEED that
codes its MCU row, and the FINISH of an image (O24, O25, O26, O28, O31, O32, O33, O35). -/

namespace Sys2Proof.Machine

/-! ### NOP and DEINIT (R364, R366) -/

/-- Settles O24: the word 0 is NOP's. -/
theorem nopChangesNothing : Obligations.NopChangesNothing :=
  fun _ => ⟨rfl, write_register _ (by decide) (by decide)⟩

/-- Settles O25: the word 0x04000000 is DEINIT's. -/
theorem deinitReleasesTheImage : Obligations.DeinitReleasesTheImage :=
  fun _ => ⟨rfl, write_register _ (by decide) (by decide)⟩

/-! ### The checks of INIT (R341) -/

/-- The configuration registers hold a value that R341 turns away, whatever the capacity. -/
def State.ParametersFail (s : State) : Prop :=
  s.cfgWidth.toNat = 0 ∨ s.cfgHeight.toNat = 0 ∨ (s.cfgChannels.toNat ≠ 1 ∧ s.cfgChannels.toNat ≠ 3) ∨
    s.cfgQuality.toNat = 0 ∨ 100 < s.cfgQuality.toNat

theorem channelsOf_eq_none {ch : BitVec 2} : channelsOf ch = none ↔ ch.toNat ≠ 1 ∧ ch.toNat ≠ 3 := by
  unfold channelsOf
  split <;> simp_all

/-- Of the parameter checks, any that fails answers INVALID_PARAMETERS. -/
theorem validate_parameters {s : State} (h : s.ParametersFail) : validate s = .error .invalidParameters := by
  unfold validate
  split
  · rfl
  rename_i hw
  split
  · rfl
  rename_i hh
  split
  · rfl
  rename_i ch hch
  split
  · rfl
  rename_i hq
  rw [BitVec.toNat_eq, BitVec.toNat_zero] at hw hh
  have hch' := mt channelsOf_eq_none.2 (by rw [hch]; exact Option.some_ne_none ch)
  unfold State.ParametersFail at h
  omega

/-- The capacity is looked at when every parameter has passed. -/
theorem validate_capacity {s : State} (h : ¬ s.ParametersFail)
    (hp : s.cfg.maxPaddedWidth < paddedWidth s.cfgWidth.toNat s.cfgSubsamp) : validate s = .error .allocationFailure := by
  unfold State.ParametersFail at h
  unfold validate
  rw [if_neg (by rw [BitVec.toNat_eq, BitVec.toNat_zero]; omega), if_neg (by rw [BitVec.toNat_eq, BitVec.toNat_zero]; omega)]
  split
  · rename_i hch
    have := channelsOf_eq_none.1 hch
    omega
  · rw [if_neg (by omega), if_pos hp]

/-- Settles O26: the parameter checks come before the capacity. -/
theorem initReportsTheFirstFailingCheck : Obligations.InitReportsTheFirstFailingCheck := by
  rintro s e (⟨hfail, rfl⟩ | ⟨hpass, hwide, rfl⟩)
  · exact congrArg Flow.toOutcome (cmdInit_raised (validate_parameters hfail))
  · exact congrArg Flow.toOutcome (cmdInit_raised (validate_capacity hpass hwide))

/-! ### FEED and FINISH where they are turned away (R368) -/

/-- Settles O28: both states reject the two commands with BAD_STATE. -/
theorem feedAndFinishReportBadState : Obligations.FeedAndFinishReportBadState := by
  intro s i hi hctl
  have hrej : s.ctl.rejects = some .badState := by
    rcases hctl with h | h
    all_goals rw [h]; rfl
  rcases hi with rfl | rfl
  · exact congrArg Flow.toOutcome (cmdFeed_rejected hrej)
  · exact congrArg Flow.toOutcome (cmdFinish_rejected hrej)

/-! ### PAD_BOTTOM (R359) -/

/-- Settles O35: a 4-bit row is one the row buffer has. -/
theorem padBottomCopiesTheLastBufferedRow : Obligations.PadBottomCopiesTheLastBufferedRow := by
  intro s r hw
  obtain ⟨t, ht, hrb, hst⟩ := uopPadBottom_completes r.isLt hw
  refine ⟨t, congrArg Flow.toOutcome ht, hrb, fun c x hc hx hrows => ?_, fun c r' x hout => ?_⟩
  · rw [hst, if_pos ⟨hc, rfl, hx⟩, lastRowSample_eq _ _ _ hrows]
  · rw [hst, if_neg hout]

/-! ### The FEED that completes the MCU row (R350, R352, R353) -/

/-- Buffering rows keeps a row codable (R50). -/
theorem State.CodingReady.of_rbOnly {s t : State} (h : s.CodingReady) (ht : RbOnly s t) : t.CodingReady := by
  rw [ht]
  exact ⟨h.width, h.bias, h.quant, h.huff, h.pred, h.writer⟩

/-- A complete MCU row is coded, and `ROWS` starts again. -/
theorem finishRow_complete {s : State} (h : s.rows = s.conf.ss.mcuH) :
    finishRow s = (uopProcessMcuRow s).bind fun t => .going { t with rows := 0 } := if_pos h

/-- An MCU row coded with accepted answers, and the answers left after it. -/
theorem uopProcessMcuRow_accepted {s : State} (h : s.CodingReady) {n : Nat} (ha : s.SinkAccepts (s.conf.rowLoads.length + n)) :
    ∃ t, uopProcessMcuRow s = .going t ∧ Coding s t ∧ t.SinkAccepts n ∧ t.draws = s.draws ∧
      Appended s t (blocksBits s s.pred s.conf.rowLoads) ∧ t.pred = predAfter s s.pred s.conf.rowLoads := by
  have htakes := uopProcessMcuRow_takes h
  obtain ⟨t, ht, hleft, hdraws⟩ := htakes.accepted n ha
  have hends := htakes.ends
  rw [ht] at hends
  obtain ⟨hcoding, hbits, hpred⟩ := hends
  exact ⟨t, ht, hcoding, hleft, hdraws, hbits, hpred⟩

/-- Settles O31: the row is converted and padded, and the MCU row it completes is coded. -/
theorem feedCodesACompleteMcuRow : Obligations.FeedCodesACompleteMcuRow := by
  intro s hctl hrows hready hsrc ha
  have hH := mcuH_le s.conf.ss
  obtain ⟨b, hb, hrb, hbuf⟩ := feedRow_completes (by omega) hready.width hsrc
  -- the state in which the row is complete
  obtain ⟨c, hc⟩ : ∃ c : State, c = { b with rows := s.rows + 1, ctl := .accumulating } := ⟨_, rfl⟩
  have hcs : c = { s with rb := b.rb, rows := s.rows + 1, ctl := .accumulating } := by rw [hc, hrb]
  have hcready : c.CodingReady := by
    rw [hcs]
    exact ⟨hready.width, hready.bias, hready.quant, hready.huff, hready.pred, hready.writer⟩
  have hca : c.SinkAccepts (c.conf.rowLoads.length + 0) := by rw [hcs]; exact ha
  obtain ⟨u, hu, hcoding, -, hdraws, hbits, hpred⟩ := uopProcessMcuRow_accepted hcready hca
  have hsame : SameRow b c := by rw [hc]; exact ⟨rfl, rfl, rfl, rfl, rfl⟩
  have hcp : c.pred = s.pred := by rw [hcs]
  have hcl : c.conf = s.conf := by rw [hcs]
  rw [hcp, hcl, blocksBits_sameRow hsame] at hbits
  rw [hcp, hcl, predAfter_sameRow hsame] at hpred
  refine ⟨b, State.succeed { u with rows := 0 }, hrb, hbuf, ?_, hbits.congr (by rw [hcs]) (by rw [hcs]; rfl) rfl rfl, ?_⟩
  · show (cmdFeed s).toOutcome = _
    rw [cmdFeed_eq (rejects_none hctl), hb, Flow.bind_going, ← hc, finishRow_complete (by rw [hcs]; exact hrows), hu]
    rfl
  · rw [← hpred]
    have honly : CodingOnly c u := hcoding.only
    rw [show s.draws = u.draws by rw [hdraws, hcs]]
    unfold CodingOnly at honly
    rw [honly, hcs]
    rfl

/-! ### FINISH (R358, R359, R362) -/

/-- Settles O32: with no row buffered the image ends with the pending bits. -/
theorem finishWithoutRowsPadsAndEndsTheImage : Obligations.FinishWithoutRowsPadsAndEndsTheImage := by
  intro s hctl hrows hready ha
  obtain ⟨t, data, ht, hbits, hst, hlog, hob, hdraws, hframe⟩ := endImage_completes hready ha
  refine ⟨t, data, ?_, hbits, hst, hlog, hob, ?_⟩
  · show (cmdFinish s).toOutcome = _
    rw [cmdFinish_eq (rejects_none hctl), show finishPartialRow s = .going s from if_pos hrows, Flow.bind_going, ht]
    rfl
  · rw [hob, hdraws] at hframe
    exact hframe

/-- Bits whose last byte is padded, where whole bytes come before the pending ones (R271, R278). -/
theorem pad_after_bytes {bits rest : List Bool} {whole last : List Byte} (h : bits = whole.flatMap byteBits ++ rest)
    (hlt : rest.length < 8) (hpad : rest ++ List.replicate ((8 - rest.length) % 8) true = last.flatMap byteBits) :
    bits ++ List.replicate ((8 - bits.length % 8) % 8) true = (whole ++ last).flatMap byteBits := by
  have hlen : bits.length % 8 = rest.length := by
    rw [h, List.length_append, flatMap_byteBits_length]
    omega
  rw [hlen, h, List.append_assoc, hpad, List.flatMap_append]

/-- A partial MCU row is padded, then coded, and `ROWS` starts again (R358). -/
theorem finishPartialRow_codes {s b u : State} (hrows : s.rows ≠ 0)
    (hpad : runAll ((List.range' s.rows (s.conf.ss.mcuH - s.rows)).map uopPadBottom) s = .going b)
    (hcode : uopProcessMcuRow b = .going u) : finishPartialRow s = .going { u with rows := 0 } := by
  unfold finishPartialRow
  rw [if_neg hrows, runAll_append, hpad, Flow.bind_going, runAll_cons, hcode]
  rfl

/-- Settles O33: the padded MCU row is coded, and the image ends with the bits it leaves pending. -/
theorem finishCodesThePartialMcuRow : Obligations.FinishCodesThePartialMcuRow := by
  intro s hctl hone hrows hready ha
  have hH := mcuH_le s.conf.ss
  obtain ⟨b, hb, hrb, hst⟩ := padRows_completes (s.conf.ss.mcuH - s.rows) hone (Nat.le_refl _) (by omega) hready.width
  have hbready := hready.of_rbOnly hrb
  unfold RbOnly at hrb
  have hba : b.SinkAccepts (b.conf.rowLoads.length + 3) := by rw [hrb]; exact ha
  obtain ⟨u, hu, hcoding, hleft, hdraws, ⟨whole, hwhole, hlt, hstream⟩, hpred⟩ := uopProcessMcuRow_accepted hbready hba
  have hbp : b.pred = s.pred := by rw [hrb]
  have hbc : b.conf = s.conf := by rw [hrb]
  have hbacc : b.acc = s.acc := by rw [hrb]
  have hbst : b.stream = s.stream := by rw [hrb]; rfl
  rw [hbp, hbc, hbacc] at hwhole
  rw [hbp, hbc] at hpred
  obtain ⟨t, last, ht, hlast, htst, hlog, hob, htdraws, hframe⟩ :=
    endImage_completes (s := { u with rows := 0 }) (hcoding.ready hbready.writer) hleft
  refine ⟨b, t, whole ++ last, hrb, fun c r x => ?_, ?_, pad_after_bytes hwhole hlt hlast, ?_, hlog, ?_⟩
  · rw [hst, show s.rows + (s.conf.ss.mcuH - s.rows) = s.conf.ss.mcuH by omega]
  · show (cmdFinish s).toOutcome = _
    rw [cmdFinish_eq (rejects_none hctl), finishPartialRow_codes (by omega) hb hu, Flow.bind_going, ht]
    rfl
  · rw [htst, show State.stream { u with rows := 0 } = u.stream from rfl, hstream, hbst, stuff_append]
    simp only [List.append_assoc]
  · have honly : CodingOnly b u := hcoding.only
    rw [← hpred, show s.draws = t.draws by rw [htdraws]; exact (hdraws.trans (by rw [hrb])).symm]
    rw [hob] at hframe
    unfold CodingOnly at honly
    rw [hframe, honly, hrb]

end Sys2Proof.Machine
end

section
/-! PROOFS. The FAILED state: what each host command does in it (O29). -/

namespace Sys2Proof.Machine

/-- A refused transfer raised where the block has already FAILED only reports itself (R404, R406). -/
theorem raiseError_sinkWriteFailure_of_failed {s : State} (hctl : s.ctl = .failed) (hrows : s.rows = 0) :
    raiseError .sinkWriteFailure s = { s with result := false, err := .sinkWriteFailure } := by
  show { s with ctl := .failed, rows := 0, result := false, err := .sinkWriteFailure } = _
  rw [← hctl, ← hrows]

/-- A word that issues no command, written to CMD, raises ILLEGAL_COMMAND (R128, R408). -/
theorem write_cmd_of_commandOf_eq_none {w : Word} (h : commandOf w = none) (s : State) :
    hostAccess (.write .word 0x000#19 w) s = .next (raiseError .illegalCommand s) := by
  rw [write_register w (by decide) (by decide)]
  show issueCommand w s = _
  unfold issueCommand
  rw [h]

/-- INIT starts from the teardown, so nothing the teardown drops matters to it (R340). -/
theorem cmdInit_congr {s s' : State} (h : s.teardown = s'.teardown) : cmdInit s = cmdInit s' := by
  unfold cmdInit
  rw [h]

/-- Settles O29: FEED and FINISH are turned away with the error FAILED already reports, an illegal command raises another one,
and INIT and DEINIT tear down. -/
theorem failedStateIsPermanentUntilInitOrDeinit : Obligations.FailedStateIsPermanentUntilInitOrDeinit := by
  intro s hctl hrows
  have hrej : s.ctl.rejects = some .sinkWriteFailure := by rw [hctl]; rfl
  have hraise := raiseError_sinkWriteFailure_of_failed hctl hrows
  refine ⟨?feed, ?finish, rfl, fun w hw => ?illegal, ?deinit, ?init⟩
  case feed =>
    show (cmdFeed s).toOutcome = _
    rw [cmdFeed_rejected hrej, hraise]
    rfl
  case finish =>
    show (cmdFinish s).toOutcome = _
    rw [cmdFinish_rejected hrej, hraise]
    rfl
  case illegal => exact ⟨_, write_cmd_of_commandOf_eq_none hw s, hctl, raiseError_sinkLog _ s⟩
  case deinit => exact ⟨_, (deinitReleasesTheImage s).1, rfl, rfl⟩
  case init => exact congrArg Flow.toOutcome (cmdInit_congr rfl)

end Sys2Proof.Machine
end
